-- ==== Sys2Proof/Word.lean ====
section
/-! DEFINITION. The widths of the core: words, blocks, bytes, nonces, bit counts (00_scope.md rules R6, R7). -/
namespace Sys2Proof

/-- One bus word, one command word or one counter: 32 bits (rules R52, R70). -/
abbrev Word := BitVec 32

/-- One 128-bit value, byte 0 the most significant (rule R7). -/
abbrev Block := BitVec 128

/-- One byte. -/
abbrev Byte := BitVec 8

/-- The 96-bit nonce (rule R22). -/
abbrev Nonce := BitVec 96

/-- A count of bits of a message, 64 bits wide (rule R35). -/
abbrev BitCount := BitVec 64

end Sys2Proof
end

