-- ==== Sys2Proof/Config.lean ====
section
/-! DEFINITION. What an implementation fixes: the ID constant and the open parameters of 00_scope.md rule R6, and the
values the spec leaves open as constants without a body. -/
namespace Sys2Proof.Config

/-- The ID register's constant (rules R2, R33). -/
def idValue : Word := 0x41470001#32

/-- LAT(op) - 1 for a defined OP: open, a function of the OP value only (rules R6, R182; log entry 1). -/
opaque latencyBeyondOne : BitVec 8 → Nat

/-- LAT_ERR - 1: open (rules R6, R182; log entry 1). -/
opaque errorLatencyBeyondOne : Nat

/-- The value a read returns that the host makes while `rst` is asserted: free, a fresh one for each reply
(93_implementation_defined.md O3; log entry 4). -/
opaque resetReadData : Nat → Word

/-- Whether an access made while `rst` is asserted gets an error response: free, a fresh one for each reply
(93_implementation_defined.md O3; log entry 4). -/
opaque resetResponseIsError : Nat → Bool

end Sys2Proof.Config
end

