-- ==== Sys2Proof/Machine/Bits.lean ====
section
/-! DEFINITION. Bytes and words of the 96-bit and 128-bit values, and the byte order they are numbered in
(00_scope.md rule R7, 20_memory.md rules R56, R57). -/
namespace Sys2Proof.Machine

/-- `byte(v, i) = v[127-8i : 120-8i]`: byte 0 is the most significant (rule R7). -/
def byteOf (v : Block) (i : Nat) : Byte := v.extractLsb' (120 - 8 * i) 8

/-- The first `k` of the bytes `b 0, b 1, …` of a block, in the order of rule R7, as a number of `8 * k` bits. -/
def bytesUpTo (b : Nat → Byte) : (k : Nat) → BitVec (8 * k)
  | 0 => 0#0
  | k + 1 => (bytesUpTo b k ++ b k).cast rfl

/-- The block whose byte `i` is `b i` (rule R7). -/
def ofBytes (b : Nat → Byte) : Block := (bytesUpTo b 16).cast rfl

/-- Byte `j` of a 32-bit word, `w[31-8j : 24-8j]` (40_aes.md rule R90). -/
def byteOfWord (w : Word) (j : Nat) : Byte := w.extractLsb' (24 - 8 * j) 8

/-- Word `i` of a 128-bit register, `R[127-32i : 96-32i]` (rule R56). -/
def wordOf (r : Block) (i : Fin 4) : Word := r.extractLsb' (96 - 32 * i.val) 32

/-- A 128-bit register with its word `i` replaced and the other 96 bits unchanged (rule R56). -/
def setWord (r : Block) (i : Fin 4) (v : Word) : Block :=
  let put (j : Fin 4) : Word := if j = i then v else wordOf r j
  (put 0 ++ put 1 ++ put 2 ++ put 3).cast rfl

/-- Word `i` of NONCE, `NONCE[95-32i : 64-32i]` (rule R57). -/
def nonceWord (r : Nonce) (i : Fin 3) : Word := r.extractLsb' (64 - 32 * i.val) 32

/-- NONCE with its word `i` replaced (rule R57). -/
def setNonceWord (r : Nonce) (i : Fin 3) (v : Word) : Nonce :=
  let put (j : Fin 3) : Word := if j = i then v else nonceWord r j
  (put 0 ++ put 1 ++ put 2).cast rfl

end Sys2Proof.Machine
end

