-- ==== Sys2Proof/Syntax.lean ====
section
/-! DEFINITION. The fifteen commands of the core (30_encoding.md rule R72, spec/opcode_table.json, in its order). -/
namespace Sys2Proof

/-- One command. The block commands carry NBYTES, the count of bytes of DIN that take part (rule R71); every
other operand is a fixed register named in the command's rule. -/
inductive Instr where
  /-- AES_ENC (rule R94) -/
  | aesEnc
  /-- GF_MUL (rule R105) -/
  | gfMul
  /-- TAG_CMP (rule R125) -/
  | tagCmp
  /-- ZEROIZE (rule R126) -/
  | zeroize
  /-- GCM_INIT_ENC (rule R117) -/
  | gcmInitEnc
  /-- GCM_INIT_DEC (rule R118) -/
  | gcmInitDec
  /-- GCM_AAD n (rule R119) -/
  | gcmAad (n : BitVec 5)
  /-- GCM_ENC n (rule R120) -/
  | gcmEnc (n : BitVec 5)
  /-- GCM_DEC_AUTH n (rule R121) -/
  | gcmDecAuth (n : BitVec 5)
  /-- GCM_FINAL (rule R122) -/
  | gcmFinal
  /-- GCM_DEC n (rule R123) -/
  | gcmDec (n : BitVec 5)
  /-- GCM_ABORT (rule R124) -/
  | gcmAbort
  /-- NONCE_INIT (rule R141) -/
  | nonceInit
  /-- NONCE_GEN (rule R142) -/
  | nonceGen
  /-- NONCE_VALIDATE (rule R143) -/
  | nonceValidate
deriving DecidableEq, Repr

end Sys2Proof
end

