-- ==== Sys2Proof/WellFormed.lean ====
section
/-! DEFINITION. Which commands are well formed: a block command's count is 1 to 16 (30_encoding.md rules R71, R75). -/
namespace Sys2Proof

/-- The legal counts of a block command: 1 to 16 (rule R71). -/
def legalCount (n : BitVec 5) : Bool :=
  decide (1 ≤ n.toNat) && decide (n.toNat ≤ 16)

/-- A block command has a legal count; every other command has no count to check. -/
def Instr.wellFormed : Instr → Bool
  | .aesEnc => true
  | .gfMul => true
  | .tagCmp => true
  | .zeroize => true
  | .gcmInitEnc => true
  | .gcmInitDec => true
  | .gcmAad n => legalCount n
  | .gcmEnc n => legalCount n
  | .gcmDecAuth n => legalCount n
  | .gcmFinal => true
  | .gcmDec n => legalCount n
  | .gcmAbort => true
  | .nonceInit => true
  | .nonceGen => true
  | .nonceValidate => true

end Sys2Proof
end

