-- ==== Sys2Proof/Decode.lean ====
section
/-! DEFINITION. The command word, its decoder and its encoder (30_encoding.md rules R70-R75, R77), and the outcome codes
a command can end with (60_exceptions.md rule R151). -/
namespace Sys2Proof

/-- The outcome codes of STATUS.ERRCODE (rule R151). The codes 7 to 15 are never written, so they have no name. -/
inductive ErrCode where
  /-- OK: the command was performed -/
  | ok
  /-- ERR_ILLEGAL: OP is none of the fifteen opcodes -/
  | illegal
  /-- ERR_RESERVED: RSVD is not 0 -/
  | reserved
  /-- ERR_NBYTES: the count is not one the command takes -/
  | nbytes
  /-- ERR_SEQUENCE: the session state does not accept the command -/
  | sequence
  /-- ERR_EXHAUSTED: NONCE_GEN with NEXH = 1 -/
  | exhausted
  /-- ERR_LENGTH: GCM_DEC past or short of what pass 1 authenticated -/
  | length
deriving DecidableEq, Repr

/-- OP, bits 7:0 of the command word (rule R70). -/
def opOf (w : Word) : BitVec 8 := w.extractLsb' 0 8

/-- NBYTES, bits 12:8 of the command word (rule R70). -/
def nbytesOf (w : Word) : BitVec 5 := w.extractLsb' 8 5

/-- RSVD, bits 31:13 of the command word (rule R70). -/
def rsvdOf (w : Word) : BitVec 19 := w.extractLsb' 13 19

/-- The opcode map of rule R72; `none` for an illegal OP (rule R73). A command without a count drops NBYTES here;
`decode` checks that it is 0. -/
def instrOf (op : BitVec 8) (n : BitVec 5) : Option Instr :=
  if op = 0x01#8 then some .aesEnc
  else if op = 0x02#8 then some .gfMul
  else if op = 0x03#8 then some .tagCmp
  else if op = 0x04#8 then some .zeroize
  else if op = 0x10#8 then some .gcmInitEnc
  else if op = 0x11#8 then some .gcmInitDec
  else if op = 0x12#8 then some (.gcmAad n)
  else if op = 0x13#8 then some (.gcmEnc n)
  else if op = 0x14#8 then some (.gcmDecAuth n)
  else if op = 0x15#8 then some .gcmFinal
  else if op = 0x16#8 then some (.gcmDec n)
  else if op = 0x17#8 then some .gcmAbort
  else if op = 0x20#8 then some .nonceInit
  else if op = 0x21#8 then some .nonceGen
  else if op = 0x22#8 then some .nonceValidate
  else none

/-- Whether a command's word carries a count (rule R71). -/
def Instr.takesCount : Instr → Bool
  | .gcmAad _ => true
  | .gcmEnc _ => true
  | .gcmDecAuth _ => true
  | .gcmDec _ => true
  | .aesEnc => false
  | .gfMul => false
  | .tagCmp => false
  | .zeroize => false
  | .gcmInitEnc => false
  | .gcmInitDec => false
  | .gcmFinal => false
  | .gcmAbort => false
  | .nonceInit => false
  | .nonceGen => false
  | .nonceValidate => false

/-- Whether NBYTES = n is legal for a command: 1 to 16 for the block commands, 0 for every other (rule R71). -/
def Instr.allowsCount (i : Instr) (n : BitVec 5) : Bool :=
  if i.takesCount then legalCount n else decide (n = 0#5)

/-- The decoder: the checks of rule R77 in their order (rule R152). Total on every word; a word that is no command
is rejected by the name of its error. -/
def decode (w : Word) : Except ErrCode Instr :=
  match instrOf (opOf w) (nbytesOf w) with
  | none => .error .illegal
  | some i =>
    if rsvdOf w = 0#19 then
      if i.allowsCount (nbytesOf w) then .ok i else .error .nbytes
    else .error .reserved

/-- The opcode of a command (rule R72). -/
def Instr.opcode : Instr → BitVec 8
  | .aesEnc => 0x01#8
  | .gfMul => 0x02#8
  | .tagCmp => 0x03#8
  | .zeroize => 0x04#8
  | .gcmInitEnc => 0x10#8
  | .gcmInitDec => 0x11#8
  | .gcmAad _ => 0x12#8
  | .gcmEnc _ => 0x13#8
  | .gcmDecAuth _ => 0x14#8
  | .gcmFinal => 0x15#8
  | .gcmDec _ => 0x16#8
  | .gcmAbort => 0x17#8
  | .nonceInit => 0x20#8
  | .nonceGen => 0x21#8
  | .nonceValidate => 0x22#8

/-- The NBYTES field of a command: its count, or 0 (rule R71). -/
def Instr.count : Instr → BitVec 5
  | .gcmAad n => n
  | .gcmEnc n => n
  | .gcmDecAuth n => n
  | .gcmDec n => n
  | .aesEnc => 0#5
  | .gfMul => 0#5
  | .tagCmp => 0#5
  | .zeroize => 0#5
  | .gcmInitEnc => 0#5
  | .gcmInitDec => 0#5
  | .gcmFinal => 0#5
  | .gcmAbort => 0#5
  | .nonceInit => 0#5
  | .nonceGen => 0#5
  | .nonceValidate => 0#5

/-- The encoder: RSVD = 0, then NBYTES, then OP (rules R70, R75). -/
def encode (i : Instr) : Word := (0#19 ++ i.count ++ i.opcode).cast rfl

/-- The command your word `w` of `nbits` bits stands for, bit 0 the least significant, the bits above `nbits` zero;
`none` where the decoder rejects it. -/
def decodeTableWord (nbits w : Nat) : Option Instr :=
  match decode (BitVec.ofNat 32 (w % 2 ^ nbits)) with
  | .ok i => some i
  | .error _ => none

end Sys2Proof
end

