-- ==== Sys2Proof/Machine/State.lean ====
section
/-! DEFINITION. The state of the core (10_state.md rule R20) as plain data, its reset value (rules R43, R172), and what a
step can stop with. The core has no memory (20_memory.md rule R50), so State lists no memory cells. -/
namespace Sys2Proof.Machine

/-- The session state SESS (10_state.md rule R36), its eight values in the order of their codes 0 to 7. -/
inductive Sess where
  /-- 0: no session -/
  | idle
  /-- 1: encryption session started; AAD may be absorbed -/
  | encAad
  /-- 2: encryption session; at least one plaintext block encrypted -/
  | encText
  /-- 3: decryption session started; AAD may be absorbed -/
  | decAad
  /-- 4: decryption pass 1; at least one ciphertext block absorbed -/
  | decAuth
  /-- 5: decryption tag verified; pass 2 may release plaintext -/
  | decRelease
  /-- 6: session ended with success -/
  | done
  /-- 7: decryption session ended with a tag mismatch -/
  | rejected
deriving DecidableEq, Repr

/-- How wide a bus access is (20_memory.md rule R52). -/
inductive AccessWidth where
  | byte
  | half
  | word
deriving DecidableEq, Repr

/-- What a bus access does: read, or write one value. -/
inductive BusOp where
  | read
  | write (v : Word)
deriving DecidableEq, Repr

/-- One host bus access at a byte offset of the 256-byte register window (rule R50). -/
structure Access where
  width : AccessWidth
  off : BitVec 8
  op : BusOp
deriving DecidableEq, Repr

/-- What the host does next (70_reset_and_hazards.md rules R184, R185). -/
inductive HostEvent where
  /-- one clock cycle without an access -/
  | idle
  /-- no access until BUSY = 0, as for a host that takes the completion interrupt: every cycle up to the pending command's
  completion (rule R64; log entry 13) -/
  | wait
  /-- a read of STATUS, in one clock cycle, repeated until bit 0 (BUSY) of the value read is 0 (rules R64, R76) -/
  | poll
  /-- one access, in one clock cycle (rule R182) -/
  | bus (a : Access)
  /-- a cycle in which `rst` is asserted, with the access the host makes in it, if any (rules R170, R171) -/
  | reset (a : Option Access)
deriving DecidableEq, Repr

/-- The response to an access (rules R53-R55, R60). -/
inductive Resp where
  | ok
  | error
deriving DecidableEq, Repr

/-- What the host's bus gets back from one access. -/
inductive Reply where
  | readDone (v : Word) (r : Resp)
  | writeDone (r : Resp)
deriving DecidableEq, Repr

/-- The command in execution: PEND, and the cycles still to pass before it completes (rules R41, R182). A count of 0
or 1 completes in the next cycle. -/
structure Pending where
  word : Word
  left : Nat
deriving DecidableEq, Repr

/-- The architectural state of rule R20, and the model's own host side (`host`, `replies`). -/
structure State where
  /-- KEY (rule R21) -/
  key : Block
  /-- NONCE (rule R22) -/
  nonce : Nonce
  /-- DIN (rule R23) -/
  din : Block
  /-- AUX (rule R24) -/
  aux : Block
  /-- TAGIN (rule R25) -/
  tagin : Block
  /-- DOUT (rule R26) -/
  dout : Block
  /-- NVAL (rule R27) -/
  nval : Word
  /-- NRES (rule R28) -/
  nres : Word
  /-- TXC, read at TXCNT (rule R29) -/
  txc : Word
  /-- RXHW (rule R30) -/
  rxhw : Word
  /-- CMD_LAST (rule R31) -/
  cmdLast : Word
  /-- STATUS.DONE (rule R32) -/
  done : Bool
  /-- STATUS.TAG_OK (rule R32) -/
  tagOk : Bool
  /-- STATUS.NVALID (rule R32) -/
  nvalid : Bool
  /-- STATUS.NEXH (rules R32, R38) -/
  nexh : Bool
  /-- STATUS.OVERRUN (rules R32, R156) -/
  overrun : Bool
  /-- STATUS.ERRCODE (rules R32, R151) -/
  errcode : ErrCode
  /-- IRQ_EN.DONE_IE (rule R34) -/
  doneIe : Bool
  /-- SKEY (rule R35) -/
  skey : Block
  /-- H (rule R35) -/
  h : Block
  /-- J0 (rule R35) -/
  j0 : Block
  /-- CTR (rule R35) -/
  ctr : Block
  /-- X (rule R35) -/
  x : Block
  /-- LENA (rule R35) -/
  lenA : BitCount
  /-- LENC (rule R35) -/
  lenC : BitCount
  /-- REM (rule R35) -/
  rem : BitCount
  /-- SESS (rule R36) -/
  sess : Sess
  /-- PARTIAL (rule R37) -/
  partialBlk : Bool
  /-- BUSY and PEND: `none` is BUSY = 0 (rule R41) -/
  pend : Option Pending
  /-- the model's own: what the host still does, first event first (rule R184) -/
  host : List HostEvent
  /-- the model's own: what the host was answered, oldest first (rule R184) -/
  replies : List Reply
deriving DecidableEq, Repr

/-- STATUS.BUSY (rules R32, R41). -/
def State.busy (s : State) : Bool := s.pend.isSome

/-- The state right after reset (rule R172): 0 everywhere, SESS = IDLE, nothing pending. The host's list and the replies
are the model's own and empty (log entry 2). -/
def State.reset : State where
  key := 0#128
  nonce := 0#96
  din := 0#128
  aux := 0#128
  tagin := 0#128
  dout := 0#128
  nval := 0#32
  nres := 0#32
  txc := 0#32
  rxhw := 0#32
  cmdLast := 0#32
  done := false
  tagOk := false
  nvalid := false
  nexh := false
  overrun := false
  errcode := .ok
  doneIe := false
  skey := 0#128
  h := 0#128
  j0 := 0#128
  ctr := 0#128
  x := 0#128
  lenA := 0#64
  lenC := 0#64
  rem := 0#64
  sess := .idle
  partialBlk := false
  pend := none
  host := []
  replies := []

/-- Faults: there are none. The core raises no exceptions and takes no traps (60_exceptions.md rules R150, R160), so
nobody raises one; a command that cannot be performed completes with a code in STATUS.ERRCODE, and a bus error is a
response. -/
inductive Fault where
deriving DecidableEq, Repr

/-- What the model refuses. -/
inductive Refusal where
  /-- Raised by an arm of `exec` whose instruction has no meaning yet, under the instruction's mnemonic. Safe: the model
  stops where the hardware goes on. No arm raises it. -/
  | notModelled (mnemonic : String)
  /-- Raised by `step` on an 8-bit or 16-bit host access: "a bridge that presents a narrower access to the core is
  outside this spec, and a model refuses such an access" (20_memory.md rule R52). Safe: the model stops. -/
  | subWordAccess
deriving DecidableEq, Repr

/-- The outcome of a step or of a command's meaning. -/
abbrev Result := Host.Outcome State Fault Refusal

end Sys2Proof.Machine
end

