-- ==== Sys2Proof/Machine/Flags.lean ====
section
/-! DEFINITION. The STATUS word and its fields, the write-1-to-clear of STATUS, and the interrupt output (10_state.md rule
R32; 60_exceptions.md rules R151, R157, R158). -/
namespace Sys2Proof.Machine

/-- The code of an outcome in STATUS.ERRCODE (rule R151). -/
def errBits : ErrCode → BitVec 4
  | .ok => 0#4
  | .illegal => 1#4
  | .reserved => 2#4
  | .nbytes => 3#4
  | .sequence => 4#4
  | .exhausted => 5#4
  | .length => 6#4

/-- The code of a session state in STATUS.SESS (rule R36). -/
def sessBits : Sess → BitVec 3
  | .idle => 0#3
  | .encAad => 1#3
  | .encText => 2#3
  | .decAad => 3#3
  | .decAuth => 4#3
  | .decRelease => 5#3
  | .done => 6#3
  | .rejected => 7#3

/-- The STATUS word (rule R32): bits 31:20 reserved, PARTIAL 19, SESS 18:16, 15:12 reserved, ERRCODE 11:8, 7:6 reserved,
OVERRUN 5, NEXH 4, NVALID 3, TAG_OK 2, DONE 1, BUSY 0. -/
def statusWord (s : State) : Word :=
  (0#12 ++ BitVec.ofBool s.partialBlk ++ sessBits s.sess ++ 0#4 ++ errBits s.errcode ++ 0#2 ++
    BitVec.ofBool s.overrun ++ BitVec.ofBool s.nexh ++ BitVec.ofBool s.nvalid ++ BitVec.ofBool s.tagOk ++
    BitVec.ofBool s.done ++ BitVec.ofBool s.busy).cast rfl

/-- A host write of `v` to STATUS: bit 1 clears DONE, bit 5 clears OVERRUN, every other bit is ignored (rule R32). -/
def writeStatus (v : Word) (s : State) : State :=
  { s with done := s.done && !v.getLsbD 1, overrun := s.overrun && !v.getLsbD 5 }

/-- The IRQ_EN word: DONE_IE in bit 0, the rest reserved and 0 (rule R34). -/
def irqEnWord (s : State) : Word := (0#31 ++ BitVec.ofBool s.doneIe).cast rfl

/-- A host write of `v` to IRQ_EN: bit 0 is DONE_IE, the rest is ignored (rule R34). -/
def writeIrqEn (v : Word) (s : State) : State := { s with doneIe := v.getLsbD 0 }

/-- The interrupt output: `irq = STATUS.DONE AND IRQ_EN.DONE_IE` at every instant (rule R157). -/
def irq (s : State) : Bool := s.done && s.doneIe

end Sys2Proof.Machine
end

