-- ==== Sys2Proof/Machine/Bus.lean ====
section
/-! DEFINITION. The register window: the register map, reads, writes and their responses, the busy window, and the issue of a
command (20_memory.md rules R50-R61; 10_state.md rules R21-R34; 70_reset_and_hazards.md rule R182). -/
namespace Sys2Proof.Machine

/-- The registers of the map, the words of the wide ones numbered (rule R51). -/
inductive Reg where
  | cmd
  | status
  | irqEn
  | id
  | nres
  | nval
  | txcnt
  | rxhw
  | key (i : Fin 4)
  | nonce (i : Fin 3)
  | din (i : Fin 4)
  | aux (i : Fin 4)
  | tagin (i : Fin 4)
  | dout (i : Fin 4)
deriving DecidableEq, Repr

/-- The register map of rule R51. -/
def regMap : List (BitVec 8 × Reg) :=
  [(0x00#8, .cmd), (0x04#8, .status), (0x08#8, .irqEn), (0x0C#8, .id),
   (0x10#8, .nres), (0x14#8, .nval), (0x18#8, .txcnt), (0x1C#8, .rxhw),
   (0x20#8, .key 0), (0x24#8, .key 1), (0x28#8, .key 2), (0x2C#8, .key 3),
   (0x30#8, .nonce 0), (0x34#8, .nonce 1), (0x38#8, .nonce 2),
   (0x40#8, .din 0), (0x44#8, .din 1), (0x48#8, .din 2), (0x4C#8, .din 3),
   (0x50#8, .aux 0), (0x54#8, .aux 1), (0x58#8, .aux 2), (0x5C#8, .aux 3),
   (0x60#8, .tagin 0), (0x64#8, .tagin 1), (0x68#8, .tagin 2), (0x6C#8, .tagin 3),
   (0x70#8, .dout 0), (0x74#8, .dout 1), (0x78#8, .dout 2), (0x7C#8, .dout 3)]

/-- The register at an offset; `none` for a misaligned or reserved one (rules R53, R54). -/
def regAt (off : BitVec 8) : Option Reg := regMap.lookup off

/-- What a read of a register returns; KEY reads as 0 (rules R31-R34, R55-R57). -/
def readReg (r : Reg) (s : State) : Word :=
  match r with
  | .cmd => s.cmdLast
  | .status => statusWord s
  | .irqEn => irqEnWord s
  | .id => Config.idValue
  | .nres => s.nres
  | .nval => s.nval
  | .txcnt => s.txc
  | .rxhw => s.rxhw
  | .key _ => 0#32
  | .nonce i => nonceWord s.nonce i
  | .din i => wordOf s.din i
  | .aux i => wordOf s.aux i
  | .tagin i => wordOf s.tagin i
  | .dout i => wordOf s.dout i

/-- How a register takes a host write. -/
inductive WriteKind where
  /-- ID, NRES, TXCNT, RXHW, DOUT: an error response and no effect (rule R55) -/
  | readOnly
  /-- STATUS, IRQ_EN: performed busy or not (rule R60) -/
  | always
  /-- CMD and the operand registers: dropped while busy (rule R60) -/
  | whenIdle
deriving DecidableEq, Repr

/-- The write kind of each register (rules R55, R60). -/
def writeKind : Reg → WriteKind
  | .cmd => .whenIdle
  | .status => .always
  | .irqEn => .always
  | .id => .readOnly
  | .nres => .readOnly
  | .nval => .whenIdle
  | .txcnt => .readOnly
  | .rxhw => .readOnly
  | .key _ => .whenIdle
  | .nonce _ => .whenIdle
  | .din _ => .whenIdle
  | .aux _ => .whenIdle
  | .tagin _ => .whenIdle
  | .dout _ => .readOnly

/-- LAT(op), or LAT_ERR for an OP that is none of the fifteen: at least 1, and a function of OP alone (rule R182;
log entry 1). -/
def latency (op : BitVec 8) : Nat :=
  if (instrOf op 0#5).isSome then Config.latencyBeyondOne op + 1 else Config.errorLatencyBeyondOne + 1

/-- The issue of a command word: BUSY and PEND, everything else at completion (rule R77). -/
def issue (w : Word) (s : State) : State :=
  { s with pend := some { word := w, left := latency (opOf w) } }

/-- The effect of a performed write of `v` to a register (rules R31-R34, R56, R57, R59). -/
def writeReg (r : Reg) (v : Word) (s : State) : State :=
  match r with
  | .cmd => issue v s
  | .status => writeStatus v s
  | .irqEn => writeIrqEn v s
  | .id => s
  | .nres => s
  | .nval => { s with nval := v }
  | .txcnt => s
  | .rxhw => s
  | .key i => { s with key := setWord s.key i v }
  | .nonce i => { s with nonce := setNonceWord s.nonce i v }
  | .din i => { s with din := setWord s.din i v }
  | .aux i => { s with aux := setWord s.aux i v }
  | .tagin i => { s with tagin := setWord s.tagin i v }
  | .dout _ => s

/-- A reply goes to the end of the host's replies (rule R184). -/
def reply (r : Reply) (s : State) : State := { s with replies := s.replies ++ [r] }

/-- A host read at an offset: the register's value, or 0 with an error response; no side effect (rules R53-R55, R59). -/
def busRead (off : BitVec 8) (s : State) : State :=
  match regAt off with
  | some r => reply (.readDone (readReg r s) .ok) s
  | none => reply (.readDone 0#32 .error) s

/-- A host write at an offset: performed, dropped with OVERRUN, or refused with an error response (rules R53-R55, R60). -/
def busWrite (off : BitVec 8) (v : Word) (s : State) : State :=
  match regAt off with
  | none => reply (.writeDone .error) s
  | some r =>
    match writeKind r with
    | .readOnly => reply (.writeDone .error) s
    | .always => reply (.writeDone .ok) (writeReg r v s)
    | .whenIdle =>
      if s.busy then reply (.writeDone .error) { s with overrun := true }
      else reply (.writeDone .ok) (writeReg r v s)

/-- One 32-bit host access. -/
def busOp (off : BitVec 8) (op : BusOp) (s : State) : State :=
  match op with
  | .read => busRead off s
  | .write v => busWrite off v s

/-- The response to an access made while `rst` is asserted, the `k`-th reply of the run: the spec gives none, so both the
response and a read's value are free (93_implementation_defined.md O3; log entry 4). -/
def replyInReset (op : BusOp) (k : Nat) : Reply :=
  let r : Resp := if Config.resetResponseIsError k then .error else .ok
  match op with
  | .read => .readDone (Config.resetReadData k) r
  | .write _ => .writeDone r

/-- Reset: every register at its reset value, a pending command discarded, whatever else happens in the cycle
(70_reset_and_hazards.md rules R170, R171). The host's own list and replies go on. -/
def applyReset (s : State) : State := { State.reset with host := s.host, replies := s.replies }

end Sys2Proof.Machine
end

