-- ==== Sys2Proof/Machine/Aes.lean ====
section
/-! DEFINITION. The AES-128 forward cipher (40_aes.md rules R80-R92). The state array of rule R81 is kept as the block it
is loaded from: byte `r + 4c` of the block is `s[r][c]`. -/
namespace Sys2Proof.Machine

/-- `xtime`: multiplication by x in GF(2^8) (rule R83). -/
def xtime (b : Byte) : Byte :=
  if b.getLsbD 7 then (b <<< 1) ^^^ 0x1B#8 else b <<< 1

/-- `mul8`, summed over the bits `k` and up of its second argument, `a` being `xtime^k` of its first. -/
def mul8From (b : Byte) : Nat → Nat → Byte → Byte
  | 0, _, _ => 0#8
  | fuel + 1, k, a => (if b.getLsbD k then a else 0#8) ^^^ mul8From b fuel (k + 1) (xtime a)

/-- `mul8(a, b)`: the product in GF(2^8) (rule R84). -/
def mul8 (a b : Byte) : Byte := mul8From b 8 0 a

/-- Row `r` of the S-box table of rule R86: the sixteen entries for the high digit `r`, column 0 first. -/
def sboxRow (r : BitVec 4) : Block :=
  match r.toNat with
  | 0x0 => 0x637c777bf26b6fc53001672bfed7ab76#128
  | 0x1 => 0xca82c97dfa5947f0add4a2af9ca472c0#128
  | 0x2 => 0xb7fd9326363ff7cc34a5e5f171d83115#128
  | 0x3 => 0x04c723c31896059a071280e2eb27b275#128
  | 0x4 => 0x09832c1a1b6e5aa0523bd6b329e32f84#128
  | 0x5 => 0x53d100ed20fcb15b6acbbe394a4c58cf#128
  | 0x6 => 0xd0efaafb434d338545f9027f503c9fa8#128
  | 0x7 => 0x51a3408f929d38f5bcb6da2110fff3d2#128
  | 0x8 => 0xcd0c13ec5f974417c4a77e3d645d1973#128
  | 0x9 => 0x60814fdc222a908846eeb814de5e0bdb#128
  | 0xa => 0xe0323a0a4906245cc2d3ac629195e479#128
  | 0xb => 0xe7c8376d8dd54ea96c56f4ea657aae08#128
  | 0xc => 0xba78252e1ca6b4c6e8dd741f4bbd8b8a#128
  | 0xd => 0x703eb5664803f60e613557b986c11d9e#128
  | 0xe => 0xe1f8981169d98e949b1e87e9ce5528df#128
  | _ => 0x8ca1890dbfe6426841992d0fb054bb16#128

/-- The S-box: row `a[7:4]`, column `a[3:0]` of the table (rule R86). -/
def sbox (a : Byte) : Byte := byteOf (sboxRow (a.extractLsb' 4 4)) (a.extractLsb' 0 4).toNat

/-- The affine map of rule R85. -/
def affine (b : Byte) : Byte :=
  b ^^^ b.rotateRight 4 ^^^ b.rotateRight 5 ^^^ b.rotateRight 6 ^^^ b.rotateRight 7 ^^^ 0x63#8

/-- SubBytes (rule R87). -/
def subBytes (s : Block) : Block := ofBytes fun i => sbox (byteOf s i)

/-- ShiftRows: row `r` rotated left by `r`; byte `r + 4c` becomes byte `r + 4((c + r) mod 4)` (rule R88). -/
def shiftRows (s : Block) : Block := ofBytes fun i => byteOf s (i % 4 + 4 * ((i / 4 + i % 4) % 4))

/-- Byte `r` of the column `c` after MixColumns: the circulant matrix with first row `02 03 01 01` (rule R89). -/
def mixByte (s : Block) (r c : Nat) : Byte :=
  let a (k : Nat) : Byte := byteOf s ((r + k) % 4 + 4 * c)
  mul8 0x02#8 (a 0) ^^^ mul8 0x03#8 (a 1) ^^^ a 2 ^^^ a 3

/-- MixColumns (rule R89). -/
def mixColumns (s : Block) : Block := ofBytes fun i => mixByte s (i % 4) (i / 4)

/-- RotWord (rule R92). -/
def rotWord (w : Word) : Word :=
  (byteOfWord w 1 ++ byteOfWord w 2 ++ byteOfWord w 3 ++ byteOfWord w 0).cast rfl

/-- SubWord (rule R92). -/
def subWord (w : Word) : Word :=
  (sbox (byteOfWord w 0) ++ sbox (byteOfWord w 1) ++ sbox (byteOfWord w 2) ++ sbox (byteOfWord w 3)).cast rfl

/-- `Rcon[j + 1] = xtime^j(0x01)` (rule R92). -/
def rcon : Nat → Byte
  | 0 => 0x01#8
  | j + 1 => xtime (rcon j)

/-- Round key `j + 1` from round key `j`: the recurrence of rule R92 for the words `w[4j+4] … w[4j+7]`. -/
def nextRoundKey (j : Nat) (k : Block) : Block :=
  let w4 : Word := wordOf k 0 ^^^ (subWord (rotWord (wordOf k 3)) ^^^ (rcon j ++ 0#24).cast rfl)
  let w5 : Word := wordOf k 1 ^^^ w4
  let w6 : Word := wordOf k 2 ^^^ w5
  let w7 : Word := wordOf k 3 ^^^ w6
  (w4 ++ w5 ++ w6 ++ w7).cast rfl

/-- Round key `rk` of the key `k`; round key 0 is the key itself (rule R92). -/
def roundKey (k : Block) : Nat → Block
  | 0 => k
  | j + 1 => nextRoundKey j (roundKey k j)

/-- One full round with round key `rk` (rules R87-R90). -/
def aesRound (rk s : Block) : Block := mixColumns (shiftRows (subBytes s)) ^^^ rk

/-- The state after the initial AddRoundKey and the first `n` full rounds (rule R91). -/
def aesRounds (k p : Block) : Nat → Block
  | 0 => p ^^^ roundKey k 0
  | n + 1 => aesRound (roundKey k (n + 1)) (aesRounds k p n)

/-- `AES(k, p)`: nine full rounds and a final round without MixColumns (rule R91). -/
def aes (k p : Block) : Block := shiftRows (subBytes (aesRounds k p 9)) ^^^ roundKey k 10

end Sys2Proof.Machine
end

