-- ==== Sys2Proof/Machine/Gf128.lean ====
section
/-! DEFINITION. Multiplication in GF(2^128) and the GHASH step (41_gf_ghash.md rules R100-R103). -/
namespace Sys2Proof.Machine

/-- The reduction constant R (rule R101). -/
def gfR : Block := 0xE1000000000000000000000000000000#128

/-- The step of the running copy V: shift right by one, and XOR R if the dropped bit was 1 (rule R100). -/
def gfShift (v : Block) : Block :=
  if v.getLsbD 0 then (v >>> 1) ^^^ gfR else v >>> 1

/-- The loop of rule R100 with `n` bits of X still to process, of which `X[n-1]` is the next. -/
def gfLoop (x : Block) : Nat → Block → Block → Block
  | 0, z, _ => z
  | n + 1, z, v => gfLoop x n (if x.getLsbD n then z ^^^ v else z) (gfShift v)

/-- `X • Y` (rule R100): `X[127]` is processed first. -/
def gfMul (x y : Block) : Block := gfLoop x 128 0#128 y

/-- `GHASH_STEP(X, B, H) = (X XOR B) • H` (rule R103). -/
def ghashStep (x b h : Block) : Block := gfMul (x ^^^ b) h

/-- GHASH of a list of blocks (rule R103). -/
def ghash (h : Block) (bs : List Block) : Block := bs.foldl (fun x b => ghashStep x b h) 0#128

end Sys2Proof.Machine
end

