-- ==== Sys2Proof/Machine/Operands.lean ====
section
/-! DEFINITION. The operand forms of the commands: the byte count, the masked block, and the values a session is built
from (30_encoding.md rule R71; 42_gcm.md rules R110-R114). -/
namespace Sys2Proof.Machine

/-- `mask(v, n)`: bytes 0 to n-1 of `v`, the others zero, for a count `n` of 1 to 16 (rule R112). -/
def mask (v : Block) (n : BitVec 5) : Block := v &&& (BitVec.allOnes 128 <<< (128 - 8 * n.toNat))

/-- `8n`, the bits a block of `n` bytes counts (rule R71). -/
def bitsOf (n : BitVec 5) : BitCount := BitVec.ofNat 64 (8 * n.toNat)

/-- Whether a count is short of a whole block (rules R37, R119-R121). -/
def isShort (n : BitVec 5) : Bool := decide (n.toNat < 16)

/-- The pre-counter block `NONCE || 0x00000001` (rule R110). -/
def preCounter (nonce : Nonce) : Block := (nonce ++ 0x00000001#32).cast rfl

/-- `inc32(C)`: the low 32 bits plus one, wrapping; the upper 96 unchanged (rule R111). -/
def inc32 (c : Block) : Block :=
  (c.extractLsb' 32 96 ++ (c.extractLsb' 0 32 + 1#32)).cast rfl

/-- `lenblock(a, c)`: the two bit counts side by side (rule R113). -/
def lenBlock (a c : BitCount) : Block := (a ++ c).cast rfl

/-- The OR of the differences of bytes 0 to `k - 1` (rule R114). -/
def byteDiffs (a b : Block) : Nat → Byte
  | 0 => 0#8
  | k + 1 => byteDiffs a b k ||| (byteOf a k ^^^ byteOf b k)

/-- `ct_eq(a, b)`: all sixteen byte differences are combined before the decision (rule R114). -/
def ctEq (a b : Block) : Bool := decide (byteDiffs a b 16 = 0#8)

end Sys2Proof.Machine
end

