-- ==== Sys2Proof/Machine/Ops.lean ====
section
/-! DEFINITION. The operations the commands share: completion, completion with an error (the core's only exception, which
has no handler: 60_exceptions.md rules R150, R160), the order of the checks, acceptance by the session state, scrub,
session start, the keystream and the GHASH absorption. -/
namespace Sys2Proof.Machine

/-- The completion of the command word `w` with the outcome `e`: CMD_LAST, ERRCODE, DONE and BUSY (30_encoding.md
rule R77, 60_exceptions.md rule R153). -/
def finish (w : Word) (e : ErrCode) (s : State) : State :=
  { s with cmdLast := w, errcode := e, done := true, pend := none }

/-- Scrub: the session secrets and PARTIAL become 0; SESS and everything else stay (42_gcm.md rule R115). -/
def scrub (s : State) : State :=
  { s with
    skey := 0#128, h := 0#128, j0 := 0#128, ctr := 0#128, x := 0#128
    lenA := 0#64, lenC := 0#64, rem := 0#64, partialBlk := false }

/-- Which session states accept a command (42_gcm.md rule R116). -/
def accepted (i : Instr) (sess : Sess) (partialBlk : Bool) : Bool :=
  match i with
  | .aesEnc => true
  | .gfMul => true
  | .tagCmp => true
  | .zeroize => true
  | .gcmInitEnc => true
  | .gcmInitDec => true
  | .gcmAad _ => (decide (sess = .encAad) || decide (sess = .decAad)) && !partialBlk
  | .gcmEnc _ => decide (sess = .encAad) || (decide (sess = .encText) && !partialBlk)
  | .gcmDecAuth _ => decide (sess = .decAad) || (decide (sess = .decAuth) && !partialBlk)
  | .gcmFinal =>
    decide (sess = .encAad) || decide (sess = .encText) || decide (sess = .decAad) || decide (sess = .decAuth)
  | .gcmDec _ => decide (sess = .decRelease)
  | .gcmAbort => true
  | .nonceInit => true
  | .nonceGen => true
  | .nonceValidate => true

/-- The outcome of a command whose OP and RSVD are legal: the checks of rule R152 from ERR_NBYTES on, `own` being the
command's own last check. -/
def outcomeOf (i : Instr) (own : Option ErrCode) (s : State) : ErrCode :=
  if i.wellFormed then
    if accepted i s.sess s.partialBlk then own.getD .ok else .sequence
  else .nbytes

/-- The command `i` in the state `s`, with the effect `t` when every check passes and no effect but its completion when
one fails (rules R77, R153). -/
def perform (i : Instr) (own : Option ErrCode) (s t : State) : Result :=
  if outcomeOf i own s = .ok then .next (finish (encode i) .ok t)
  else .next (finish (encode i) (outcomeOf i own s) s)

/-- The start of a session in the state `sess`: the running one is scrubbed, KEY and NONCE are latched (42_gcm.md rules
R117, R118). -/
def startSession (sess : Sess) (s : State) : State :=
  { scrub s with
    skey := s.key, h := aes s.key 0#128, j0 := preCounter s.nonce, ctr := preCounter s.nonce
    tagOk := false, sess := sess }

/-- A block XORed with the keystream of the counter block `c`, cut to `n` bytes (42_gcm.md rules R120, R123). -/
def cryptBlock (k c b : Block) (n : BitVec 5) : Block := mask (b ^^^ aes k c) n

/-- The tag of the session so far (42_gcm.md rule R122). -/
def sessionTag (s : State) : Block :=
  ghashStep s.x (lenBlock s.lenA s.lenC) s.h ^^^ aes s.skey s.j0

end Sys2Proof.Machine
end

