-- ==== Sys2Proof/Machine/NonceManager.lean ====
section
/-! DEFINITION. The monotonic nonce manager (43_nonce.md rules R140-R146). -/
namespace Sys2Proof.Machine

/-- NONCE_INIT (rule R141). -/
def execNonceInit (s : State) : Result :=
  perform .nonceInit none s
    { s with txc := 0#32, rxhw := 0#32, nexh := false, nvalid := false, nres := 0#32 }

/-- The check of NONCE_GEN: the nonce space is exhausted (rules R142, R146). -/
def exhaustedError (s : State) : Option ErrCode := if s.nexh then some .exhausted else none

/-- NONCE_GEN: TXC is emitted into NRES and NONCE bytes 8 to 11, then incremented; emitting 0xFFFFFFFF sets NEXH
(rules R142, R144). -/
def execNonceGen (s : State) : Result :=
  perform .nonceGen (exhaustedError s) s
    { s with
      nres := s.txc
      nonce := setNonceWord s.nonce 2 s.txc
      nexh := if s.txc = 0xFFFFFFFF#32 then true else s.nexh
      txc := s.txc + 1#32 }

/-- NONCE_VALIDATE: a strictly greater value is accepted and becomes RXHW (rule R143). -/
def execNonceValidate (s : State) : Result :=
  perform .nonceValidate none s
    (if s.rxhw < s.nval then { s with rxhw := s.nval, nvalid := true } else { s with nvalid := false })

end Sys2Proof.Machine
end

