-- ==== Sys2Proof/Machine/Primitives.lean ====
section
/-! DEFINITION. The raw commands and the erasing one: AES_ENC, GF_MUL, TAG_CMP, ZEROIZE (40_aes.md rule R94, 41_gf_ghash.md
rule R105, 42_gcm.md rules R125, R126). -/
namespace Sys2Proof.Machine

/-- AES_ENC: `DOUT <- AES(KEY, DIN)` (rule R94). -/
def execAesEnc (s : State) : Result :=
  perform .aesEnc none s { s with dout := aes s.key s.din }

/-- GF_MUL: `DOUT <- GFMUL(DIN, AUX)` (rule R105). -/
def execGfMul (s : State) : Result :=
  perform .gfMul none s { s with dout := gfMul s.din s.aux }

/-- TAG_CMP: `TAG_OK <- ct_eq(DIN, TAGIN)` (rule R125). -/
def execTagCmp (s : State) : Result :=
  perform .tagCmp none s { s with tagOk := ctEq s.din s.tagin }

/-- The writes of ZEROIZE: KEY and every data register 0, the session scrubbed, SESS = IDLE, TAG_OK = 0. NONCE, NVAL, NRES, TXC,
RXHW, NEXH, NVALID, IRQ_EN and CMD_LAST are unchanged by them (rule R126). -/
def zeroizeWrites (s : State) : State :=
  { scrub s with
    key := 0#128, din := 0#128, aux := 0#128, tagin := 0#128, dout := 0#128
    sess := .idle, tagOk := false }

/-- ZEROIZE: its writes (rule R126), and the completion every command has, in which CMD_LAST, ERRCODE, DONE and BUSY are
written (30_encoding.md rule R77; log entry 6). -/
def execZeroize (s : State) : Result :=
  perform .zeroize none s (zeroizeWrites s)

end Sys2Proof.Machine
end

