-- ==== Sys2Proof/Machine/Session.lean ====
section
/-! DEFINITION. The GCM session commands (42_gcm.md rules R116-R124). -/
namespace Sys2Proof.Machine

/-- GCM_INIT_ENC (rule R117). -/
def execGcmInitEnc (s : State) : Result :=
  perform .gcmInitEnc none s (startSession .encAad s)

/-- GCM_INIT_DEC (rule R118). -/
def execGcmInitDec (s : State) : Result :=
  perform .gcmInitDec none s (startSession .decAad s)

/-- GCM_AAD n: one block of associated data is absorbed (rule R119). -/
def execGcmAad (n : BitVec 5) (s : State) : Result :=
  perform (.gcmAad n) none s
    { s with
      x := ghashStep s.x (mask s.din n) s.h
      lenA := s.lenA + bitsOf n
      partialBlk := isShort n }

/-- GCM_ENC n: one plaintext block is encrypted and its ciphertext absorbed (rule R120). -/
def execGcmEnc (n : BitVec 5) (s : State) : Result :=
  perform (.gcmEnc n) none s
    { s with
      ctr := inc32 s.ctr
      dout := cryptBlock s.skey (inc32 s.ctr) s.din n
      x := ghashStep s.x (cryptBlock s.skey (inc32 s.ctr) s.din n) s.h
      lenC := s.lenC + bitsOf n
      sess := .encText
      partialBlk := isShort n }

/-- GCM_DEC_AUTH n: one ciphertext block is absorbed and nothing released (rule R121). -/
def execGcmDecAuth (n : BitVec 5) (s : State) : Result :=
  perform (.gcmDecAuth n) none s
    { s with
      x := ghashStep s.x (mask s.din n) s.h
      lenC := s.lenC + bitsOf n
      sess := .decAuth
      partialBlk := isShort n }

/-- The effect of GCM_FINAL in an encryption session: the tag in DOUT, the session over (rule R122). -/
def finalEnc (s : State) : State :=
  { scrub s with dout := sessionTag s, sess := .done }

/-- The effect of GCM_FINAL in a decryption session: the tag is compared, never shown; a match with ciphertext opens pass 2,
a match without ends the session, a mismatch rejects it (rule R122). -/
def finalDec (s : State) : State :=
  if ctEq (sessionTag s) s.tagin then
    if s.lenC = 0#64 then
      { scrub s with tagOk := true, dout := 0#128, sess := .done }
    else
      { s with
        tagOk := true, dout := 0#128
        rem := s.lenC, ctr := s.j0
        h := 0#128, x := 0#128, lenA := 0#64, lenC := 0#64, partialBlk := false
        sess := .decRelease }
  else { scrub s with tagOk := false, dout := 0#128, sess := .rejected }

/-- GCM_FINAL (rule R122). -/
def execGcmFinal (s : State) : Result :=
  perform .gcmFinal none s
    (if s.sess = .encAad ∨ s.sess = .encText then finalEnc s else finalDec s)

/-- The length check of GCM_DEC: no more than pass 1 authenticated, and a short block only at the end (rule R123). -/
def releaseError (n : BitVec 5) (s : State) : Option ErrCode :=
  if s.rem < bitsOf n ∨ (n.toNat < 16 ∧ bitsOf n ≠ s.rem) then some .length else none

/-- One plaintext block released: the keystream of the next counter block, and REM less the block (rule R123). -/
def releaseBlock (n : BitVec 5) (s : State) : State :=
  { s with
    ctr := inc32 s.ctr
    dout := cryptBlock s.skey (inc32 s.ctr) s.din n
    rem := s.rem - bitsOf n }

/-- GCM_DEC n: one plaintext block is released; the last one ends the session (rule R123). -/
def execGcmDec (n : BitVec 5) (s : State) : Result :=
  perform (.gcmDec n) (releaseError n s) s
    (if (releaseBlock n s).rem = 0#64 then { scrub (releaseBlock n s) with sess := .done }
    else releaseBlock n s)

/-- GCM_ABORT (rule R124). -/
def execGcmAbort (s : State) : Result :=
  perform .gcmAbort none s { scrub s with sess := .idle, dout := 0#128, tagOk := false }

end Sys2Proof.Machine
end

