-- ==== Sys2Proof/Machine/Dispatch.lean ====
section
/-! DEFINITION. One arm per command: the meaning of each. -/
namespace Sys2Proof.Machine

def exec (i : Instr) (s : State) : Host.Outcome State Fault Refusal :=
  match i with
  | .aesEnc => Sys2Proof.Machine.execAesEnc s
  | .gfMul => Sys2Proof.Machine.execGfMul s
  | .tagCmp => Sys2Proof.Machine.execTagCmp s
  | .zeroize => Sys2Proof.Machine.execZeroize s
  | .gcmInitEnc => Sys2Proof.Machine.execGcmInitEnc s
  | .gcmInitDec => Sys2Proof.Machine.execGcmInitDec s
  | .gcmAad n => Sys2Proof.Machine.execGcmAad n s
  | .gcmEnc n => Sys2Proof.Machine.execGcmEnc n s
  | .gcmDecAuth n => Sys2Proof.Machine.execGcmDecAuth n s
  | .gcmFinal => Sys2Proof.Machine.execGcmFinal s
  | .gcmDec n => Sys2Proof.Machine.execGcmDec n s
  | .gcmAbort => Sys2Proof.Machine.execGcmAbort s
  | .nonceInit => Sys2Proof.Machine.execNonceInit s
  | .nonceGen => Sys2Proof.Machine.execNonceGen s
  | .nonceValidate => Sys2Proof.Machine.execNonceValidate s

end Sys2Proof.Machine
end

