-- ==== Sys2Proof/Machine/Engine.lean ====
section
/-! DEFINITION. The command engine and one clock cycle of the core (30_encoding.md rule R77; 60_exceptions.md rule R159;
70_reset_and_hazards.md rules R170, R171, R182). -/
namespace Sys2Proof.Machine

/-- The completion of a command word: the decoded command's meaning, or the error the decoder names and no other effect
(rules R73, R77, R153). -/
def runWord (w : Word) (s : State) : Result :=
  match decode w with
  | .ok i => exec i s
  | .error e => .next (finish w e s)

/-- The engine's part of one cycle, `p` being the command that was pending when the cycle began: its last cycle completes
it, any other counts down (rule R182). It acts after the host's access of the cycle, so a completion wins over a
write that clears DONE (rule R159; log entry 3). -/
def engineCycle (p : Option Pending) (s : State) : Result :=
  match p with
  | none => .next s
  | some p =>
    if p.left ≤ 1 then runWord p.word s
    else .next { s with pend := some { word := p.word, left := p.left - 1 } }

/-- All cycles up to the pending command's completion, without a host access (rules R64, R184). -/
def complete (s : State) : Result :=
  match s.pend with
  | none => .next s
  | some p => runWord p.word s

/-- One cycle in which the host makes the access `a`; a sub-word access is refused (rule R52). -/
def accessCycle (a : Access) (s : State) : Result :=
  match a.width with
  | .word => engineCycle s.pend (busOp a.off a.op s)
  | .byte => .refused .subWordAccess
  | .half => .refused .subWordAccess

/-- One cycle of a host that polls STATUS: a read of STATUS, and the same again next if bit 0 (BUSY) of the value read
is 1 (rules R64, R76). -/
def pollCycle (s : State) : Result :=
  engineCycle s.pend
    (busOp 0x04#8 .read (if (readReg .status s).getLsbD 0 then { s with host := .poll :: s.host } else s))

/-- One cycle in which `rst` is asserted: reset wins over the engine and over the host's access (rule R171). -/
def resetCycle (a : Option Access) (s : State) : Result :=
  match a with
  | none => .next (applyReset s)
  | some a =>
    match a.width with
    | .word => .next (reply (replyInReset a.op s.replies.length) (applyReset s))
    | .byte => .refused .subWordAccess
    | .half => .refused .subWordAccess

/-- One event of the host's list, already taken off it. -/
def hostEvent (e : HostEvent) (s : State) : Result :=
  match e with
  | .idle => engineCycle s.pend s
  | .wait => complete s
  | .poll => pollCycle s
  | .bus a => accessCycle a s
  | .reset a => resetCycle a s

/-- One step: the host's next event; when the host's list is empty, the completion of what is pending, and nothing at all
when nothing is (rules R165, R184). -/
def stepOnce (s : State) : Result :=
  match s.host with
  | [] => complete s
  | e :: rest => hostEvent e { s with host := rest }

/-- The command word of `nbits` bits pending, the bits above zero, to complete in the very next step: the host only waits.
The host's list is otherwise as it was (log entry 5). -/
def withPendingWord (s : State) (nbits w : Nat) : State :=
  { s with
    pend := some { word := BitVec.ofNat 32 (w % 2 ^ nbits), left := 1 }
    host := .wait :: s.host }

end Sys2Proof.Machine
end

