-- ==== Sys2Proof/Machine/Step.lean ====
section
/-! DEFINITION. The step of the core, and the placing of one command word for it. -/
namespace Sys2Proof.Machine

/-- One step of the core and its host. -/
def step (s : State) : Host.Outcome State Fault Refusal := stepOnce s

/-- `s` with the command word `w` where the engine takes its next command, in PEND (rule R41), and the host waiting for it. -/
def State.withFetchWord (s : State) (nbits w : Nat) : State := withPendingWord s nbits w

end Sys2Proof.Machine
end

