-- ==== Sys2Proof/Safety.lean ====
section
/-! DEFINITION. What counts as a safe run, the invariant of the core, and the words the statements about it are made of. -/
namespace Sys2Proof.Safety

open Sys2Proof.Machine

/-- A step that answers a next state: neither a fault nor a refusal. -/
def Steps (s : State) : Prop := ∃ t, step s = .next t

/-- An event the core answers: every access in it is 32 bits wide (20_memory.md rule R52). -/
def wordEvent : HostEvent → Bool
  | .idle => true
  | .wait => true
  | .poll => true
  | .bus a => decide (a.width = .word)
  | .reset none => true
  | .reset (some a) => decide (a.width = .word)

/-- The host still makes 32-bit accesses only (rules R52, R185). -/
def WordHost (s : State) : Prop := ∀ e ∈ s.host, wordEvent e = true

/-- A session is over (42_gcm.md rule R130). -/
def Ended (s : State) : Prop := s.sess = .idle ∨ s.sess = .done ∨ s.sess = .rejected

/-- A session still absorbs blocks: it is neither over nor in pass 2 (42_gcm.md rule R116). -/
def Absorbing (s : State) : Prop :=
  s.sess = .encAad ∨ s.sess = .encText ∨ s.sess = .decAad ∨ s.sess = .decAuth

/-- Every session secret and length is 0, and PARTIAL too (42_gcm.md rule R115). -/
def Scrubbed (s : State) : Prop :=
  s.skey = 0#128 ∧ s.h = 0#128 ∧ s.j0 = 0#128 ∧ s.ctr = 0#128 ∧ s.x = 0#128 ∧
    s.lenA = 0#64 ∧ s.lenC = 0#64 ∧ s.rem = 0#64 ∧ s.partialBlk = false

/-- The invariant of the core: what every step keeps. -/
structure Inv (s : State) : Prop where
  /-- a session that is over has left no secret (rule R130) -/
  ended : Ended s → Scrubbed s
  /-- while a session absorbs, H is the hash subkey of its key (rules R95, R104) -/
  subkey : Absorbing s → s.h = aes s.skey 0#128
  /-- while a session runs, J0 is a pre-counter block and CTR differs from it in the low word only (rules R110, R111) -/
  counter : ¬ Ended s →
    s.j0.extractLsb' 0 32 = 1#32 ∧ s.ctr.extractLsb' 32 96 = s.j0.extractLsb' 32 96
  /-- before the first text block the counter stands at J0, and in pass 1 too (rules R117, R121) -/
  unused : s.sess = .encAad ∨ s.sess = .decAad ∨ s.sess = .decAuth → s.ctr = s.j0
  /-- before the first text block no ciphertext is counted (rule R117) -/
  noText : s.sess = .encAad ∨ s.sess = .decAad → s.lenC = 0#64
  /-- pass 2 has ciphertext left to release, and the hash state is gone (rule R122) -/
  release : s.sess = .decRelease →
    s.rem ≠ 0#64 ∧ s.h = 0#128 ∧ s.x = 0#128 ∧ s.lenA = 0#64 ∧ s.lenC = 0#64 ∧ s.partialBlk = false
  /-- only pass 2 has anything left to release (rule R35) -/
  noRem : s.sess ≠ .decRelease → s.rem = 0#64
  /-- the lengths count whole bytes (rule R71) -/
  wholeBytes : s.lenA.extractLsb' 0 3 = 0#3 ∧ s.lenC.extractLsb' 0 3 = 0#3 ∧ s.rem.extractLsb' 0 3 = 0#3
  /-- after the last nonce value the counter has wrapped to 0 (rule R142) -/
  exhausted : s.nexh = true → s.txc = 0#32
  /-- a pending command has at least one cycle to go (rule R182) -/
  cycles : ∀ p, s.pend = some p → 1 ≤ p.left

/-- The command that completes in this step, if one does: PEND's, in its last cycle, or whenever the host waits for it
or has nothing more to do, and unless `rst` discards it (rules R171, R182). -/
def completing (s : State) : Option Word :=
  match s.pend with
  | none => none
  | some p =>
    match s.host with
    | [] => some p.word
    | .wait :: _ => some p.word
    | .idle :: _ => if p.left ≤ 1 then some p.word else none
    | .poll :: _ => if p.left ≤ 1 then some p.word else none
    | .bus a :: _ => if p.left ≤ 1 ∧ a.width = .word then some p.word else none
    | .reset _ :: _ => none

/-- The host asserts `rst` in this step. -/
def resetting (s : State) : Prop := ∃ a rest, s.host = .reset a :: rest

/-- The host writes the register at `off` in this step. -/
def writing (s : State) (off : BitVec 8) : Prop :=
  ∃ v rest, s.host = .bus { width := .word, off := off, op := .write v } :: rest

/-- A word with the command's OP and RSVD not 0 is rejected as reserved, and one with RSVD = 0 and a count the command does
not take as ERR_NBYTES (30_encoding.md rules R73, R77). -/
def RejectsBadFields (i : Instr) : Prop :=
  ∀ w, opOf w = i.opcode →
    (rsvdOf w ≠ 0#19 → decode w = .error .reserved) ∧
      (rsvdOf w = 0#19 → i.allowsCount (nbytesOf w) = false → decode w = .error .nbytes)

/-- The command `i` completes from `s` with the error `e` and no other effect (60_exceptions.md rule R153). -/
def FailsWith (i : Instr) (e : ErrCode) (s : State) : Prop :=
  exec i s = .next { s with cmdLast := encode i, errcode := e, done := true, pend := none }

/-- Two states the host cannot tell apart by reading the window: they agree on everything but KEY and the hidden session
registers (20_memory.md rule R55, 10_state.md rule R35). -/
def SameVisible (s t : State) : Prop :=
  ∃ (key skey h j0 ctr x : Block) (lenA lenC rem : BitCount),
    t = { s with
          key := key, skey := skey, h := h, j0 := j0, ctr := ctr, x := x
          lenA := lenA, lenC := lenC, rem := rem }

/-- One block of a message as a command takes it: the value written to DIN, and its count. -/
abbrev Chunk := Block × BitVec 5

/-- The chunks the commands accept one after another: whole blocks, and a short one at most at the end
(42_gcm.md rule R116). -/
def chunksOk : List Chunk → Bool
  | [] => true
  | [c] => legalCount c.2
  | c :: cs => decide (c.2 = 16#5) && chunksOk cs

/-- The bits of a message in chunks. -/
def chunkBits (cs : List Chunk) : BitCount := (cs.map fun c => bitsOf c.2).sum

/-- The ciphertext chunks of plaintext chunks under the key `k`, `c` being the counter block before the first
(42_gcm.md rule R127). -/
def ctrChunks (k : Block) : Block → List Chunk → List Chunk
  | _, [] => []
  | c, p :: ps => (mask (p.1 ^^^ aes k (inc32 c)) p.2, p.2) :: ctrChunks k (inc32 c) ps

/-- The source's tag of associated data and ciphertext, in chunks (42_gcm.md rule R127). -/
def gcmTag (k : Block) (n : Nonce) (as cs : List Chunk) : Block :=
  ghash (aes k 0#128)
      (as.map (fun c => mask c.1 c.2) ++ cs.map (fun c => mask c.1 c.2) ++
        [lenBlock (chunkBits as) (chunkBits cs)]) ^^^
    aes k (preCounter n)

/-- Issue the block command `mk n` for every chunk in order, DIN holding the chunk, and collect DOUT after each. The answer
is `none` when a command completes with an error. -/
def runChunks (mk : BitVec 5 → Instr) : List Chunk → State → Option (State × List Block)
  | [], s => some (s, [])
  | c :: cs, s =>
    match exec (mk c.2) { s with din := c.1 } with
    | .next t =>
      if t.errcode = .ok then (runChunks mk cs t).map fun r => (r.1, t.dout :: r.2) else none
    | .fault _ => none
    | .refused _ => none

/-- Issue one command; `none` when it completes with an error. -/
def runOne (i : Instr) (s : State) : Option State :=
  match exec i s with
  | .next t => if t.errcode = .ok then some t else none
  | .fault _ => none
  | .refused _ => none

/-- Issue NONCE_GEN `n` times and collect the values emitted; `none` when one fails. -/
def genTimes : Nat → State → Option (State × List Word)
  | 0, s => some (s, [])
  | n + 1, s => (genTimes n s).bind fun r => (runOne .nonceGen r.1).map fun t => (t, r.2 ++ [t.nres])

/-- The next step completes the command word `w`, whose command is `i`. -/
def About (i : Instr) (s : State) : Prop := ∃ w, completing s = some w ∧ decode w = .ok i

end Sys2Proof.Safety
end

