-- ==== Sys2Proof/Certificates/Slice0/Obligations.lean ====
section
/-! DEFINITION. The statements about the core, each from numbered rules of spec/, for the provers. -/

open Sys2Proof Sys2Proof.Machine Sys2Proof.Safety

/-! ## Command words -/

/-- The words of rules R70, R72 and R75, written out, decode to the commands they stand for. A sanity statement. -/
def Obligations.SpecWordsDecode : Prop :=
  decode 0x00000001#32 = .ok .aesEnc ∧ decode 0x00000002#32 = .ok .gfMul ∧
  decode 0x00000003#32 = .ok .tagCmp ∧ decode 0x00000004#32 = .ok .zeroize ∧
  decode 0x00000010#32 = .ok .gcmInitEnc ∧ decode 0x00000011#32 = .ok .gcmInitDec ∧
  decode 0x00001012#32 = .ok (.gcmAad 16#5) ∧ decode 0x00000C13#32 = .ok (.gcmEnc 12#5) ∧
  decode 0x00000114#32 = .ok (.gcmDecAuth 1#5) ∧ decode 0x00000015#32 = .ok .gcmFinal ∧
  decode 0x00000116#32 = .ok (.gcmDec 1#5) ∧ decode 0x00000017#32 = .ok .gcmAbort ∧
  decode 0x00000020#32 = .ok .nonceInit ∧ decode 0x00000021#32 = .ok .nonceGen ∧
  decode 0x00000022#32 = .ok .nonceValidate

/-- Every well-formed command is what its own word decodes to: no bit of an encoding is dropped (rules R70-R72, R75). -/
def Obligations.DecodeOfEncode : Prop :=
  ∀ i : Instr, i.wellFormed = true → decode (encode i) = .ok i

/-- Every word that decodes is the word of a well-formed command: each word has one meaning (rules R70-R72, R74). -/
def Obligations.EncodeOfDecode : Prop :=
  ∀ (w : Word) (i : Instr), decode w = .ok i → encode i = w ∧ i.wellFormed = true

/-- Rule R73: an illegal OP, a reserved bit set and an illegal count complete with ERR_ILLEGAL, ERR_RESERVED and ERR_NBYTES
and no other effect than the completion; every other word is a command with the word's OP and NBYTES. -/
def Obligations.ReservedWordsRejected : Prop :=
  ∀ (w : Word) (s : State),
    let ops : List (BitVec 8) :=
      [0x01#8, 0x02#8, 0x03#8, 0x04#8, 0x10#8, 0x11#8, 0x12#8, 0x13#8, 0x14#8, 0x15#8, 0x16#8, 0x17#8,
       0x20#8, 0x21#8, 0x22#8]
    let blockOps : List (BitVec 8) := [0x12#8, 0x13#8, 0x14#8, 0x16#8]
    let op := w.extractLsb' 0 8
    let n := (w.extractLsb' 8 5).toNat
    let countOk : Prop := (op ∈ blockOps ∧ 1 ≤ n ∧ n ≤ 16) ∨ (op ∉ blockOps ∧ n = 0)
    let ends (e : ErrCode) : Prop :=
      runWord w s = .next { s with cmdLast := w, errcode := e, done := true, pend := none }
    (op ∉ ops → ends .illegal) ∧
    (op ∈ ops → w.extractLsb' 13 19 ≠ 0#19 → ends .reserved) ∧
    (op ∈ ops → w.extractLsb' 13 19 = 0#19 → ¬ countOk → ends .nbytes) ∧
    (op ∈ ops → w.extractLsb' 13 19 = 0#19 → countOk →
      ∃ i : Instr, decode w = .ok i ∧ i.opcode = op ∧ i.count.toNat = n ∧ runWord w s = exec i s)

/-- Rule R152: ERR_ILLEGAL, then ERR_RESERVED, then ERR_NBYTES (rule R73's statement), then ERR_SEQUENCE, then the command's
own check; with the rule's own examples. -/
def Obligations.ErrorPriority : Prop :=
  (∀ (i : Instr) (s : State), i.wellFormed = false → FailsWith i .nbytes s) ∧
  (∀ (i : Instr) (s : State), i.wellFormed = true → accepted i s.sess s.partialBlk = false →
    FailsWith i .sequence s) ∧
  (∀ (i : Instr) (s : State), i.wellFormed = true → accepted i s.sess s.partialBlk = true →
    ∃ t, exec i s = .next t ∧
      (t.errcode = .ok ∨ (i = .nonceGen ∧ t.errcode = .exhausted) ∨
        ((∃ n, i = .gcmDec n) ∧ t.errcode = .length))) ∧
  (∀ w, instrOf (opOf w) (nbytesOf w) = none → decode w = .error .illegal) ∧
  (∀ w, instrOf (opOf w) (nbytesOf w) ≠ none → rsvdOf w ≠ 0#19 → decode w = .error .reserved) ∧
  decode 0x00002000#32 = .error .illegal ∧ decode 0x00002001#32 = .error .reserved ∧
  decode 0x00000012#32 = .error .nbytes ∧
  (∀ s : State, s.sess = .decAuth → FailsWith (.gcmDec 8#5) .sequence s)

/-- Rule R153, for every word, rejected by the decoder or not: a completion with an error changes CMD_LAST, ERRCODE, DONE
and BUSY and nothing else. -/
def Obligations.ErroredCommandOnlyCompletes : Prop :=
  ∀ (w : Word) (s t : State), runWord w s = .next t → t.errcode ≠ .ok →
    t = { s with cmdLast := w, errcode := t.errcode, done := true, pend := none }

/-- Rule R151's table: the codes, and which words and states report each; every completion writes one. -/
def Obligations.OutcomeCodes : Prop :=
  (errBits .ok = 0#4 ∧ errBits .illegal = 1#4 ∧ errBits .reserved = 2#4 ∧ errBits .nbytes = 3#4 ∧
    errBits .sequence = 4#4 ∧ errBits .exhausted = 5#4 ∧ errBits .length = 6#4) ∧
  ∀ (w : Word) (s t : State), runWord w s = .next t →
    (t.errcode = .illegal ↔ decode w = .error .illegal) ∧
    (t.errcode = .reserved ↔ decode w = .error .reserved) ∧
    (t.errcode = .nbytes ↔ decode w = .error .nbytes) ∧
    (t.errcode = .sequence ↔ ∃ i, decode w = .ok i ∧ accepted i s.sess s.partialBlk = false) ∧
    (t.errcode = .sequence →
      (∃ n, decode w = .ok (.gcmAad n) ∨ decode w = .ok (.gcmEnc n) ∨ decode w = .ok (.gcmDecAuth n) ∨
        decode w = .ok (.gcmDec n)) ∨ decode w = .ok .gcmFinal) ∧
    (t.errcode = .exhausted ↔ decode w = .ok .nonceGen ∧ s.nexh = true) ∧
    (t.errcode = .length ↔ ∃ n, decode w = .ok (.gcmDec n) ∧ s.sess = .decRelease ∧
      (s.rem < BitVec.ofNat 64 (8 * n.toNat) ∨
        (n.toNat < 16 ∧ BitVec.ofNat 64 (8 * n.toNat) ≠ s.rem))) ∧
    t.cmdLast = w ∧ t.done = true ∧ t.pend = none

/-- Rule R154: a tag mismatch, an unequal comparison and a refused nonce complete with ERRCODE = OK. -/
def Obligations.NegativeResultsAreOk : Prop :=
  (∀ s : State, (s.sess = .decAad ∨ s.sess = .decAuth) → sessionTag s ≠ s.tagin →
    ∃ t, exec .gcmFinal s = .next t ∧ t.errcode = .ok ∧ t.tagOk = false ∧ t.sess = .rejected) ∧
  (∀ s : State, s.din ≠ s.tagin →
    ∃ t, exec .tagCmp s = .next t ∧ t.errcode = .ok ∧ t.tagOk = false) ∧
  (∀ s : State, s.nval.toNat ≤ s.rxhw.toNat →
    ∃ t, exec .nonceValidate s = .next t ∧ t.errcode = .ok ∧ t.nvalid = false)

/-! ## Steps -/

/-- A step runs the decoded command: whenever the pending word decodes to `i`, the step in which it completes is `exec i` at
that state, the host's event taken off its list (a poll, which then reads BUSY = 1, stays on it: rule R76) and its access of that cycle
performed first. That order is the model's reading (log entry 3, DEDUCED); that a wait and an empty host list pass all cycles to
the completion in one step is the model's choice (log entry 13, DESIGN CHOICE). A word placed by `withFetchWord`, which stands for
a CMD write (log entry 5, DESIGN CHOICE), is run by the very next step. -/
def Obligations.StepRunsDecodedCommand : Prop :=
  (∀ (s : State) (p : Pending) (i : Instr), s.pend = some p → decode p.word = .ok i →
    (s.host = [] → step s = exec i s) ∧
    (∀ rest, s.host = .wait :: rest → step s = exec i { s with host := rest }) ∧
    (∀ rest, p.left ≤ 1 → s.host = .idle :: rest → step s = exec i { s with host := rest }) ∧
    (∀ rest, p.left ≤ 1 → s.host = .poll :: rest → step s = exec i (busOp 0x04#8 .read s)) ∧
    (∀ rest off op, p.left ≤ 1 → s.host = .bus { width := .word, off := off, op := op } :: rest →
      step s = exec i (busOp off op { s with host := rest }))) ∧
  (∀ (s : State) (nbits w : Nat) (i : Instr), decodeTableWord nbits w = some i →
    step (s.withFetchWord nbits w) =
      exec i { s with pend := some { word := BitVec.ofNat 32 (w % 2 ^ nbits), left := 1 } })

/-- A cycle in which nothing completes: the host's access is performed and a pending command is one cycle nearer; with
nothing pending and nothing to do the core holds its state; a poll reads STATUS and stays on the host's list while BUSY = 1
(rules R63, R76, R165, R182). The events idle, wait and poll, and the empty list, are the model's own (log entries 2 and 13, DESIGN
CHOICE). -/
def Obligations.CyclesBeforeCompletion : Prop :=
  ∀ s : State,
    (s.pend = none → s.host = [] → step s = .next s) ∧
    (∀ rest, s.pend = none → (s.host = .idle :: rest ∨ s.host = .wait :: rest) →
      step s = .next { s with host := rest }) ∧
    (∀ rest, s.pend = none → s.host = .poll :: rest → step s = .next (busOp 0x04#8 .read { s with host := rest })) ∧
    (∀ rest off op, s.pend = none → s.host = .bus { width := .word, off := off, op := op } :: rest →
      step s = .next (busOp off op { s with host := rest })) ∧
    (∀ rest p, s.pend = some p → 1 < p.left → s.host = .idle :: rest →
      step s = .next { s with host := rest, pend := some { word := p.word, left := p.left - 1 } }) ∧
    (∀ rest p, s.pend = some p → 1 < p.left → s.host = .poll :: rest →
      step s = .next { busOp 0x04#8 .read s with pend := some { word := p.word, left := p.left - 1 } }) ∧
    (∀ rest p off op, s.pend = some p → 1 < p.left →
      s.host = .bus { width := .word, off := off, op := op } :: rest →
      step s = .next { busOp off op { s with host := rest } with
        pend := some { word := p.word, left := p.left - 1 } })

/-- A CMD write while not busy issues the word, which is in CMD_LAST after its completion, errored or not; a CMD read returns
CMD_LAST and has no side effect; a CMD write while busy is dropped and leaves CMD_LAST (rules R31, R61, R77). That CMD_LAST is
written at the completion and not at the issue is the model's reading of rules R61 and R77, against rule R31's own words "stores
it in CMD_LAST": log entry 6, DEDUCED. -/
def Obligations.CommandIssue : Prop :=
  (∀ (s : State) (w : Word), s.pend = none →
    busOp 0x00#8 (.write w) s =
      { s with
        pend := some { word := w, left := latency (opOf w) }
        replies := s.replies ++ [.writeDone .ok] }) ∧
  (∀ (s t : State) (w : Word), runWord w s = .next t → t.cmdLast = w) ∧
  (∀ s : State, busOp 0x00#8 .read s = { s with replies := s.replies ++ [.readDone s.cmdLast .ok] }) ∧
  (∀ (s : State) (w : Word), s.busy = true → (busOp 0x00#8 (.write w) s).cmdLast = s.cmdLast) ∧
  State.reset.cmdLast = 0#32

/-- Rule R182: a command completes LAT(op) ≥ 1 cycles after the cycle of its CMD write, LAT being a function of OP alone;
until then nothing but the countdown changes. -/
def Obligations.LatencyCountsDown : Prop :=
  ∀ (s : State) (w : Word) (rest : List HostEvent),
    let lat := latency (w.extractLsb' 0 8)
    let sent (left : Nat) (host : List HostEvent) : State :=
      { s with
        pend := some { word := w, left := left }
        host := host
        replies := s.replies ++ [.writeDone .ok] }
    s.pend = none →
    s.host = .bus { width := .word, off := 0x00#8, op := .write w } :: (List.replicate lat .idle ++ rest) →
    1 ≤ lat ∧
    (∀ op op' : BitVec 8, instrOf op 0#5 = none → instrOf op' 0#5 = none → latency op = latency op') ∧
    (∀ k, k < lat →
      Sys2Proof.core.run (k + 1) s = .next (sent (lat - k) (List.replicate (lat - k) .idle ++ rest))) ∧
    Sys2Proof.core.run (lat + 1) s = runWord w (sent 1 rest)

/-! ## The register window -/

/-- Rules R53 and R54: a misaligned access and an access to a reserved offset (0x3C, 0x80-0xFC) change no state; a read returns
0 and the response is an error. -/
def Obligations.MisalignedAndReserved : Prop :=
  ∀ (off : BitVec 8) (s : State),
    (off.extractLsb' 0 2 ≠ 0#2 ∨ off = 0x3C#8 ∨ 0x80 ≤ off.toNat) →
    busOp off .read s = { s with replies := s.replies ++ [.readDone 0#32 .error] } ∧
    ∀ v, busOp off (.write v) s = { s with replies := s.replies ++ [.writeDone .error] }

/-- Rule R55: writes to ID, NRES, TXCNT, RXHW and DOUT are refused with an error response; KEY reads as 0 with an ordinary
response; every other access to a listed offset gets an ordinary response, but for the writes rule R60 drops. -/
def Obligations.ReadOnlyAndWriteOnly : Prop :=
  ∀ (off : BitVec 8) (s : State),
    (off ∈ [0x0C#8, 0x10#8, 0x18#8, 0x1C#8, 0x70#8, 0x74#8, 0x78#8, 0x7C#8] →
      ∀ v, busOp off (.write v) s = { s with replies := s.replies ++ [.writeDone .error] }) ∧
    (off ∈ [0x20#8, 0x24#8, 0x28#8, 0x2C#8] →
      busOp off .read s = { s with replies := s.replies ++ [.readDone 0#32 .ok] }) ∧
    (off.extractLsb' 0 2 = 0#2 → off.toNat < 0x80 → off ≠ 0x3C#8 →
      (∃ v, (busOp off .read s).replies = s.replies ++ [.readDone v .ok]) ∧
      (off ∉ [0x0C#8, 0x10#8, 0x18#8, 0x1C#8, 0x70#8, 0x74#8, 0x78#8, 0x7C#8] →
        (s.busy = false ∨ off = 0x04#8 ∨ off = 0x08#8) → ∀ v, (busOp off (.write v) s).replies = s.replies ++ [.writeDone .ok]))

/-- Rule R56: word i of a 128-bit register, at offset b + 4i, is its bits 127-32i to 96-32i; a write of it replaces those bits
and leaves the other 96; byte 4i + j of the register is byte j of the word. -/
def Obligations.BlockWordLayout : Prop :=
  (∀ (r : Block) (i j : Fin 4) (v : Word),
    wordOf (setWord r i v) j = (if j = i then v else wordOf r j) ∧
    byteOf (setWord r i v) (4 * i.val + j.val) = byteOfWord v j.val ∧
    wordOf r i = r.extractLsb' (96 - 32 * i.val) 32) ∧
  (∀ (i : Fin 4) (s : State) (v : Word), s.pend = none →
    let at' (b : Nat) : BitVec 8 := BitVec.ofNat 8 (b + 4 * i.val)
    let ok : List Reply := s.replies ++ [.writeDone .ok]
    busOp (at' 0x20) (.write v) s = { s with key := setWord s.key i v, replies := ok } ∧
    busOp (at' 0x40) (.write v) s = { s with din := setWord s.din i v, replies := ok } ∧
    busOp (at' 0x50) (.write v) s = { s with aux := setWord s.aux i v, replies := ok } ∧
    busOp (at' 0x60) (.write v) s = { s with tagin := setWord s.tagin i v, replies := ok }) ∧
  (∀ (i : Fin 4) (s : State),
    let at' (b : Nat) : BitVec 8 := BitVec.ofNat 8 (b + 4 * i.val)
    let got (v : Word) : State := { s with replies := s.replies ++ [.readDone v .ok] }
    busOp (at' 0x40) .read s = got (wordOf s.din i) ∧ busOp (at' 0x50) .read s = got (wordOf s.aux i) ∧
    busOp (at' 0x60) .read s = got (wordOf s.tagin i) ∧ busOp (at' 0x70) .read s = got (wordOf s.dout i)) ∧
  setWord (setWord (setWord (setWord 0#128 0 0x2b7e1516#32) 1 0x28aed2a6#32) 2 0xabf71588#32) 3 0x09cf4f3c#32 =
    0x2b7e151628aed2a6abf7158809cf4f3c#128

/-- Rule R57: word i of NONCE, at offset 0x30 + 4i, is its bits 95-32i to 64-32i; the 32-bit registers read as plain integers, and
NVAL is written as one. -/
def Obligations.NonceAndWordRegisters : Prop :=
  (∀ (r : Nonce) (i j : Fin 3) (v : Word),
    nonceWord (setNonceWord r i v) j = (if j = i then v else nonceWord r j) ∧
    nonceWord r i = r.extractLsb' (64 - 32 * i.val) 32) ∧
  (∀ (i : Fin 3) (s : State),
    busOp (BitVec.ofNat 8 (0x30 + 4 * i.val)) .read s =
      { s with replies := s.replies ++ [.readDone (nonceWord s.nonce i) .ok] }) ∧
  (∀ (i : Fin 3) (s : State) (v : Word), s.pend = none →
    busOp (BitVec.ofNat 8 (0x30 + 4 * i.val)) (.write v) s =
      { s with nonce := setNonceWord s.nonce i v, replies := s.replies ++ [.writeDone .ok] }) ∧
  (∀ s : State,
    let got (v : Word) : State := { s with replies := s.replies ++ [.readDone v .ok] }
    busOp 0x00#8 .read s = got s.cmdLast ∧ busOp 0x04#8 .read s = got (statusWord s) ∧
    busOp 0x08#8 .read s = got (irqEnWord s) ∧ busOp 0x0C#8 .read s = got 0x41470001#32 ∧
    busOp 0x10#8 .read s = got s.nres ∧ busOp 0x14#8 .read s = got s.nval ∧
    busOp 0x18#8 .read s = got s.txc ∧ busOp 0x1C#8 .read s = got s.rxhw) ∧
  (∀ (s : State) (v : Word), s.pend = none →
    busOp 0x14#8 (.write v) s = { s with nval := v, replies := s.replies ++ [.writeDone .ok] })

/-- The reads' half of rule R59: a read of any offset changes nothing but the host's own replies, so reading twice returns the
same value twice. -/
def Obligations.ReadsHaveNoEffect : Prop :=
  ∀ (off : BitVec 8) (s : State), ∃ v r,
    busOp off .read s = { s with replies := s.replies ++ [.readDone v r] } ∧
    busOp off .read (busOp off .read s) =
      { s with replies := s.replies ++ [.readDone v r] ++ [.readDone v r] }

/-- Rule R60: while busy, a write to CMD, KEY, NONCE, DIN, AUX, TAGIN or NVAL is dropped, sets OVERRUN and gets an error response;
writes to STATUS and IRQ_EN are performed. -/
def Obligations.BusyWrites : Prop :=
  ∀ (off : BitVec 8) (s : State) (v : Word), s.busy = true →
    (off ∈ [0x00#8, 0x14#8, 0x20#8, 0x24#8, 0x28#8, 0x2C#8, 0x30#8, 0x34#8, 0x38#8, 0x40#8, 0x44#8, 0x48#8, 0x4C#8,
        0x50#8, 0x54#8, 0x58#8, 0x5C#8, 0x60#8, 0x64#8, 0x68#8, 0x6C#8] →
      busOp off (.write v) s = { s with overrun := true, replies := s.replies ++ [.writeDone .error] }) ∧
    busOp 0x04#8 (.write v) s =
      { s with
        done := s.done && !v.getLsbD 1, overrun := s.overrun && !v.getLsbD 5
        replies := s.replies ++ [.writeDone .ok] } ∧
    busOp 0x08#8 (.write v) s =
      { s with doneIe := v.getLsbD 0, replies := s.replies ++ [.writeDone .ok] }

/-- Rule R61: a read while BUSY = 1, whatever is pending, returns the register's value from before the command was issued, and STATUS differs from then only in BUSY. -/
def Obligations.BusyReads : Prop :=
  ∀ (s : State) (p : Pending) (off : BitVec 8), s.pend = none →
    let during : State := { s with pend := some p }
    let read (u : State) (v : Word) (r : Resp) : Prop :=
      busOp off .read u = { u with replies := u.replies ++ [.readDone v r] }
    (off ≠ 0x04#8 → ∃ v r, read s v r ∧ read during v r) ∧
    (off = 0x04#8 → ∃ v, v.getLsbD 0 = false ∧ read s v .ok ∧ read during (v ||| 1#32) .ok)

/-- Rules R32, R34 and R36: the fields of STATUS bit by bit, the codes of SESS, a STATUS write, the bits of IRQ_EN, and an IRQ_EN
write, busy or not: bit 0 of the written word is DONE_IE and the rest is ignored. -/
def Obligations.StatusLayout : Prop :=
  (∀ s : State,
    (statusWord s).getLsbD 0 = s.busy ∧ (statusWord s).getLsbD 1 = s.done ∧
    (statusWord s).getLsbD 2 = s.tagOk ∧ (statusWord s).getLsbD 3 = s.nvalid ∧
    (statusWord s).getLsbD 4 = s.nexh ∧ (statusWord s).getLsbD 5 = s.overrun ∧
    (statusWord s).extractLsb' 6 2 = 0#2 ∧ (statusWord s).extractLsb' 8 4 = errBits s.errcode ∧
    (statusWord s).extractLsb' 12 4 = 0#4 ∧ (statusWord s).extractLsb' 16 3 = sessBits s.sess ∧
    (statusWord s).getLsbD 19 = s.partialBlk ∧ (statusWord s).extractLsb' 20 12 = 0#12) ∧
  (sessBits .idle = 0#3 ∧ sessBits .encAad = 1#3 ∧ sessBits .encText = 2#3 ∧ sessBits .decAad = 3#3 ∧
    sessBits .decAuth = 4#3 ∧ sessBits .decRelease = 5#3 ∧ sessBits .done = 6#3 ∧ sessBits .rejected = 7#3) ∧
  (∀ (s : State) (v : Word),
    busOp 0x04#8 (.write v) s =
      { s with
        done := s.done && !v.getLsbD 1, overrun := s.overrun && !v.getLsbD 5
        replies := s.replies ++ [.writeDone .ok] }) ∧
  (∀ s : State, (irqEnWord s).getLsbD 0 = s.doneIe ∧ (irqEnWord s).extractLsb' 1 31 = 0#31 ∧
    busOp 0x08#8 .read s = { s with replies := s.replies ++ [.readDone (irqEnWord s) .ok] }) ∧
  (∀ (s : State) (v : Word),
    busOp 0x08#8 (.write v) s = { s with doneIe := v.getLsbD 0, replies := s.replies ++ [.writeDone .ok] })

/-- The model's answer to rule R52's "a model refuses such an access": an 8-bit or 16-bit access is refused by name, in a cycle of
reset too. -/
def Obligations.SubWordRefused : Prop :=
  ∀ (s : State) (a : Access) (rest : List HostEvent), (a.width = .byte ∨ a.width = .half) →
    (s.host = .bus a :: rest ∨ s.host = .reset (some a) :: rest) → step s = .refused .subWordAccess

/-- A register the host writes and cannot read back: two states that differ in KEY and the hidden session registers only give the
same answer to every read and the same interrupt level (rules R21, R35, R55, R161). -/
def Obligations.SecretsUnreadable : Prop :=
  ∀ (s t : State) (off : BitVec 8), SameVisible s t →
    ∃ v r, busOp off .read s = { s with replies := s.replies ++ [.readDone v r] } ∧
      busOp off .read t = { t with replies := t.replies ++ [.readDone v r] } ∧ irq s = irq t

/-! ## Reset and the interrupt -/

/-- Rule R172: the whole state after reset, by the reset step as well as at the start, whatever was there before; STATUS then reads
0 and ID reads 0x41470001. The host's own list and replies go on. -/
def Obligations.ResetState : Prop :=
  (∀ (s : State) (rest : List HostEvent), s.host = .reset none :: rest →
    step s = .next
      { key := 0#128, nonce := 0#96, din := 0#128, aux := 0#128, tagin := 0#128, dout := 0#128
        nval := 0#32, nres := 0#32, txc := 0#32, rxhw := 0#32, cmdLast := 0#32
        done := false, tagOk := false, nvalid := false, nexh := false, overrun := false, errcode := .ok
        doneIe := false, skey := 0#128, h := 0#128, j0 := 0#128, ctr := 0#128, x := 0#128
        lenA := 0#64, lenC := 0#64, rem := 0#64, sess := .idle, partialBlk := false, pend := none
        host := rest, replies := s.replies }) ∧
  step { State.reset with host := [.reset none] } = .next State.reset ∧
  readReg .status State.reset = 0x00000000#32 ∧ readReg .id State.reset = 0x41470001#32 ∧
  irq State.reset = false

/-- Rule R171: a reset discards the pending command, and wins over a host access of the same cycle; no completion is reported.
That the host's access gets exactly one reply is the model's choice (log entry 4, DESIGN CHOICE): rules R170 and R184 leave open
what such an access does. What that reply says is free, so the statement names no value for it. -/
def Obligations.ResetWins : Prop :=
  ∀ (s : State) (a : Option Access) (rest : List HostEvent),
    s.host = .reset a :: rest → (∀ b, a = some b → b.width = .word) →
    ∃ answers : List Reply, answers.length = (if a.isSome then 1 else 0) ∧
      step s = .next { State.reset with host := rest, replies := s.replies ++ answers }

/-- Rules R157 and R158: irq is DONE and DONE_IE; every completion raises it if it is enabled; clearing DONE_IE lowers it and keeps
DONE; a STATUS write with bit 1 lowers it; setting DONE_IE while DONE = 1 raises it; a STATUS read leaves it; an issue
leaves DONE. -/
def Obligations.InterruptOutput : Prop :=
  (∀ s : State, irq s = (s.done && s.doneIe)) ∧
  (∀ (w : Word) (s t : State), runWord w s = .next t → t.done = true ∧ irq t = s.doneIe) ∧
  (∀ (s : State) (v : Word),
    (busOp 0x08#8 (.write v) s).done = s.done ∧
    (v.getLsbD 0 = false → irq (busOp 0x08#8 (.write v) s) = false) ∧
    (v.getLsbD 0 = true → irq (busOp 0x08#8 (.write v) s) = s.done) ∧
    (v.getLsbD 1 = true → (busOp 0x04#8 (.write v) s).done = false ∧ irq (busOp 0x04#8 (.write v) s) = false) ∧
    irq (busOp 0x04#8 .read s) = irq s ∧ (busOp 0x04#8 .read s).done = s.done ∧
    (busOp 0x00#8 (.write v) s).done = s.done)

/-- A STATUS write that clears DONE in the cycle of a completion loses to it; a reset in that cycle, with a STATUS write, with any
other access or with none, wins over both and leaves the reset state (rules R159, R171). That an access of a reset cycle gets
exactly one reply is the model's choice (log entry 4, DESIGN CHOICE): rules R170 and R184 leave open what such an access does. What
that reply says is free. -/
def Obligations.CompletionWins : Prop :=
  ∀ (s : State) (p : Pending) (rest : List HostEvent), s.pend = some p →
    (∀ v, p.left ≤ 1 → s.host = .bus { width := .word, off := 0x04#8, op := .write v } :: rest →
      ∃ t, step s = .next t ∧ t.done = true ∧ t.pend = none ∧ t.cmdLast = p.word) ∧
    (∀ a : Option Access, s.host = .reset a :: rest → (∀ b, a = some b → b.width = .word) →
      ∃ answers : List Reply, answers.length = (if a.isSome then 1 else 0) ∧
        step s = .next { State.reset with host := rest, replies := s.replies ++ answers })

/-- Rule R156: OVERRUN is set by every host write dropped while busy (one of a register whose writes rule R60 drops), whose command
is neither issued nor queued, and by nothing else; it is cleared by a STATUS write with bit 5 or by reset and by nothing else; a
completion leaves it. That a write in the very cycle of a completion is still one while busy, and so is dropped, is the model's
reading (log entry 3, DEDUCED). -/
def Obligations.OverrunSetAndCleared : Prop :=
  (∀ (w : Word) (s t : State), runWord w s = .next t → t.overrun = s.overrun) ∧
  (∀ (off : BitVec 8) (r : Reg) (v : Word) (s : State),
    s.busy = true → regAt off = some r → writeKind r = .whenIdle →
    (busOp off (.write v) s).overrun = true ∧ (busOp off (.write v) s).pend = s.pend) ∧
  (∀ (v : Word) (s : State), v.getLsbD 5 = true → (busOp 0x04#8 (.write v) s).overrun = false) ∧
  ∀ s t : State, step s = .next t →
    (resetting s → t.overrun = false) ∧
    (s.busy = true → (∃ off r, writing s off ∧ regAt off = some r ∧ writeKind r = .whenIdle) →
      t.overrun = true) ∧
    (s.overrun = false → t.overrun = true →
      s.busy = true ∧ ∃ off r, writing s off ∧ regAt off = some r ∧ writeKind r = .whenIdle) ∧
    (s.overrun = true → t.overrun = false →
      resetting s ∨ ∃ v rest, v.getLsbD 5 = true ∧
        s.host = .bus { width := .word, off := 0x04#8, op := .write v } :: rest)

/-! ## The primitives and their commands -/

/-- Rules R83 and R84: xtime and the GF(2^8) product as the sum of its partial products, with its laws and examples. -/
def Obligations.ByteField : Prop :=
  (∀ b : Byte, xtime b = (b <<< 1) ^^^ (if b.getLsbD 7 then 0x1B#8 else 0x00#8)) ∧
  xtime 0x57#8 = 0xAE#8 ∧ xtime 0x80#8 = 0x1B#8 ∧
  (∀ a b : Byte, mul8 a b =
    (List.range 8).foldl (fun acc i => if b.getLsbD i then acc ^^^ (xtime^[i]) a else acc) 0#8) ∧
  (∀ a b : Byte, mul8 a b = mul8 b a) ∧ (∀ a : Byte, mul8 a 0x01#8 = a) ∧ (∀ a : Byte, mul8 a 0x00#8 = 0#8) ∧
  mul8 0x57#8 0x83#8 = 0xC1#8 ∧ mul8 0x57#8 0x13#8 = 0xFE#8

/-- Rule R85: the S-box table of rule R86 is the affine map of the inverse in GF(2^8), bit by bit, and a bijection. -/
def Obligations.SboxIsAffineOfInverse : Prop :=
  (∀ (b : Byte) (i : Fin 8), (affine b).getLsbD i.val =
    (b.getLsbD i.val ^^ b.getLsbD ((i.val + 4) % 8) ^^ b.getLsbD ((i.val + 5) % 8) ^^
      b.getLsbD ((i.val + 6) % 8) ^^ b.getLsbD ((i.val + 7) % 8) ^^ (0x63#8).getLsbD i.val)) ∧
  sbox 0#8 = affine 0#8 ∧
  (∀ a : Byte, a ≠ 0#8 → ∃ b : Byte, mul8 a b = 0x01#8 ∧ sbox a = affine b) ∧
  Function.Bijective sbox

/-- Rules R87, R88 and R89 on the state array `s[r][c]`, byte r + 4c of the block (rule R81), with their examples. -/
def Obligations.RoundTransformations : Prop :=
  (∀ (v : Block) (r c : Fin 4),
    let s (r c : Nat) : Byte := byteOf v (r + 4 * c)
    let out (u : Block) : Byte := byteOf u (r.val + 4 * c.val)
    out (subBytes v) = sbox (s r c) ∧
    out (shiftRows v) = s r ((c.val + r.val) % 4) ∧
    (r = 0 → out (mixColumns v) = mul8 0x02#8 (s 0 c) ^^^ mul8 0x03#8 (s 1 c) ^^^ s 2 c ^^^ s 3 c) ∧
    (r = 1 → out (mixColumns v) = s 0 c ^^^ mul8 0x02#8 (s 1 c) ^^^ mul8 0x03#8 (s 2 c) ^^^ s 3 c) ∧
    (r = 2 → out (mixColumns v) = s 0 c ^^^ s 1 c ^^^ mul8 0x02#8 (s 2 c) ^^^ mul8 0x03#8 (s 3 c)) ∧
    (r = 3 → out (mixColumns v) = mul8 0x03#8 (s 0 c) ^^^ s 1 c ^^^ s 2 c ^^^ mul8 0x02#8 (s 3 c))) ∧
  subBytes 0x193de3bea0f4e22b9ac68d2ae9f84808#128 = 0xd42711aee0bf98f1b8b45de51e415230#128 ∧
  shiftRows 0xd42711aee0bf98f1b8b45de51e415230#128 = 0xd4bf5d30e0b452aeb84111f11e2798e5#128 ∧
  mixColumns 0xdb135345f20a225c01010101c6c6c6c6#128 = 0x8e4da1bc9fdc589d01010101c6c6c6c6#128 ∧
  mixColumns 0xd4d4d4d52d26314cd4d4d4d52d26314c#128 = 0xd5d5d7d64d7ebdf8d5d5d7d64d7ebdf8#128

/-- Rule R92: the 44 words of the key schedule meet the recurrence, word i being word i mod 4 of round key i / 4; with the rule's
example. -/
def Obligations.KeySchedule : Prop :=
  (∀ k : Block,
    let w (i : Nat) : Word := wordOf (roundKey k (i / 4)) (Fin.ofNat 4 (i % 4))
    (∀ i : Fin 4, w i.val = k.extractLsb' (96 - 32 * i.val) 32) ∧
    (∀ i, 4 ≤ i → i < 44 → i % 4 = 0 →
      w i = w (i - 4) ^^^ (subWord (rotWord (w (i - 1))) ^^^ ((xtime^[i / 4 - 1]) 0x01#8 ++ 0#24 : Word))) ∧
    (∀ i, 4 ≤ i → i < 44 → i % 4 ≠ 0 → w i = w (i - 4) ^^^ w (i - 1)) ∧
    (∀ j, roundKey k j = (w (4 * j) ++ w (4 * j + 1) ++ w (4 * j + 2) ++ w (4 * j + 3) : Block))) ∧
  (∀ (u : Word), rotWord u = (u.extractLsb' 0 24 ++ u.extractLsb' 24 8 : Word) ∧
    ∀ j : Fin 4, byteOfWord (subWord u) j.val = sbox (byteOfWord u j.val)) ∧
  roundKey 0x2b7e151628aed2a6abf7158809cf4f3c#128 1 = 0xa0fafe1788542cb123a339392a6c7605#128 ∧
  roundKey 0x2b7e151628aed2a6abf7158809cf4f3c#128 10 = 0xd014f9a8c9ee2589e13f0cc8b6630ca6#128

/-- Rule R91: AES is the initial round-key XOR, nine full rounds and a final round without MixColumns, a permutation of the blocks
for each key. -/
def Obligations.CipherRounds : Prop :=
  (∀ k p : Block,
    let full (s : Block) (rnd : Nat) : Block := mixColumns (shiftRows (subBytes s)) ^^^ roundKey k rnd
    aes k p =
      shiftRows (subBytes ([1, 2, 3, 4, 5, 6, 7, 8, 9].foldl full (p ^^^ roundKey k 0))) ^^^ roundKey k 10) ∧
  (∀ k : Block, Function.Bijective (aes k))

/-- Rule R102: the laws of the product of GF(2^128), with the rule's examples. -/
def Obligations.GfLaws : Prop :=
  (∀ x y : Block, gfMul x y = gfMul y x) ∧
  (∀ x y z : Block, gfMul (gfMul x y) z = gfMul x (gfMul y z)) ∧
  (∀ x y z : Block, gfMul (x ^^^ y) z = gfMul x z ^^^ gfMul y z) ∧
  (∀ x y z : Block, gfMul x (y ^^^ z) = gfMul x y ^^^ gfMul x z) ∧
  (∀ x : Block, gfMul 0x80000000000000000000000000000000#128 x = x) ∧
  (∀ y : Block, gfMul 0#128 y = 0#128) ∧
  gfMul 0x40000000000000000000000000000000#128 0x40000000000000000000000000000000#128 =
    0x20000000000000000000000000000000#128 ∧
  gfMul 0x00000000000000000000000000000001#128 0x40000000000000000000000000000000#128 =
    0xE1000000000000000000000000000000#128 ∧
  gfMul 0x00000000000000000000000000000001#128 0x00000000000000000000000000000001#128 =
    0xe6080000000000000000000000000003#128

/-- Rules R110 to R115: the pre-counter block, inc32, the mask byte by byte, the length block, the comparator and scrub, with the
rules' examples. -/
def Obligations.BuildingBlocks : Prop :=
  (∀ n : Nonce, (preCounter n).extractLsb' 32 96 = n ∧ (preCounter n).extractLsb' 0 32 = 0x00000001#32) ∧
  preCounter 0xcafebabefacedbaddecaf888#96 = 0xcafebabefacedbaddecaf88800000001#128 ∧
  (∀ c : Block, (inc32 c).extractLsb' 32 96 = c.extractLsb' 32 96 ∧
    (inc32 c).extractLsb' 0 32 = c.extractLsb' 0 32 + 1#32) ∧
  inc32 0x000000000000000000000001ffffffff#128 = 0x00000000000000000000000100000000#128 ∧
  inc32 0xffffffffffffffffffffffffffffffff#128 = 0xffffffffffffffffffffffff00000000#128 ∧
  (∀ (v : Block) (n : BitVec 5) (i : Fin 16), 1 ≤ n.toNat → n.toNat ≤ 16 →
    byteOf (mask v n) i.val = if i.val < n.toNat then byteOf v i.val else 0#8) ∧
  (∀ v : Block, mask v 16#5 = v) ∧
  mask 0x00112233445566778899aabbccddeeff#128 5#5 = 0x00112233440000000000000000000000#128 ∧
  (∀ a c : BitCount, (lenBlock a c).extractLsb' 64 64 = a ∧ (lenBlock a c).extractLsb' 0 64 = c) ∧
  lenBlock 160#64 480#64 = 0x00000000000000a000000000000001e0#128 ∧
  (∀ a b : Block, ctEq a b = true ↔ a = b) ∧
  (∀ s : State, scrub s =
    { s with
      skey := 0#128, h := 0#128, j0 := 0#128, ctr := 0#128, x := 0#128
      lenA := 0#64, lenC := 0#64, rem := 0#64, partialBlk := false })

/-- Rule R94: AES_ENC in every state, its word, its errors and its examples. -/
def Obligations.AesEncResult : Prop :=
  decode 0x00000001#32 = .ok .aesEnc ∧ RejectsBadFields .aesEnc ∧
  (∀ s : State, exec .aesEnc s = .next
    { s with
      dout := aes s.key s.din
      cmdLast := 0x00000001#32, errcode := .ok, done := true, pend := none }) ∧
  aes 0#128 0#128 = 0x66e94bd4ef8a2c3b884cfa59ca342b2e#128 ∧
  aes 0x000102030405060708090a0b0c0d0e0f#128 0x00112233445566778899aabbccddeeff#128 =
    0x69c4e0d86a7b0430d8cdb78070b4c55a#128

/-- Rule R105: GF_MUL in every state, its word, its errors, its corner cases and its example. -/
def Obligations.GfMulResult : Prop :=
  decode 0x00000002#32 = .ok .gfMul ∧ RejectsBadFields .gfMul ∧
  (∀ s : State, exec .gfMul s = .next
    { s with
      dout := gfMul s.din s.aux
      cmdLast := 0x00000002#32, errcode := .ok, done := true, pend := none }) ∧
  (∀ x : Block, gfMul x 0#128 = 0#128 ∧ gfMul 0#128 x = 0#128 ∧
    gfMul x 0x80000000000000000000000000000000#128 = x) ∧
  gfMul 0x0388dace60b6a392f328c2b971b2fe78#128 0x66e94bd4ef8a2c3b884cfa59ca342b2e#128 =
    0x5e2ec746917062882c85b0685353deb7#128

/-- Rule R125: TAG_CMP in every state, its word, its errors and its example. -/
def Obligations.TagCmpResult : Prop :=
  decode 0x00000003#32 = .ok .tagCmp ∧ RejectsBadFields .tagCmp ∧
  (∀ s : State, exec .tagCmp s = .next
    { s with
      tagOk := decide (s.din = s.tagin)
      cmdLast := 0x00000003#32, errcode := .ok, done := true, pend := none }) ∧
  ctEq 0x0388dace60b6a392f328c2b971b2fe78#128 0x0388dace60b6a392f328c2b971b2fe79#128 = false

/-- ZEROIZE in every state (rule R126): KEY and every data register 0, the session scrubbed, SESS idle, TAG_OK 0, and NONCE, NVAL, the
nonce manager and IRQ_EN kept; with rule R126's example. The command's own writes leave CMD_LAST unchanged, as rule R126 says; its
completion then writes CMD_LAST, as rules R77 and R151 say of every command. That R126's "CMD_LAST are unchanged" speaks of the
command's own writes alone is the model's reading (log entry 6, DEDUCED). -/
def Obligations.ZeroizeResult : Prop :=
  decode 0x00000004#32 = .ok .zeroize ∧ RejectsBadFields .zeroize ∧
  (∀ s : State, exec .zeroize s = .next
    { s with
      key := 0#128, din := 0#128, aux := 0#128, tagin := 0#128, dout := 0#128
      skey := 0#128, h := 0#128, j0 := 0#128, ctr := 0#128, x := 0#128
      lenA := 0#64, lenC := 0#64, rem := 0#64, partialBlk := false
      sess := .idle, tagOk := false
      cmdLast := 0x00000004#32, errcode := .ok, done := true, pend := none }) ∧
  (∀ s : State, exec .zeroize s = .next (finish 0x00000004#32 .ok (zeroizeWrites s)) ∧
    (zeroizeWrites s).nonce = s.nonce ∧ (zeroizeWrites s).nval = s.nval ∧ (zeroizeWrites s).nres = s.nres ∧
    (zeroizeWrites s).txc = s.txc ∧ (zeroizeWrites s).rxhw = s.rxhw ∧ (zeroizeWrites s).nexh = s.nexh ∧
    (zeroizeWrites s).nvalid = s.nvalid ∧ (zeroizeWrites s).doneIe = s.doneIe ∧
    (zeroizeWrites s).cmdLast = s.cmdLast) ∧
  (∀ s : State, ∃ t u, exec .zeroize s = .next t ∧ exec .aesEnc t = .next u ∧
    u.dout = 0x66e94bd4ef8a2c3b884cfa59ca342b2e#128)

/-! ## The session commands -/

/-- Rules R117 and R118: a session starts in every state; KEY and NONCE are latched, the running session is scrubbed, DOUT stays; with
the example of rule R117. -/
def Obligations.GcmInitResults : Prop :=
  decode 0x00000010#32 = .ok .gcmInitEnc ∧ RejectsBadFields .gcmInitEnc ∧
  decode 0x00000011#32 = .ok .gcmInitDec ∧ RejectsBadFields .gcmInitDec ∧
  (∀ s : State,
    let j : Block := s.nonce ++ 0x00000001#32
    let started (sess : Sess) (w : Word) : State :=
      { s with
        skey := s.key, h := aes s.key 0#128, j0 := j, ctr := j, x := 0#128
        lenA := 0#64, lenC := 0#64, rem := 0#64, partialBlk := false
        tagOk := false, sess := sess
        cmdLast := w, errcode := .ok, done := true, pend := none }
    exec .gcmInitEnc s = .next (started .encAad 0x00000010#32) ∧
    exec .gcmInitDec s = .next (started .decAad 0x00000011#32)) ∧
  aes 0#128 0#128 = 0x66e94bd4ef8a2c3b884cfa59ca342b2e#128 ∧
  preCounter 0#96 = 0x00000000000000000000000000000001#128

/-- Rule R119: GCM_AAD n where it is accepted, where it is not, with an illegal count, its words, its errors and its example. -/
def Obligations.GcmAadResult : Prop :=
  RejectsBadFields (.gcmAad 16#5) ∧
  (∀ (n : BitVec 5) (s : State),
    (n.toNat = 0 ∨ 16 < n.toNat → FailsWith (.gcmAad n) .nbytes s) ∧
    (1 ≤ n.toNat → n.toNat ≤ 16 → decode (0x12#32 ||| (n.setWidth 32 <<< 8)) = .ok (.gcmAad n) ∧
      ((s.sess = .encAad ∨ s.sess = .decAad) → s.partialBlk = false →
        exec (.gcmAad n) s = .next
          { s with
            x := gfMul (s.x ^^^ mask s.din n) s.h
            lenA := s.lenA + BitVec.ofNat 64 (8 * n.toNat)
            partialBlk := decide (n.toNat < 16)
            cmdLast := 0x12#32 ||| (n.setWidth 32 <<< 8), errcode := .ok, done := true, pend := none }) ∧
      (¬((s.sess = .encAad ∨ s.sess = .decAad) ∧ s.partialBlk = false) →
        FailsWith (.gcmAad n) .sequence s))) ∧
  gfMul (0#128 ^^^ mask 0xfeedfacedeadbeeffeedfacedeadbeef#128 16#5)
      (aes 0xfeffe9928665731c6d6a8f9467308308#128 0#128) =
    0xed56aaf8a72d67049fdb9228edba1322#128

/-- Rule R120: GCM_ENC n where it is accepted, where it is not, with an illegal count, its words, its errors and its example. -/
def Obligations.GcmEncResult : Prop :=
  RejectsBadFields (.gcmEnc 16#5) ∧
  (∀ (n : BitVec 5) (s : State),
    (n.toNat = 0 ∨ 16 < n.toNat → FailsWith (.gcmEnc n) .nbytes s) ∧
    (1 ≤ n.toNat → n.toNat ≤ 16 → decode (0x13#32 ||| (n.setWidth 32 <<< 8)) = .ok (.gcmEnc n) ∧
      ((s.sess = .encAad ∨ (s.sess = .encText ∧ s.partialBlk = false)) →
        let c := mask (s.din ^^^ aes s.skey (inc32 s.ctr)) n
        exec (.gcmEnc n) s = .next
          { s with
            ctr := inc32 s.ctr
            dout := c
            x := gfMul (s.x ^^^ c) s.h
            lenC := s.lenC + BitVec.ofNat 64 (8 * n.toNat)
            sess := .encText
            partialBlk := decide (n.toNat < 16)
            cmdLast := 0x13#32 ||| (n.setWidth 32 <<< 8), errcode := .ok, done := true, pend := none }) ∧
      (¬(s.sess = .encAad ∨ (s.sess = .encText ∧ s.partialBlk = false)) →
        FailsWith (.gcmEnc n) .sequence s))) ∧
  mask (0#128 ^^^ aes 0#128 (inc32 (preCounter 0#96))) 16#5 = 0x0388dace60b6a392f328c2b971b2fe78#128

/-- Rule R121: GCM_DEC_AUTH n where it is accepted, where it is not, with an illegal count, its words, its errors and its example;
DOUT and CTR stay. -/
def Obligations.GcmDecAuthResult : Prop :=
  RejectsBadFields (.gcmDecAuth 16#5) ∧
  (∀ (n : BitVec 5) (s : State),
    (n.toNat = 0 ∨ 16 < n.toNat → FailsWith (.gcmDecAuth n) .nbytes s) ∧
    (1 ≤ n.toNat → n.toNat ≤ 16 → decode (0x14#32 ||| (n.setWidth 32 <<< 8)) = .ok (.gcmDecAuth n) ∧
      ((s.sess = .decAad ∨ (s.sess = .decAuth ∧ s.partialBlk = false)) →
        exec (.gcmDecAuth n) s = .next
          { s with
            x := gfMul (s.x ^^^ mask s.din n) s.h
            lenC := s.lenC + BitVec.ofNat 64 (8 * n.toNat)
            sess := .decAuth
            partialBlk := decide (n.toNat < 16)
            cmdLast := 0x14#32 ||| (n.setWidth 32 <<< 8), errcode := .ok, done := true, pend := none }) ∧
      (¬(s.sess = .decAad ∨ (s.sess = .decAuth ∧ s.partialBlk = false)) →
        FailsWith (.gcmDecAuth n) .sequence s))) ∧
  gfMul (0#128 ^^^ mask 0x0388dace60b6a392f328c2b971b2fe78#128 16#5) (aes 0#128 0#128) =
    0x5e2ec746917062882c85b0685353deb7#128

/-- Rule R122: GCM_FINAL in an encryption session, in a decryption session for each outcome of the comparison, and where it is not
accepted; its word, its errors and its example. -/
def Obligations.GcmFinalResult : Prop :=
  decode 0x00000015#32 = .ok .gcmFinal ∧ RejectsBadFields .gcmFinal ∧
  (∀ s : State,
    let lens : Block := s.lenA ++ s.lenC
    let tag : Block := gfMul (s.x ^^^ lens) s.h ^^^ aes s.skey s.j0
    let closed (tagOk : Bool) (dout : Block) (sess : Sess) : State :=
      { s with
        skey := 0#128, h := 0#128, j0 := 0#128, ctr := 0#128, x := 0#128
        lenA := 0#64, lenC := 0#64, rem := 0#64, partialBlk := false
        tagOk := tagOk, dout := dout, sess := sess
        cmdLast := 0x00000015#32, errcode := .ok, done := true, pend := none }
    ((s.sess = .encAad ∨ s.sess = .encText) → exec .gcmFinal s = .next (closed s.tagOk tag .done)) ∧
    ((s.sess = .decAad ∨ s.sess = .decAuth) →
      (tag ≠ s.tagin → exec .gcmFinal s = .next (closed false 0#128 .rejected)) ∧
      (tag = s.tagin → s.lenC = 0#64 → exec .gcmFinal s = .next (closed true 0#128 .done)) ∧
      (tag = s.tagin → s.lenC ≠ 0#64 → exec .gcmFinal s = .next
        { s with
          rem := s.lenC, ctr := s.j0
          h := 0#128, x := 0#128, lenA := 0#64, lenC := 0#64, partialBlk := false
          tagOk := true, dout := 0#128, sess := .decRelease
          cmdLast := 0x00000015#32, errcode := .ok, done := true, pend := none })) ∧
    ((s.sess = .idle ∨ s.sess = .decRelease ∨ s.sess = .done ∨ s.sess = .rejected) →
      FailsWith .gcmFinal .sequence s)) ∧
  gfMul (0#128 ^^^ lenBlock 0#64 0#64) (aes 0#128 0#128) ^^^ aes 0#128 (preCounter 0#96) =
    0x58e2fccefa7e3061367f1d57a4e7455a#128

/-- Rule R123: GCM_DEC n where the session and the length accept it, on the last block and before it, with a wrong length, and where
the session does not accept it; its words and its errors. -/
def Obligations.GcmDecResult : Prop :=
  RejectsBadFields (.gcmDec 16#5) ∧
  (∀ (n : BitVec 5) (s : State),
    (n.toNat = 0 ∨ 16 < n.toNat → FailsWith (.gcmDec n) .nbytes s) ∧
    (1 ≤ n.toNat → n.toNat ≤ 16 → decode (0x16#32 ||| (n.setWidth 32 <<< 8)) = .ok (.gcmDec n) ∧
      let bits : Nat := 8 * n.toNat
      let tooLong : Prop := s.rem.toNat < bits ∨ (n.toNat < 16 ∧ bits ≠ s.rem.toNat)
      let plain := mask (s.din ^^^ aes s.skey (inc32 s.ctr)) n
      (s.sess = .decRelease → tooLong → FailsWith (.gcmDec n) .length s) ∧
      (s.sess = .decRelease → ¬ tooLong → s.rem.toNat ≠ bits →
        exec (.gcmDec n) s = .next
          { s with
            ctr := inc32 s.ctr, dout := plain, rem := s.rem - BitVec.ofNat 64 bits
            cmdLast := 0x16#32 ||| (n.setWidth 32 <<< 8), errcode := .ok, done := true, pend := none }) ∧
      (s.sess = .decRelease → ¬ tooLong → s.rem.toNat = bits →
        exec (.gcmDec n) s = .next
          { s with
            dout := plain
            skey := 0#128, h := 0#128, j0 := 0#128, ctr := 0#128, x := 0#128
            lenA := 0#64, lenC := 0#64, rem := 0#64, partialBlk := false, sess := .done
            cmdLast := 0x16#32 ||| (n.setWidth 32 <<< 8), errcode := .ok, done := true, pend := none }) ∧
      (s.sess ≠ .decRelease → FailsWith (.gcmDec n) .sequence s)))

/-- Rule R124: GCM_ABORT in every state, its word and its errors. -/
def Obligations.GcmAbortResult : Prop :=
  decode 0x00000017#32 = .ok .gcmAbort ∧ RejectsBadFields .gcmAbort ∧
  (∀ s : State, exec .gcmAbort s = .next
    { s with
      skey := 0#128, h := 0#128, j0 := 0#128, ctr := 0#128, x := 0#128
      lenA := 0#64, lenC := 0#64, rem := 0#64, partialBlk := false
      sess := .idle, dout := 0#128, tagOk := false
      cmdLast := 0x00000017#32, errcode := .ok, done := true, pend := none })

/-- The acceptance table of rule R116, row by row: where a session command is accepted and the SESS it leaves, that it completes with
ERR_SEQUENCE and no other effect elsewhere, and that the other commands are accepted in every state. -/
def Obligations.AcceptanceTable : Prop :=
  ∀ (s : State) (n : BitVec 5), 1 ≤ n.toNat → n.toNat ≤ 16 →
    let leaves (i : Instr) (q : Sess → Prop) : Prop := ∃ t, exec i s = .next t ∧ t.errcode = .ok ∧ q t.sess
    let row (i : Instr) (acc : Prop) (q : Sess → Prop) : Prop :=
      (acc → leaves i q) ∧ (¬ acc → FailsWith i .sequence s)
    leaves .gcmInitEnc (· = .encAad) ∧ leaves .gcmInitDec (· = .decAad) ∧ leaves .gcmAbort (· = .idle) ∧
    row (.gcmAad n) ((s.sess = .encAad ∨ s.sess = .decAad) ∧ s.partialBlk = false) (· = s.sess) ∧
    row (.gcmEnc n) (s.sess = .encAad ∨ (s.sess = .encText ∧ s.partialBlk = false)) (· = .encText) ∧
    row (.gcmDecAuth n) (s.sess = .decAad ∨ (s.sess = .decAuth ∧ s.partialBlk = false)) (· = .decAuth) ∧
    row .gcmFinal (Absorbing s)
      (fun q => if s.sess = .encAad ∨ s.sess = .encText then q = .done
        else q = .decRelease ∨ q = .done ∨ q = .rejected) ∧
    (s.sess = .decRelease → ∃ t, exec (.gcmDec n) s = .next t ∧ t.errcode ≠ .sequence ∧
      (t.errcode = .ok → t.sess = .decRelease ∨ t.sess = .done)) ∧
    (s.sess ≠ .decRelease → FailsWith (.gcmDec n) .sequence s) ∧
    leaves .aesEnc (· = s.sess) ∧ leaves .gfMul (· = s.sess) ∧ leaves .tagCmp (· = s.sess) ∧
    leaves .zeroize (· = .idle) ∧ leaves .nonceInit (· = s.sess) ∧ leaves .nonceValidate (· = s.sess) ∧
    (∃ t, exec .nonceGen s = .next t ∧ t.errcode ≠ .sequence ∧ t.sess = s.sess)

/-! ## The nonce manager -/

/-- Rules R141, R142 and R143: the three nonce commands in every state, their words, their errors, and that NONCE_GEN fails when the
nonce space is exhausted. -/
def Obligations.NonceCommandResults : Prop :=
  decode 0x00000020#32 = .ok .nonceInit ∧ RejectsBadFields .nonceInit ∧
  decode 0x00000021#32 = .ok .nonceGen ∧ RejectsBadFields .nonceGen ∧
  decode 0x00000022#32 = .ok .nonceValidate ∧ RejectsBadFields .nonceValidate ∧
  (∀ s : State, exec .nonceInit s = .next
    { s with
      txc := 0#32, rxhw := 0#32, nexh := false, nvalid := false, nres := 0#32
      cmdLast := 0x00000020#32, errcode := .ok, done := true, pend := none }) ∧
  (∀ s : State, s.nexh = true → FailsWith .nonceGen .exhausted s) ∧
  (∀ s : State, s.nexh = false → exec .nonceGen s = .next
    { s with
      nres := s.txc
      nonce := (s.nonce.extractLsb' 32 64 ++ s.txc : Nonce)
      nexh := decide (s.txc = 0xFFFFFFFF#32)
      txc := s.txc + 1#32
      cmdLast := 0x00000021#32, errcode := .ok, done := true, pend := none }) ∧
  (∀ s : State, s.rxhw.toNat < s.nval.toNat → exec .nonceValidate s = .next
    { s with
      rxhw := s.nval, nvalid := true
      cmdLast := 0x00000022#32, errcode := .ok, done := true, pend := none }) ∧
  (∀ s : State, s.nval.toNat ≤ s.rxhw.toNat → exec .nonceValidate s = .next
    { s with
      nvalid := false
      cmdLast := 0x00000022#32, errcode := .ok, done := true, pend := none })

/-- Rule R145: after NONCE_INIT, N ≤ 2^32 calls of NONCE_GEN emit 0 to N-1 in order; a value validated twice is refused the second
time; 3 after 5 is refused; the values after the high-water mark, one by one, are accepted; 0 is never accepted. -/
def Obligations.NonceSequences : Prop :=
  (∀ (s : State) (n : Nat), n ≤ 2 ^ 32 → ∃ t u,
    runOne .nonceInit s = some t ∧ genTimes n t = some (u, (List.range n).map (BitVec.ofNat 32))) ∧
  (∀ (s t : State), runOne .nonceValidate s = some t →
    ∃ u, runOne .nonceValidate t = some u ∧ u.nvalid = false ∧ u.rxhw = t.rxhw) ∧
  (∀ (s t : State), runOne .nonceValidate { s with nval := 5#32 } = some t →
    ∃ u, runOne .nonceValidate { t with nval := 3#32 } = some u ∧ u.nvalid = false) ∧
  (∀ s : State, s.rxhw ≠ 0xFFFFFFFF#32 →
    ∃ t, runOne .nonceValidate { s with nval := s.rxhw + 1#32 } = some t ∧ t.nvalid = true ∧
      t.rxhw = s.rxhw + 1#32) ∧
  (∀ s : State, ∃ t, runOne .nonceValidate { s with nval := 0#32 } = some t ∧ t.nvalid = false)

/-- Rules R38 and R146: NEXH is set by the NONCE_GEN that emits 0xFFFFFFFF and by nothing else, NONCE_INIT and reset clear it and nothing
else does, and while it is set NONCE_GEN fails and changes no register of the nonce manager, nor NONCE (rules R60, R153). That
NONCE is unchanged over the step also when the host writes it in the very cycle of the completion, that write being dropped as one
while busy, is the model's reading (log entry 3, DEDUCED). -/
def Obligations.ExhaustionSticks : Prop :=
  ∀ s t : State, step s = .next t →
    (s.nexh = true → t.nexh = true ∨ resetting s ∨ About .nonceInit s) ∧
    (s.nexh = false → t.nexh = true → About .nonceGen s ∧ s.txc = 0xFFFFFFFF#32 ∧ t.nres = 0xFFFFFFFF#32) ∧
    (s.nexh = false → About .nonceGen s → s.txc = 0xFFFFFFFF#32 → t.nexh = true) ∧
    (About .nonceInit s → t.nexh = false) ∧ (resetting s → t.nexh = false) ∧
    (s.nexh = true → About .nonceGen s → t.errcode = .exhausted ∧ t.txc = s.txc ∧ t.nres = s.nres ∧
      t.nonce = s.nonce ∧ t.rxhw = s.rxhw)

/-! ## Whole-machine rules -/

/-- The invariant holds at reset. -/
def Obligations.InvAtReset : Prop := Inv State.reset

/-- Every step keeps the invariant: a session that is over has left no secret (rule R130), H, J0 and CTR are what the session needs
(rules R110, R111, R117), REM is 0 outside pass 2, and exhaustion goes with a wrapped counter (rule R142). -/
def Obligations.InvKept : Prop :=
  ∀ s t : State, Inv s → step s = .next t → Inv t

/-- Every run ends (rules R150, R184): while the host makes 32-bit accesses only, every step answers a next state, and some number of
steps uses up the host's events and leaves BUSY = 0; as many steps as events, and one more, if none is a poll. And every poll
ends (rule R76): it reads STATUS with BUSY = 1 in each of the pending command's cycles, the last of which completes the command,
and once more with BUSY = 0. Model's choices it rests on: the poll of the command's last cycle reads BUSY = 1 because the access of
a cycle goes before its completion (log entry 3, DEDUCED); a wait and the empty list pass all cycles to the completion in one step
and a poll reads once in every cycle, so the numbers of steps and of reads are the model's (log entry 13, DESIGN CHOICE). -/
def Obligations.RunsEnd : Prop :=
  (∀ s : State, WordHost s → ∃ t, step s = .next t ∧ WordHost t) ∧
  (∀ s : State, WordHost s → ∃ k t, Sys2Proof.core.run k s = .next t ∧ t.host = [] ∧ t.busy = false) ∧
  (∀ s : State, WordHost s → .poll ∉ s.host →
    ∃ t, Sys2Proof.core.run (s.host.length + 1) s = .next t ∧ t.host = [] ∧ t.busy = false) ∧
  (∀ (s : State) (p : Pending) (rest : List HostEvent), s.pend = some p → 1 ≤ p.left → s.host = .poll :: rest →
    let polled (k left : Nat) : State :=
      { s with
        pend := some { word := p.word, left := left }
        replies := s.replies ++ List.replicate k (.readDone (statusWord s) .ok) }
    (statusWord s).getLsbD 0 = true ∧
    (∀ k, k < p.left → Sys2Proof.core.run k s = .next (polled k (p.left - k))) ∧
    Sys2Proof.core.run p.left s = runWord p.word (polled p.left 1)) ∧
  (∀ (s : State) (rest : List HostEvent), s.pend = none → s.host = .poll :: rest →
    (statusWord s).getLsbD 0 = false ∧
    step s = .next { s with host := rest, replies := s.replies ++ [.readDone (statusWord s) .ok] })

/-- Who writes the key and the operand registers (rules R21 to R25, R27): the host, at its own offsets and not while busy, ZEROIZE,
NONCE_GEN for NONCE, and reset; nothing else. That a write in the very cycle of a completion is still one while busy, and so is
dropped, is the model's reading (log entry 3, DEDUCED). -/
def Obligations.OperandWriters : Prop :=
  ∀ s t : State, step s = .next t →
    let host (offs : List (BitVec 8)) : Prop := s.busy = false ∧ ∃ off, off ∈ offs ∧ writing s off
    (t.key ≠ s.key → resetting s ∨ About .zeroize s ∨ host [0x20#8, 0x24#8, 0x28#8, 0x2C#8]) ∧
    (t.nonce ≠ s.nonce → resetting s ∨ About .nonceGen s ∨ host [0x30#8, 0x34#8, 0x38#8]) ∧
    (t.din ≠ s.din → resetting s ∨ About .zeroize s ∨ host [0x40#8, 0x44#8, 0x48#8, 0x4C#8]) ∧
    (t.aux ≠ s.aux → resetting s ∨ About .zeroize s ∨ host [0x50#8, 0x54#8, 0x58#8, 0x5C#8]) ∧
    (t.tagin ≠ s.tagin → resetting s ∨ About .zeroize s ∨ host [0x60#8, 0x64#8, 0x68#8, 0x6C#8]) ∧
    (t.nval ≠ s.nval → resetting s ∨ host [0x14#8])

/-- Who writes the results (rules R26, R28, R29, R30, R44, R140): DOUT, TXC, RXHW, NRES, TAG_OK and NVALID change only by the commands
their rules name, or by reset; RXHW grows unless NONCE_INIT or reset sets it to 0. That RXHW becomes NVAL as it was before the step,
a write of NVAL in the very cycle of the completion being dropped as one while busy, is the model's reading (log entry 3, DEDUCED). -/
def Obligations.ResultWriters : Prop :=
  ∀ s t : State, step s = .next t →
    (t.dout ≠ s.dout → resetting s ∨ About .aesEnc s ∨ About .gfMul s ∨ About .gcmFinal s ∨
      About .gcmAbort s ∨ About .zeroize s ∨ ∃ n, About (.gcmEnc n) s ∨ About (.gcmDec n) s) ∧
    (t.txc ≠ s.txc → resetting s ∨ About .nonceInit s ∨ About .nonceGen s) ∧
    (t.nres ≠ s.nres → resetting s ∨ About .nonceInit s ∨ About .nonceGen s) ∧
    (t.rxhw ≠ s.rxhw → resetting s ∨ About .nonceInit s ∨
      (About .nonceValidate s ∧ t.rxhw = s.nval ∧ s.rxhw.toNat < t.rxhw.toNat)) ∧
    (t.tagOk ≠ s.tagOk → resetting s ∨ About .tagCmp s ∨ About .gcmFinal s ∨ About .gcmInitEnc s ∨
      About .gcmInitDec s ∨ About .gcmAbort s ∨ About .zeroize s) ∧
    (t.nvalid ≠ s.nvalid → resetting s ∨ About .nonceValidate s ∨ About .nonceInit s)

/-- Who writes the completion flags (rules R34, R41, R44, R61, R77, R158): a completion sets DONE, writes ERRCODE and CMD_LAST and ends
BUSY, and nothing but a completion or reset ends BUSY or changes ERRCODE or CMD_LAST; nothing but a completion sets DONE; BUSY
rises only by a CMD write, which puts its word in PEND, and PEND keeps that word while BUSY stays 1; DONE falls only by a STATUS
write with bit 1 or by reset; DONE_IE changes only by an IRQ_EN write or by reset. That a CMD write leaves CMD_LAST and the
completion writes it is the model's reading of rules R61 and R77 (log entry 6, DEDUCED); that a CMD write in the very cycle of a
completion is dropped, so that BUSY ends there, is the model's reading too (log entry 3, DEDUCED). -/
def Obligations.CompletionFlagWriters : Prop :=
  ∀ s t : State, step s = .next t →
    (∀ w, completing s = some w → t.cmdLast = w ∧ t.done = true ∧ t.busy = false) ∧
    (s.done = false → t.done = true → ∃ w, completing s = some w) ∧
    (s.done = true → t.done = false →
      resetting s ∨ ∃ v rest, v.getLsbD 1 = true ∧
        s.host = .bus { width := .word, off := 0x04#8, op := .write v } :: rest) ∧
    (t.errcode ≠ s.errcode ∨ t.cmdLast ≠ s.cmdLast → resetting s ∨ ∃ w, completing s = some w) ∧
    (s.busy = true → t.busy = false → resetting s ∨ ∃ w, completing s = some w) ∧
    (s.busy = false → t.busy = true →
      ∃ v rest, s.host = .bus { width := .word, off := 0x00#8, op := .write v } :: rest ∧
        t.pend = some { word := v, left := latency (opOf v) }) ∧
    (∀ p q, s.pend = some p → t.pend = some q → q.word = p.word) ∧
    (t.doneIe ≠ s.doneIe → resetting s ∨ writing s 0x08#8)

/-- Who changes a session (rules R35, R176, R178): the hidden registers, SESS and PARTIAL change only by a session command, by ZEROIZE
or by reset; no host access, and no other command, touches them. -/
def Obligations.SessionWriters : Prop :=
  ∀ s t : State, step s = .next t →
    let ofSession (i : Instr) : Prop :=
      i = .zeroize ∨ i = .gcmInitEnc ∨ i = .gcmInitDec ∨ i = .gcmFinal ∨ i = .gcmAbort ∨
        ∃ n, i = .gcmAad n ∨ i = .gcmEnc n ∨ i = .gcmDecAuth n ∨ i = .gcmDec n
    resetting s ∨ (∃ i, About i s ∧ ofSession i) ∨
      (t.skey = s.skey ∧ t.h = s.h ∧ t.j0 = s.j0 ∧ t.ctr = s.ctr ∧ t.x = s.x ∧ t.lenA = s.lenA ∧ t.lenC = s.lenC ∧
        t.rem = s.rem ∧ t.sess = s.sess ∧ t.partialBlk = s.partialBlk)

/-- Verify before release (rule R128): pass 2 opens only at a GCM_FINAL whose tag equals TAGIN in a decryption session, and a GCM_DEC
that is performed was in pass 2; after a rejection none is. That TAGIN here is what it was before the step, a write of it in the very
cycle of the completion being dropped as one while busy, is the model's reading (log entry 3, DEDUCED). -/
def Obligations.VerifyBeforeRelease : Prop :=
  (∀ s t : State, step s = .next t → s.sess ≠ .decRelease → t.sess = .decRelease →
    About .gcmFinal s ∧ (s.sess = .decAad ∨ s.sess = .decAuth) ∧ sessionTag s = s.tagin ∧ t.tagOk = true) ∧
  (∀ (n : BitVec 5) (s t : State), exec (.gcmDec n) s = .next t → t.errcode = .ok → s.sess = .decRelease) ∧
  (∀ (n : BitVec 5) (s : State), n.toNat ≠ 0 → n.toNat ≤ 16 → s.sess = .rejected →
    FailsWith (.gcmDec n) .sequence s)

/-- Counter use (rule R129): the j-th counter block of a session keeps the nonce and has 1 + j in its low word, and 2^32 steps lead
back to J0; the blocks GCM_ENC has encrypted are counted by CTR. -/
def Obligations.CounterUse : Prop :=
  (∀ (c : Block) (j : Nat), ((inc32^[j]) c).extractLsb' 32 96 = c.extractLsb' 32 96 ∧
    ((inc32^[j]) c).extractLsb' 0 32 = c.extractLsb' 0 32 + BitVec.ofNat 32 j) ∧
  (∀ n : Nonce, ((inc32^[2 ^ 32]) (preCounter n)) = preCounter n) ∧
  (∀ (ps : List Chunk) (s t : State) (outs : List Block),
    runChunks .gcmEnc ps s = some (t, outs) → t.ctr = (inc32^[ps.length]) s.ctr)

/-- Encryption (rule R127): from every state, GCM_INIT_ENC, the associated data in chunks, the plaintext in chunks and GCM_FINAL all
complete with OK; the DOUT blocks are the plaintext XORed with the keystream of the successive counter blocks, and the last
DOUT is GHASH of the padded data and the length block, XOR AES(K, J0). -/
def Obligations.EncryptionIsGcm : Prop :=
  ∀ (s : State) (as ps : List Chunk), chunksOk as = true → chunksOk ps = true →
    ∃ s1 s2 s3 t outs,
      runOne .gcmInitEnc s = some s1 ∧
      runChunks .gcmAad as s1 = some (s2, outs) ∧
      runChunks .gcmEnc ps s2 = some (s3, (ctrChunks s.key (preCounter s.nonce) ps).map (·.1)) ∧
      runOne .gcmFinal s3 = some t ∧
      t.dout = gcmTag s.key s.nonce as (ctrChunks s.key (preCounter s.nonce) ps) ∧
      t.sess = .done

/-- Decryption (rule R128): no command before GCM_FINAL writes DOUT; GCM_FINAL sets TAG_OK exactly when TAGIN is the tag of rule R127,
and otherwise rejects with DOUT = 0, after which GCM_DEC is not accepted; after a match, pass 2 over the same ciphertext, if there is any, gives
the plaintext and ends the session. Decrypting what was encrypted gives the plaintext back. The ciphertext is shorter than
2^64 bits, as LENC counts modulo 2^64 (rule R180). -/
def Obligations.DecryptionVerifies : Prop :=
  (∀ (s : State) (as cs : List Chunk), chunksOk as = true → chunksOk cs = true →
    (cs.map fun c => 8 * c.2.toNat).sum < 2 ^ 64 →
    ∃ s1 s2 s3 t,
      runOne .gcmInitDec s = some s1 ∧ s1.dout = s.dout ∧
      runChunks .gcmAad as s1 = some (s2, as.map fun _ => s.dout) ∧
      runChunks .gcmDecAuth cs s2 = some (s3, cs.map fun _ => s.dout) ∧
      runOne .gcmFinal s3 = some t ∧
      (t.tagOk = true ↔ s.tagin = gcmTag s.key s.nonce as cs) ∧
      (t.tagOk = false → t.sess = .rejected ∧ t.dout = 0#128 ∧
        ∀ n, legalCount n = true → FailsWith (.gcmDec n) .sequence t) ∧
      (t.tagOk = true → cs = [] → t.sess = .done) ∧
      (t.tagOk = true → cs ≠ [] → t.sess = .decRelease ∧
        ∃ u, runChunks .gcmDec cs t = some (u, (ctrChunks s.key (preCounter s.nonce) cs).map (·.1)) ∧
          u.sess = .done)) ∧
  (∀ (k c : Block) (ps : List Chunk), (ctrChunks k c (ctrChunks k c ps)) = ps.map fun p => (mask p.1 p.2, p.2))
end

