-- ==== Sys2Proof/Laws/Bits.lean ====
section
/-! SUPPORT. Bytes, words and fields of the wide values: what a block built from bytes holds, and when two blocks are
equal. -/
namespace Sys2Proof.Laws

open Sys2Proof.Machine

theorem bytesUpTo_getLsbD (b : Nat → Byte) {k i j : Nat} (hi : i < k) (hj : j < 8) :
    (bytesUpTo b k).getLsbD (8 * (k - 1 - i) + j) = (b i).getLsbD j := by
  induction k with
  | zero => omega
  | succ k ih =>
    simp only [bytesUpTo, BitVec.getLsbD_cast, BitVec.getLsbD_append]
    by_cases h : i = k
    · subst h
      simp [hj]
    · have e : 8 * (k + 1 - 1 - i) + j = 8 * (k - 1 - i) + j + 8 := by omega
      have e' : ¬ 8 * (k - 1 - i) + j + 8 < 8 := by omega
      rw [e]
      simp only [e', if_false, Nat.add_sub_cancel]
      exact ih (by omega)

/-- A block built from bytes holds them (rule R7). -/
theorem byteOf_ofBytes (b : Nat → Byte) {i : Nat} (hi : i < 16) : byteOf (ofBytes b) i = b i := by
  ext j hj
  have h := bytesUpTo_getLsbD b hi hj
  have e : 120 - 8 * i + j = 8 * (16 - 1 - i) + j := by omega
  simp only [byteOf, ofBytes, BitVec.getElem_extractLsb', BitVec.getLsbD_cast]
  rw [e, h, BitVec.getLsbD_eq_getElem hj]

/-- Two blocks with the same sixteen bytes are equal. -/
theorem block_ext {a b : Block} (h : ∀ i < 16, byteOf a i = byteOf b i) : a = b := by
  ext k hk
  have h1 := congrArg (fun v => v.getLsbD (k % 8)) (h (15 - k / 8) (by omega))
  have e : 120 - 8 * (15 - k / 8) + k % 8 = k := by omega
  have e8 : k % 8 < 8 := by omega
  simpa [byteOf, BitVec.getLsbD_extractLsb', e, e8, BitVec.getLsbD_eq_getElem, hk] using h1

/-- Two blocks with the same upper 96 and lower 32 bits are equal. -/
theorem block_ext_low {a b : Block} (h1 : a.extractLsb' 32 96 = b.extractLsb' 32 96)
    (h2 : a.extractLsb' 0 32 = b.extractLsb' 0 32) : a = b := by
  apply BitVec.eq_of_getLsbD_eq
  intro k hk
  by_cases h : k < 32
  · simpa [h] using congrArg (fun v => v.getLsbD k) h2
  · have h3 := congrArg (fun v => v.getLsbD (k - 32)) h1
    simpa [show k - 32 < 96 by omega, show 32 + (k - 32) = k by omega] using h3

/-- The words of a block built from four words (rule R56). -/
theorem wordOf_concat (a b c d : Word) (i : Fin 4) :
    wordOf ((a ++ b ++ c ++ d).cast rfl) i = (match i with | 0 => a | 1 => b | 2 => c | 3 => d) := by
  ext k hk
  simp only [wordOf, BitVec.getElem_extractLsb', BitVec.getLsbD_cast, BitVec.getLsbD_append]
  fin_cases i
  · simp [show ¬ (96 + k < 32) by omega, show ¬ (96 + k - 32 < 32) by omega, show ¬ (96 + k - 32 - 32 < 32) by omega,
      show 96 + k - 32 - 32 - 32 = k by omega, BitVec.getLsbD_eq_getElem hk]
  · simp [show ¬ (64 + k < 32) by omega, show ¬ (64 + k - 32 < 32) by omega, show 64 + k - 32 - 32 = k by omega, hk]
  · simp [show ¬ (32 + k < 32) by omega, show 32 + k - 32 = k by omega, hk]
  · simp [hk]

/-- A block is its four words, the first most significant (rule R56). -/
theorem words_concat (h : Block) : ((wordOf h 0 ++ wordOf h 1 ++ wordOf h 2 ++ wordOf h 3).cast rfl : Block) = h := by
  apply BitVec.eq_of_getLsbD_eq
  intro k hk
  simp only [BitVec.getLsbD_cast, BitVec.getLsbD_append, wordOf, BitVec.getLsbD_extractLsb']
  by_cases h1 : k < 32
  · simp [h1]
  · by_cases h2 : k - 32 < 32
    · simp [h1, h2, show 32 + (k - 32) = k by omega]
    · by_cases h3 : k - 32 - 32 < 32
      · simp [h1, h2, h3, show 64 + (k - 32 - 32) = k by omega]
      · simp [h1, h2, h3, show k - 32 - 32 - 32 < 32 by omega, show 96 + (k - 32 - 32 - 32) = k by omega]

/-- Writing all four words of a block replaces it (rule R56). -/
theorem setWord_all (r h : Block) :
    setWord (setWord (setWord (setWord r 0 (wordOf h 0)) 1 (wordOf h 1)) 2 (wordOf h 2)) 3 (wordOf h 3) = h := by
  simp only [setWord, wordOf_concat]
  exact words_concat h

/-- Byte `4i + j` of a block is byte `j` of its word `i` (rule R56). -/
theorem byteOf_wordOf (r : Block) (i j : Fin 4) : byteOf r (4 * i.val + j.val) = byteOfWord (wordOf r i) j.val := by
  ext k hk
  have e : 120 - 8 * (4 * i.val + j.val) + k = 96 - 32 * i.val + (24 - 8 * j.val + k) := by omega
  have e' : 24 - 8 * j.val + k < 32 := by omega
  simp only [byteOf, byteOfWord, wordOf, BitVec.getElem_extractLsb', BitVec.getLsbD_extractLsb']
  simp [e, e']

/-- The comparator's OR of differences is 0 exactly when the bytes agree (rule R114). -/
theorem byteDiffs_eq_zero (a b : Block) (k : Nat) : byteDiffs a b k = 0#8 ↔ ∀ i < k, byteOf a i = byteOf b i := by
  induction k with
  | zero => simp [byteDiffs]
  | succ k ih =>
    rw [byteDiffs, BitVec.or_eq_zero_iff, ih, BitVec.xor_eq_zero_iff]
    constructor
    · rintro ⟨h1, h2⟩ i hi
      rcases Nat.lt_succ_iff_lt_or_eq.mp hi with h | rfl
      · exact h1 i h
      · exact h2
    · intro h
      exact ⟨fun i hi => h i (by omega), h k (by omega)⟩

/-- A legal count is 1 to 16 (rule R71). -/
theorem legalCount_iff (n : BitVec 5) : legalCount n = true ↔ 1 ≤ n.toNat ∧ n.toNat ≤ 16 := by
  simp [legalCount]

/-- The bits a legal or illegal count stands for do not wrap. -/
theorem bitsOf_toNat (n : BitVec 5) : (bitsOf n).toNat = 8 * n.toNat := by
  have h := n.isLt
  simp only [bitsOf, BitVec.toNat_ofNat]
  omega

end Sys2Proof.Laws
end

