-- ==== Sys2Proof/Laws/Decode.lean ====
section
/-! SUPPORT. The fields of an encoded word, and what the opcode map and the decoder can answer. -/
namespace Sys2Proof.Laws

theorem opOf_encode (i : Instr) : opOf (encode i) = i.opcode := by
  ext k hk
  simp only [opOf, encode, BitVec.getElem_extractLsb', BitVec.getLsbD_cast, BitVec.getLsbD_append,
    Nat.zero_add, hk, if_true]
  simp [BitVec.getLsbD_eq_getElem, hk]

theorem nbytesOf_encode (i : Instr) : nbytesOf (encode i) = i.count := by
  ext k hk
  have h8 : ¬ 8 + k < 8 := by omega
  have h5 : 8 + k - 8 = k := by omega
  simp only [nbytesOf, encode, BitVec.getElem_extractLsb', BitVec.getLsbD_cast, BitVec.getLsbD_append,
    h8, h5, hk, if_true, if_false]
  simp [BitVec.getLsbD_eq_getElem, hk]

theorem rsvdOf_encode (i : Instr) : rsvdOf (encode i) = 0#19 := by
  ext k hk
  have h8 : ¬ 13 + k < 8 := by omega
  have h5 : ¬ 13 + k - 8 < 5 := by omega
  simp only [rsvdOf, encode, BitVec.getElem_extractLsb', BitVec.getLsbD_cast, BitVec.getLsbD_append,
    h8, h5, if_false]
  simp

/-- A word is its three fields (rule R70). -/
theorem word_eq_fields (w : Word) : w = (rsvdOf w ++ nbytesOf w ++ opOf w).cast rfl := by
  ext k hk
  simp only [rsvdOf, nbytesOf, opOf, BitVec.getElem_cast, BitVec.getElem_append, BitVec.getElem_extractLsb']
  split
  · simp [BitVec.getLsbD_eq_getElem, hk]
  · split
    · have : 8 + (k - 8) = k := by omega
      simp [this, BitVec.getLsbD_eq_getElem, hk]
    · have : 13 + (k - 8 - 5) = k := by omega
      simp [this, BitVec.getLsbD_eq_getElem, hk]

/-- The opcode map answers with a command of that opcode, whose count, if it has one, is the word's. -/
theorem instrOf_spec {op : BitVec 8} {n : BitVec 5} {i : Instr} (h : instrOf op n = some i) :
    i.opcode = op ∧ (i.takesCount = true ∧ i.count = n ∨ i.takesCount = false ∧ i.count = 0#5) := by
  have all : ∀ (op : BitVec 8) (n : BitVec 5), ∀ i ∈ instrOf op n,
      i.opcode = op ∧ (i.takesCount = true ∧ i.count = n ∨ i.takesCount = false ∧ i.count = 0#5) := by
    decide +kernel
  exact all op n i h

/-- The opcode map knows the opcode of every command. -/
theorem instrOf_opcode (i : Instr) (n : BitVec 5) : (instrOf i.opcode n).isSome = true := by
  cases i <;> rfl

/-- A decoded command's fields are the word's. -/
theorem decode_ok {w : Word} {i : Instr} (h : decode w = .ok i) :
    instrOf (opOf w) (nbytesOf w) = some i ∧ rsvdOf w = 0#19 ∧ i.allowsCount (nbytesOf w) = true := by
  unfold decode at h
  split at h
  · cases h
  · next j hj =>
    split at h
    · next hr =>
      split at h
      · next hc => cases h; exact ⟨hj, hr, hc⟩
      · cases h
    · cases h

end Sys2Proof.Laws
end

