-- ==== Sys2Proof/Laws/State.lean ====
section
/-! SUPPORT. The fields of the state after each named update: one lemma for each field, by unfolding the update once. -/
namespace Sys2Proof.Laws

open Sys2Proof.Machine

/-! ### `finish` -/

@[simp] theorem finish_key (w : Word) (e : ErrCode) (s : State) : (finish w e s).key = s.key := rfl
@[simp] theorem finish_nonce (w : Word) (e : ErrCode) (s : State) : (finish w e s).nonce = s.nonce := rfl
@[simp] theorem finish_din (w : Word) (e : ErrCode) (s : State) : (finish w e s).din = s.din := rfl
@[simp] theorem finish_aux (w : Word) (e : ErrCode) (s : State) : (finish w e s).aux = s.aux := rfl
@[simp] theorem finish_tagin (w : Word) (e : ErrCode) (s : State) : (finish w e s).tagin = s.tagin := rfl
@[simp] theorem finish_dout (w : Word) (e : ErrCode) (s : State) : (finish w e s).dout = s.dout := rfl
@[simp] theorem finish_nval (w : Word) (e : ErrCode) (s : State) : (finish w e s).nval = s.nval := rfl
@[simp] theorem finish_nres (w : Word) (e : ErrCode) (s : State) : (finish w e s).nres = s.nres := rfl
@[simp] theorem finish_txc (w : Word) (e : ErrCode) (s : State) : (finish w e s).txc = s.txc := rfl
@[simp] theorem finish_rxhw (w : Word) (e : ErrCode) (s : State) : (finish w e s).rxhw = s.rxhw := rfl
@[simp] theorem finish_cmdLast (w : Word) (e : ErrCode) (s : State) : (finish w e s).cmdLast = w := rfl
@[simp] theorem finish_done (w : Word) (e : ErrCode) (s : State) : (finish w e s).done = true := rfl
@[simp] theorem finish_tagOk (w : Word) (e : ErrCode) (s : State) : (finish w e s).tagOk = s.tagOk := rfl
@[simp] theorem finish_nvalid (w : Word) (e : ErrCode) (s : State) : (finish w e s).nvalid = s.nvalid := rfl
@[simp] theorem finish_nexh (w : Word) (e : ErrCode) (s : State) : (finish w e s).nexh = s.nexh := rfl
@[simp] theorem finish_overrun (w : Word) (e : ErrCode) (s : State) : (finish w e s).overrun = s.overrun := rfl
@[simp] theorem finish_errcode (w : Word) (e : ErrCode) (s : State) : (finish w e s).errcode = e := rfl
@[simp] theorem finish_doneIe (w : Word) (e : ErrCode) (s : State) : (finish w e s).doneIe = s.doneIe := rfl
@[simp] theorem finish_skey (w : Word) (e : ErrCode) (s : State) : (finish w e s).skey = s.skey := rfl
@[simp] theorem finish_h (w : Word) (e : ErrCode) (s : State) : (finish w e s).h = s.h := rfl
@[simp] theorem finish_j0 (w : Word) (e : ErrCode) (s : State) : (finish w e s).j0 = s.j0 := rfl
@[simp] theorem finish_ctr (w : Word) (e : ErrCode) (s : State) : (finish w e s).ctr = s.ctr := rfl
@[simp] theorem finish_x (w : Word) (e : ErrCode) (s : State) : (finish w e s).x = s.x := rfl
@[simp] theorem finish_lenA (w : Word) (e : ErrCode) (s : State) : (finish w e s).lenA = s.lenA := rfl
@[simp] theorem finish_lenC (w : Word) (e : ErrCode) (s : State) : (finish w e s).lenC = s.lenC := rfl
@[simp] theorem finish_rem (w : Word) (e : ErrCode) (s : State) : (finish w e s).rem = s.rem := rfl
@[simp] theorem finish_sess (w : Word) (e : ErrCode) (s : State) : (finish w e s).sess = s.sess := rfl
@[simp] theorem finish_partialBlk (w : Word) (e : ErrCode) (s : State) : (finish w e s).partialBlk = s.partialBlk := rfl
@[simp] theorem finish_pend (w : Word) (e : ErrCode) (s : State) : (finish w e s).pend = none := rfl
@[simp] theorem finish_host (w : Word) (e : ErrCode) (s : State) : (finish w e s).host = s.host := rfl
@[simp] theorem finish_replies (w : Word) (e : ErrCode) (s : State) : (finish w e s).replies = s.replies := rfl

/-! ### `scrub` -/

@[simp] theorem scrub_key (s : State) : (scrub s).key = s.key := rfl
@[simp] theorem scrub_nonce (s : State) : (scrub s).nonce = s.nonce := rfl
@[simp] theorem scrub_din (s : State) : (scrub s).din = s.din := rfl
@[simp] theorem scrub_aux (s : State) : (scrub s).aux = s.aux := rfl
@[simp] theorem scrub_tagin (s : State) : (scrub s).tagin = s.tagin := rfl
@[simp] theorem scrub_dout (s : State) : (scrub s).dout = s.dout := rfl
@[simp] theorem scrub_nval (s : State) : (scrub s).nval = s.nval := rfl
@[simp] theorem scrub_nres (s : State) : (scrub s).nres = s.nres := rfl
@[simp] theorem scrub_txc (s : State) : (scrub s).txc = s.txc := rfl
@[simp] theorem scrub_rxhw (s : State) : (scrub s).rxhw = s.rxhw := rfl
@[simp] theorem scrub_cmdLast (s : State) : (scrub s).cmdLast = s.cmdLast := rfl
@[simp] theorem scrub_done (s : State) : (scrub s).done = s.done := rfl
@[simp] theorem scrub_tagOk (s : State) : (scrub s).tagOk = s.tagOk := rfl
@[simp] theorem scrub_nvalid (s : State) : (scrub s).nvalid = s.nvalid := rfl
@[simp] theorem scrub_nexh (s : State) : (scrub s).nexh = s.nexh := rfl
@[simp] theorem scrub_overrun (s : State) : (scrub s).overrun = s.overrun := rfl
@[simp] theorem scrub_errcode (s : State) : (scrub s).errcode = s.errcode := rfl
@[simp] theorem scrub_doneIe (s : State) : (scrub s).doneIe = s.doneIe := rfl
@[simp] theorem scrub_skey (s : State) : (scrub s).skey = 0#128 := rfl
@[simp] theorem scrub_h (s : State) : (scrub s).h = 0#128 := rfl
@[simp] theorem scrub_j0 (s : State) : (scrub s).j0 = 0#128 := rfl
@[simp] theorem scrub_ctr (s : State) : (scrub s).ctr = 0#128 := rfl
@[simp] theorem scrub_x (s : State) : (scrub s).x = 0#128 := rfl
@[simp] theorem scrub_lenA (s : State) : (scrub s).lenA = 0#64 := rfl
@[simp] theorem scrub_lenC (s : State) : (scrub s).lenC = 0#64 := rfl
@[simp] theorem scrub_rem (s : State) : (scrub s).rem = 0#64 := rfl
@[simp] theorem scrub_sess (s : State) : (scrub s).sess = s.sess := rfl
@[simp] theorem scrub_partialBlk (s : State) : (scrub s).partialBlk = false := rfl
@[simp] theorem scrub_pend (s : State) : (scrub s).pend = s.pend := rfl
@[simp] theorem scrub_host (s : State) : (scrub s).host = s.host := rfl
@[simp] theorem scrub_replies (s : State) : (scrub s).replies = s.replies := rfl

/-! ### `startSession` -/

@[simp] theorem startSession_key (q : Sess) (s : State) : (startSession q s).key = s.key := rfl
@[simp] theorem startSession_nonce (q : Sess) (s : State) : (startSession q s).nonce = s.nonce := rfl
@[simp] theorem startSession_din (q : Sess) (s : State) : (startSession q s).din = s.din := rfl
@[simp] theorem startSession_aux (q : Sess) (s : State) : (startSession q s).aux = s.aux := rfl
@[simp] theorem startSession_tagin (q : Sess) (s : State) : (startSession q s).tagin = s.tagin := rfl
@[simp] theorem startSession_dout (q : Sess) (s : State) : (startSession q s).dout = s.dout := rfl
@[simp] theorem startSession_nval (q : Sess) (s : State) : (startSession q s).nval = s.nval := rfl
@[simp] theorem startSession_nres (q : Sess) (s : State) : (startSession q s).nres = s.nres := rfl
@[simp] theorem startSession_txc (q : Sess) (s : State) : (startSession q s).txc = s.txc := rfl
@[simp] theorem startSession_rxhw (q : Sess) (s : State) : (startSession q s).rxhw = s.rxhw := rfl
@[simp] theorem startSession_cmdLast (q : Sess) (s : State) : (startSession q s).cmdLast = s.cmdLast := rfl
@[simp] theorem startSession_done (q : Sess) (s : State) : (startSession q s).done = s.done := rfl
@[simp] theorem startSession_tagOk (q : Sess) (s : State) : (startSession q s).tagOk = false := rfl
@[simp] theorem startSession_nvalid (q : Sess) (s : State) : (startSession q s).nvalid = s.nvalid := rfl
@[simp] theorem startSession_nexh (q : Sess) (s : State) : (startSession q s).nexh = s.nexh := rfl
@[simp] theorem startSession_overrun (q : Sess) (s : State) : (startSession q s).overrun = s.overrun := rfl
@[simp] theorem startSession_errcode (q : Sess) (s : State) : (startSession q s).errcode = s.errcode := rfl
@[simp] theorem startSession_doneIe (q : Sess) (s : State) : (startSession q s).doneIe = s.doneIe := rfl
@[simp] theorem startSession_skey (q : Sess) (s : State) : (startSession q s).skey = s.key := rfl
@[simp] theorem startSession_h (q : Sess) (s : State) : (startSession q s).h = aes s.key 0#128 := rfl
@[simp] theorem startSession_j0 (q : Sess) (s : State) : (startSession q s).j0 = preCounter s.nonce := rfl
@[simp] theorem startSession_ctr (q : Sess) (s : State) : (startSession q s).ctr = preCounter s.nonce := rfl
@[simp] theorem startSession_x (q : Sess) (s : State) : (startSession q s).x = 0#128 := rfl
@[simp] theorem startSession_lenA (q : Sess) (s : State) : (startSession q s).lenA = 0#64 := rfl
@[simp] theorem startSession_lenC (q : Sess) (s : State) : (startSession q s).lenC = 0#64 := rfl
@[simp] theorem startSession_rem (q : Sess) (s : State) : (startSession q s).rem = 0#64 := rfl
@[simp] theorem startSession_sess (q : Sess) (s : State) : (startSession q s).sess = q := rfl
@[simp] theorem startSession_partialBlk (q : Sess) (s : State) : (startSession q s).partialBlk = false := rfl
@[simp] theorem startSession_pend (q : Sess) (s : State) : (startSession q s).pend = s.pend := rfl
@[simp] theorem startSession_host (q : Sess) (s : State) : (startSession q s).host = s.host := rfl
@[simp] theorem startSession_replies (q : Sess) (s : State) : (startSession q s).replies = s.replies := rfl

/-! ### `releaseBlock` -/

@[simp] theorem releaseBlock_key (n : BitVec 5) (s : State) : (releaseBlock n s).key = s.key := rfl
@[simp] theorem releaseBlock_nonce (n : BitVec 5) (s : State) : (releaseBlock n s).nonce = s.nonce := rfl
@[simp] theorem releaseBlock_din (n : BitVec 5) (s : State) : (releaseBlock n s).din = s.din := rfl
@[simp] theorem releaseBlock_aux (n : BitVec 5) (s : State) : (releaseBlock n s).aux = s.aux := rfl
@[simp] theorem releaseBlock_tagin (n : BitVec 5) (s : State) : (releaseBlock n s).tagin = s.tagin := rfl
@[simp] theorem releaseBlock_dout (n : BitVec 5) (s : State) : (releaseBlock n s).dout = cryptBlock s.skey (inc32 s.ctr) s.din n := rfl
@[simp] theorem releaseBlock_nval (n : BitVec 5) (s : State) : (releaseBlock n s).nval = s.nval := rfl
@[simp] theorem releaseBlock_nres (n : BitVec 5) (s : State) : (releaseBlock n s).nres = s.nres := rfl
@[simp] theorem releaseBlock_txc (n : BitVec 5) (s : State) : (releaseBlock n s).txc = s.txc := rfl
@[simp] theorem releaseBlock_rxhw (n : BitVec 5) (s : State) : (releaseBlock n s).rxhw = s.rxhw := rfl
@[simp] theorem releaseBlock_cmdLast (n : BitVec 5) (s : State) : (releaseBlock n s).cmdLast = s.cmdLast := rfl
@[simp] theorem releaseBlock_done (n : BitVec 5) (s : State) : (releaseBlock n s).done = s.done := rfl
@[simp] theorem releaseBlock_tagOk (n : BitVec 5) (s : State) : (releaseBlock n s).tagOk = s.tagOk := rfl
@[simp] theorem releaseBlock_nvalid (n : BitVec 5) (s : State) : (releaseBlock n s).nvalid = s.nvalid := rfl
@[simp] theorem releaseBlock_nexh (n : BitVec 5) (s : State) : (releaseBlock n s).nexh = s.nexh := rfl
@[simp] theorem releaseBlock_overrun (n : BitVec 5) (s : State) : (releaseBlock n s).overrun = s.overrun := rfl
@[simp] theorem releaseBlock_errcode (n : BitVec 5) (s : State) : (releaseBlock n s).errcode = s.errcode := rfl
@[simp] theorem releaseBlock_doneIe (n : BitVec 5) (s : State) : (releaseBlock n s).doneIe = s.doneIe := rfl
@[simp] theorem releaseBlock_skey (n : BitVec 5) (s : State) : (releaseBlock n s).skey = s.skey := rfl
@[simp] theorem releaseBlock_h (n : BitVec 5) (s : State) : (releaseBlock n s).h = s.h := rfl
@[simp] theorem releaseBlock_j0 (n : BitVec 5) (s : State) : (releaseBlock n s).j0 = s.j0 := rfl
@[simp] theorem releaseBlock_ctr (n : BitVec 5) (s : State) : (releaseBlock n s).ctr = inc32 s.ctr := rfl
@[simp] theorem releaseBlock_x (n : BitVec 5) (s : State) : (releaseBlock n s).x = s.x := rfl
@[simp] theorem releaseBlock_lenA (n : BitVec 5) (s : State) : (releaseBlock n s).lenA = s.lenA := rfl
@[simp] theorem releaseBlock_lenC (n : BitVec 5) (s : State) : (releaseBlock n s).lenC = s.lenC := rfl
@[simp] theorem releaseBlock_rem (n : BitVec 5) (s : State) : (releaseBlock n s).rem = s.rem - bitsOf n := rfl
@[simp] theorem releaseBlock_sess (n : BitVec 5) (s : State) : (releaseBlock n s).sess = s.sess := rfl
@[simp] theorem releaseBlock_partialBlk (n : BitVec 5) (s : State) : (releaseBlock n s).partialBlk = s.partialBlk := rfl
@[simp] theorem releaseBlock_pend (n : BitVec 5) (s : State) : (releaseBlock n s).pend = s.pend := rfl
@[simp] theorem releaseBlock_host (n : BitVec 5) (s : State) : (releaseBlock n s).host = s.host := rfl
@[simp] theorem releaseBlock_replies (n : BitVec 5) (s : State) : (releaseBlock n s).replies = s.replies := rfl

/-! ### `issue` -/

@[simp] theorem issue_key (w : Word) (s : State) : (issue w s).key = s.key := rfl
@[simp] theorem issue_nonce (w : Word) (s : State) : (issue w s).nonce = s.nonce := rfl
@[simp] theorem issue_din (w : Word) (s : State) : (issue w s).din = s.din := rfl
@[simp] theorem issue_aux (w : Word) (s : State) : (issue w s).aux = s.aux := rfl
@[simp] theorem issue_tagin (w : Word) (s : State) : (issue w s).tagin = s.tagin := rfl
@[simp] theorem issue_dout (w : Word) (s : State) : (issue w s).dout = s.dout := rfl
@[simp] theorem issue_nval (w : Word) (s : State) : (issue w s).nval = s.nval := rfl
@[simp] theorem issue_nres (w : Word) (s : State) : (issue w s).nres = s.nres := rfl
@[simp] theorem issue_txc (w : Word) (s : State) : (issue w s).txc = s.txc := rfl
@[simp] theorem issue_rxhw (w : Word) (s : State) : (issue w s).rxhw = s.rxhw := rfl
@[simp] theorem issue_cmdLast (w : Word) (s : State) : (issue w s).cmdLast = s.cmdLast := rfl
@[simp] theorem issue_done (w : Word) (s : State) : (issue w s).done = s.done := rfl
@[simp] theorem issue_tagOk (w : Word) (s : State) : (issue w s).tagOk = s.tagOk := rfl
@[simp] theorem issue_nvalid (w : Word) (s : State) : (issue w s).nvalid = s.nvalid := rfl
@[simp] theorem issue_nexh (w : Word) (s : State) : (issue w s).nexh = s.nexh := rfl
@[simp] theorem issue_overrun (w : Word) (s : State) : (issue w s).overrun = s.overrun := rfl
@[simp] theorem issue_errcode (w : Word) (s : State) : (issue w s).errcode = s.errcode := rfl
@[simp] theorem issue_doneIe (w : Word) (s : State) : (issue w s).doneIe = s.doneIe := rfl
@[simp] theorem issue_skey (w : Word) (s : State) : (issue w s).skey = s.skey := rfl
@[simp] theorem issue_h (w : Word) (s : State) : (issue w s).h = s.h := rfl
@[simp] theorem issue_j0 (w : Word) (s : State) : (issue w s).j0 = s.j0 := rfl
@[simp] theorem issue_ctr (w : Word) (s : State) : (issue w s).ctr = s.ctr := rfl
@[simp] theorem issue_x (w : Word) (s : State) : (issue w s).x = s.x := rfl
@[simp] theorem issue_lenA (w : Word) (s : State) : (issue w s).lenA = s.lenA := rfl
@[simp] theorem issue_lenC (w : Word) (s : State) : (issue w s).lenC = s.lenC := rfl
@[simp] theorem issue_rem (w : Word) (s : State) : (issue w s).rem = s.rem := rfl
@[simp] theorem issue_sess (w : Word) (s : State) : (issue w s).sess = s.sess := rfl
@[simp] theorem issue_partialBlk (w : Word) (s : State) : (issue w s).partialBlk = s.partialBlk := rfl
@[simp] theorem issue_pend (w : Word) (s : State) : (issue w s).pend = some { word := w, left := latency (opOf w) } := rfl
@[simp] theorem issue_host (w : Word) (s : State) : (issue w s).host = s.host := rfl
@[simp] theorem issue_replies (w : Word) (s : State) : (issue w s).replies = s.replies := rfl

/-! ### `reply` -/

@[simp] theorem reply_key (r : Reply) (s : State) : (reply r s).key = s.key := rfl
@[simp] theorem reply_nonce (r : Reply) (s : State) : (reply r s).nonce = s.nonce := rfl
@[simp] theorem reply_din (r : Reply) (s : State) : (reply r s).din = s.din := rfl
@[simp] theorem reply_aux (r : Reply) (s : State) : (reply r s).aux = s.aux := rfl
@[simp] theorem reply_tagin (r : Reply) (s : State) : (reply r s).tagin = s.tagin := rfl
@[simp] theorem reply_dout (r : Reply) (s : State) : (reply r s).dout = s.dout := rfl
@[simp] theorem reply_nval (r : Reply) (s : State) : (reply r s).nval = s.nval := rfl
@[simp] theorem reply_nres (r : Reply) (s : State) : (reply r s).nres = s.nres := rfl
@[simp] theorem reply_txc (r : Reply) (s : State) : (reply r s).txc = s.txc := rfl
@[simp] theorem reply_rxhw (r : Reply) (s : State) : (reply r s).rxhw = s.rxhw := rfl
@[simp] theorem reply_cmdLast (r : Reply) (s : State) : (reply r s).cmdLast = s.cmdLast := rfl
@[simp] theorem reply_done (r : Reply) (s : State) : (reply r s).done = s.done := rfl
@[simp] theorem reply_tagOk (r : Reply) (s : State) : (reply r s).tagOk = s.tagOk := rfl
@[simp] theorem reply_nvalid (r : Reply) (s : State) : (reply r s).nvalid = s.nvalid := rfl
@[simp] theorem reply_nexh (r : Reply) (s : State) : (reply r s).nexh = s.nexh := rfl
@[simp] theorem reply_overrun (r : Reply) (s : State) : (reply r s).overrun = s.overrun := rfl
@[simp] theorem reply_errcode (r : Reply) (s : State) : (reply r s).errcode = s.errcode := rfl
@[simp] theorem reply_doneIe (r : Reply) (s : State) : (reply r s).doneIe = s.doneIe := rfl
@[simp] theorem reply_skey (r : Reply) (s : State) : (reply r s).skey = s.skey := rfl
@[simp] theorem reply_h (r : Reply) (s : State) : (reply r s).h = s.h := rfl
@[simp] theorem reply_j0 (r : Reply) (s : State) : (reply r s).j0 = s.j0 := rfl
@[simp] theorem reply_ctr (r : Reply) (s : State) : (reply r s).ctr = s.ctr := rfl
@[simp] theorem reply_x (r : Reply) (s : State) : (reply r s).x = s.x := rfl
@[simp] theorem reply_lenA (r : Reply) (s : State) : (reply r s).lenA = s.lenA := rfl
@[simp] theorem reply_lenC (r : Reply) (s : State) : (reply r s).lenC = s.lenC := rfl
@[simp] theorem reply_rem (r : Reply) (s : State) : (reply r s).rem = s.rem := rfl
@[simp] theorem reply_sess (r : Reply) (s : State) : (reply r s).sess = s.sess := rfl
@[simp] theorem reply_partialBlk (r : Reply) (s : State) : (reply r s).partialBlk = s.partialBlk := rfl
@[simp] theorem reply_pend (r : Reply) (s : State) : (reply r s).pend = s.pend := rfl
@[simp] theorem reply_host (r : Reply) (s : State) : (reply r s).host = s.host := rfl
@[simp] theorem reply_replies (r : Reply) (s : State) : (reply r s).replies = s.replies ++ [r] := rfl

/-! ### `writeStatus` -/

@[simp] theorem writeStatus_key (v : Word) (s : State) : (writeStatus v s).key = s.key := rfl
@[simp] theorem writeStatus_nonce (v : Word) (s : State) : (writeStatus v s).nonce = s.nonce := rfl
@[simp] theorem writeStatus_din (v : Word) (s : State) : (writeStatus v s).din = s.din := rfl
@[simp] theorem writeStatus_aux (v : Word) (s : State) : (writeStatus v s).aux = s.aux := rfl
@[simp] theorem writeStatus_tagin (v : Word) (s : State) : (writeStatus v s).tagin = s.tagin := rfl
@[simp] theorem writeStatus_dout (v : Word) (s : State) : (writeStatus v s).dout = s.dout := rfl
@[simp] theorem writeStatus_nval (v : Word) (s : State) : (writeStatus v s).nval = s.nval := rfl
@[simp] theorem writeStatus_nres (v : Word) (s : State) : (writeStatus v s).nres = s.nres := rfl
@[simp] theorem writeStatus_txc (v : Word) (s : State) : (writeStatus v s).txc = s.txc := rfl
@[simp] theorem writeStatus_rxhw (v : Word) (s : State) : (writeStatus v s).rxhw = s.rxhw := rfl
@[simp] theorem writeStatus_cmdLast (v : Word) (s : State) : (writeStatus v s).cmdLast = s.cmdLast := rfl
@[simp] theorem writeStatus_done (v : Word) (s : State) : (writeStatus v s).done = (s.done && !v.getLsbD 1) := rfl
@[simp] theorem writeStatus_tagOk (v : Word) (s : State) : (writeStatus v s).tagOk = s.tagOk := rfl
@[simp] theorem writeStatus_nvalid (v : Word) (s : State) : (writeStatus v s).nvalid = s.nvalid := rfl
@[simp] theorem writeStatus_nexh (v : Word) (s : State) : (writeStatus v s).nexh = s.nexh := rfl
@[simp] theorem writeStatus_overrun (v : Word) (s : State) : (writeStatus v s).overrun = (s.overrun && !v.getLsbD 5) := rfl
@[simp] theorem writeStatus_errcode (v : Word) (s : State) : (writeStatus v s).errcode = s.errcode := rfl
@[simp] theorem writeStatus_doneIe (v : Word) (s : State) : (writeStatus v s).doneIe = s.doneIe := rfl
@[simp] theorem writeStatus_skey (v : Word) (s : State) : (writeStatus v s).skey = s.skey := rfl
@[simp] theorem writeStatus_h (v : Word) (s : State) : (writeStatus v s).h = s.h := rfl
@[simp] theorem writeStatus_j0 (v : Word) (s : State) : (writeStatus v s).j0 = s.j0 := rfl
@[simp] theorem writeStatus_ctr (v : Word) (s : State) : (writeStatus v s).ctr = s.ctr := rfl
@[simp] theorem writeStatus_x (v : Word) (s : State) : (writeStatus v s).x = s.x := rfl
@[simp] theorem writeStatus_lenA (v : Word) (s : State) : (writeStatus v s).lenA = s.lenA := rfl
@[simp] theorem writeStatus_lenC (v : Word) (s : State) : (writeStatus v s).lenC = s.lenC := rfl
@[simp] theorem writeStatus_rem (v : Word) (s : State) : (writeStatus v s).rem = s.rem := rfl
@[simp] theorem writeStatus_sess (v : Word) (s : State) : (writeStatus v s).sess = s.sess := rfl
@[simp] theorem writeStatus_partialBlk (v : Word) (s : State) : (writeStatus v s).partialBlk = s.partialBlk := rfl
@[simp] theorem writeStatus_pend (v : Word) (s : State) : (writeStatus v s).pend = s.pend := rfl
@[simp] theorem writeStatus_host (v : Word) (s : State) : (writeStatus v s).host = s.host := rfl
@[simp] theorem writeStatus_replies (v : Word) (s : State) : (writeStatus v s).replies = s.replies := rfl

/-! ### `writeIrqEn` -/

@[simp] theorem writeIrqEn_key (v : Word) (s : State) : (writeIrqEn v s).key = s.key := rfl
@[simp] theorem writeIrqEn_nonce (v : Word) (s : State) : (writeIrqEn v s).nonce = s.nonce := rfl
@[simp] theorem writeIrqEn_din (v : Word) (s : State) : (writeIrqEn v s).din = s.din := rfl
@[simp] theorem writeIrqEn_aux (v : Word) (s : State) : (writeIrqEn v s).aux = s.aux := rfl
@[simp] theorem writeIrqEn_tagin (v : Word) (s : State) : (writeIrqEn v s).tagin = s.tagin := rfl
@[simp] theorem writeIrqEn_dout (v : Word) (s : State) : (writeIrqEn v s).dout = s.dout := rfl
@[simp] theorem writeIrqEn_nval (v : Word) (s : State) : (writeIrqEn v s).nval = s.nval := rfl
@[simp] theorem writeIrqEn_nres (v : Word) (s : State) : (writeIrqEn v s).nres = s.nres := rfl
@[simp] theorem writeIrqEn_txc (v : Word) (s : State) : (writeIrqEn v s).txc = s.txc := rfl
@[simp] theorem writeIrqEn_rxhw (v : Word) (s : State) : (writeIrqEn v s).rxhw = s.rxhw := rfl
@[simp] theorem writeIrqEn_cmdLast (v : Word) (s : State) : (writeIrqEn v s).cmdLast = s.cmdLast := rfl
@[simp] theorem writeIrqEn_done (v : Word) (s : State) : (writeIrqEn v s).done = s.done := rfl
@[simp] theorem writeIrqEn_tagOk (v : Word) (s : State) : (writeIrqEn v s).tagOk = s.tagOk := rfl
@[simp] theorem writeIrqEn_nvalid (v : Word) (s : State) : (writeIrqEn v s).nvalid = s.nvalid := rfl
@[simp] theorem writeIrqEn_nexh (v : Word) (s : State) : (writeIrqEn v s).nexh = s.nexh := rfl
@[simp] theorem writeIrqEn_overrun (v : Word) (s : State) : (writeIrqEn v s).overrun = s.overrun := rfl
@[simp] theorem writeIrqEn_errcode (v : Word) (s : State) : (writeIrqEn v s).errcode = s.errcode := rfl
@[simp] theorem writeIrqEn_doneIe (v : Word) (s : State) : (writeIrqEn v s).doneIe = v.getLsbD 0 := rfl
@[simp] theorem writeIrqEn_skey (v : Word) (s : State) : (writeIrqEn v s).skey = s.skey := rfl
@[simp] theorem writeIrqEn_h (v : Word) (s : State) : (writeIrqEn v s).h = s.h := rfl
@[simp] theorem writeIrqEn_j0 (v : Word) (s : State) : (writeIrqEn v s).j0 = s.j0 := rfl
@[simp] theorem writeIrqEn_ctr (v : Word) (s : State) : (writeIrqEn v s).ctr = s.ctr := rfl
@[simp] theorem writeIrqEn_x (v : Word) (s : State) : (writeIrqEn v s).x = s.x := rfl
@[simp] theorem writeIrqEn_lenA (v : Word) (s : State) : (writeIrqEn v s).lenA = s.lenA := rfl
@[simp] theorem writeIrqEn_lenC (v : Word) (s : State) : (writeIrqEn v s).lenC = s.lenC := rfl
@[simp] theorem writeIrqEn_rem (v : Word) (s : State) : (writeIrqEn v s).rem = s.rem := rfl
@[simp] theorem writeIrqEn_sess (v : Word) (s : State) : (writeIrqEn v s).sess = s.sess := rfl
@[simp] theorem writeIrqEn_partialBlk (v : Word) (s : State) : (writeIrqEn v s).partialBlk = s.partialBlk := rfl
@[simp] theorem writeIrqEn_pend (v : Word) (s : State) : (writeIrqEn v s).pend = s.pend := rfl
@[simp] theorem writeIrqEn_host (v : Word) (s : State) : (writeIrqEn v s).host = s.host := rfl
@[simp] theorem writeIrqEn_replies (v : Word) (s : State) : (writeIrqEn v s).replies = s.replies := rfl

/-! ### `applyReset` -/

@[simp] theorem applyReset_key (s : State) : (applyReset s).key = 0#128 := rfl
@[simp] theorem applyReset_nonce (s : State) : (applyReset s).nonce = 0#96 := rfl
@[simp] theorem applyReset_din (s : State) : (applyReset s).din = 0#128 := rfl
@[simp] theorem applyReset_aux (s : State) : (applyReset s).aux = 0#128 := rfl
@[simp] theorem applyReset_tagin (s : State) : (applyReset s).tagin = 0#128 := rfl
@[simp] theorem applyReset_dout (s : State) : (applyReset s).dout = 0#128 := rfl
@[simp] theorem applyReset_nval (s : State) : (applyReset s).nval = 0#32 := rfl
@[simp] theorem applyReset_nres (s : State) : (applyReset s).nres = 0#32 := rfl
@[simp] theorem applyReset_txc (s : State) : (applyReset s).txc = 0#32 := rfl
@[simp] theorem applyReset_rxhw (s : State) : (applyReset s).rxhw = 0#32 := rfl
@[simp] theorem applyReset_cmdLast (s : State) : (applyReset s).cmdLast = 0#32 := rfl
@[simp] theorem applyReset_done (s : State) : (applyReset s).done = false := rfl
@[simp] theorem applyReset_tagOk (s : State) : (applyReset s).tagOk = false := rfl
@[simp] theorem applyReset_nvalid (s : State) : (applyReset s).nvalid = false := rfl
@[simp] theorem applyReset_nexh (s : State) : (applyReset s).nexh = false := rfl
@[simp] theorem applyReset_overrun (s : State) : (applyReset s).overrun = false := rfl
@[simp] theorem applyReset_errcode (s : State) : (applyReset s).errcode = .ok := rfl
@[simp] theorem applyReset_doneIe (s : State) : (applyReset s).doneIe = false := rfl
@[simp] theorem applyReset_skey (s : State) : (applyReset s).skey = 0#128 := rfl
@[simp] theorem applyReset_h (s : State) : (applyReset s).h = 0#128 := rfl
@[simp] theorem applyReset_j0 (s : State) : (applyReset s).j0 = 0#128 := rfl
@[simp] theorem applyReset_ctr (s : State) : (applyReset s).ctr = 0#128 := rfl
@[simp] theorem applyReset_x (s : State) : (applyReset s).x = 0#128 := rfl
@[simp] theorem applyReset_lenA (s : State) : (applyReset s).lenA = 0#64 := rfl
@[simp] theorem applyReset_lenC (s : State) : (applyReset s).lenC = 0#64 := rfl
@[simp] theorem applyReset_rem (s : State) : (applyReset s).rem = 0#64 := rfl
@[simp] theorem applyReset_sess (s : State) : (applyReset s).sess = .idle := rfl
@[simp] theorem applyReset_partialBlk (s : State) : (applyReset s).partialBlk = false := rfl
@[simp] theorem applyReset_pend (s : State) : (applyReset s).pend = none := rfl
@[simp] theorem applyReset_host (s : State) : (applyReset s).host = s.host := rfl
@[simp] theorem applyReset_replies (s : State) : (applyReset s).replies = s.replies := rfl

end Sys2Proof.Laws
end

