-- ==== Sys2Proof/Laws/Ops.lean ====
section
/-! SUPPORT. What the shared operations can do, said once: the completion of a command, the completion of a word, an access,
a cycle. -/
namespace Sys2Proof.Laws

open Sys2Proof.Machine

/-- A command completes: with OK and its effect when every check passes, or with the error and no effect. -/
theorem perform_next {i : Instr} {own : Option ErrCode} {s t u : State} (h : perform i own s t = .next u) :
    outcomeOf i own s = .ok ∧ u = finish (encode i) .ok t ∨
      outcomeOf i own s ≠ .ok ∧ u = finish (encode i) (outcomeOf i own s) s := by
  unfold perform at h
  split at h
  · next hk => cases h; exact .inl ⟨hk, rfl⟩
  · next hk => cases h; exact .inr ⟨hk, rfl⟩

/-- A command always answers a next state. -/
theorem perform_total (i : Instr) (own : Option ErrCode) (s t : State) : ∃ u, perform i own s t = .next u := by
  unfold perform
  split
  · exact ⟨_, rfl⟩
  · exact ⟨_, rfl⟩

theorem perform_ok {i : Instr} {own : Option ErrCode} {s : State} (h : outcomeOf i own s = .ok) (t : State) :
    perform i own s t = .next (finish (encode i) .ok t) := if_pos h

theorem perform_error {i : Instr} {own : Option ErrCode} {s : State} (h : outcomeOf i own s ≠ .ok) (t : State) :
    perform i own s t = .next (finish (encode i) (outcomeOf i own s) s) := if_neg h

/-- The outcome is OK exactly when the count is legal, the session accepts the command and its own check passes. -/
theorem outcomeOf_ok_iff (i : Instr) (own : Option ErrCode) (s : State) (ho : own ≠ some .ok) :
    outcomeOf i own s = .ok ↔ i.wellFormed = true ∧ accepted i s.sess s.partialBlk = true ∧ own = none := by
  unfold outcomeOf
  cases own with
  | none => split <;> simp_all
  | some e =>
    by_cases hw : i.wellFormed = true
    · by_cases ha : accepted i s.sess s.partialBlk = true <;> simp_all
    · simp_all

/-- Each command's own last check (rule R152). -/
def ownCheck (i : Instr) (s : State) : Option ErrCode :=
  match i with
  | .gcmDec n => releaseError n s
  | .nonceGen => exhaustedError s
  | _ => none

/-- Each command's effect, its completion aside. -/
def effect (i : Instr) (s : State) : State :=
  match i with
  | .aesEnc => { s with dout := aes s.key s.din }
  | .gfMul => { s with dout := gfMul s.din s.aux }
  | .tagCmp => { s with tagOk := ctEq s.din s.tagin }
  | .zeroize =>
    { scrub s with
      key := 0#128, din := 0#128, aux := 0#128, tagin := 0#128, dout := 0#128, sess := .idle, tagOk := false }
  | .gcmInitEnc => startSession .encAad s
  | .gcmInitDec => startSession .decAad s
  | .gcmAad n =>
    { s with x := ghashStep s.x (mask s.din n) s.h, lenA := s.lenA + bitsOf n, partialBlk := isShort n }
  | .gcmEnc n =>
    { s with
      ctr := inc32 s.ctr, dout := cryptBlock s.skey (inc32 s.ctr) s.din n
      x := ghashStep s.x (cryptBlock s.skey (inc32 s.ctr) s.din n) s.h
      lenC := s.lenC + bitsOf n, sess := .encText, partialBlk := isShort n }
  | .gcmDecAuth n =>
    { s with
      x := ghashStep s.x (mask s.din n) s.h, lenC := s.lenC + bitsOf n, sess := .decAuth
      partialBlk := isShort n }
  | .gcmFinal => if s.sess = .encAad ∨ s.sess = .encText then finalEnc s else finalDec s
  | .gcmDec n =>
    if (releaseBlock n s).rem = 0#64 then { scrub (releaseBlock n s) with sess := .done } else releaseBlock n s
  | .gcmAbort => { scrub s with sess := .idle, dout := 0#128, tagOk := false }
  | .nonceInit => { s with txc := 0#32, rxhw := 0#32, nexh := false, nvalid := false, nres := 0#32 }
  | .nonceGen =>
    { s with
      nres := s.txc, nonce := setNonceWord s.nonce 2 s.txc
      nexh := if s.txc = 0xFFFFFFFF#32 then true else s.nexh, txc := s.txc + 1#32 }
  | .nonceValidate =>
    if s.rxhw < s.nval then { s with rxhw := s.nval, nvalid := true } else { s with nvalid := false }

/-- Every command is its checks, its effect and its completion. -/
theorem exec_eq_perform (i : Instr) (s : State) : exec i s = perform i (ownCheck i s) s (effect i s) := by
  cases i <;> rfl

theorem ownCheck_ne_ok (i : Instr) (s : State) : ownCheck i s ≠ some .ok := by
  cases i <;> simp [ownCheck, releaseError, exhaustedError]

/-- What `exec` can answer: the effect and the completion with OK, or the completion with an error alone. -/
theorem exec_next {i : Instr} {s t : State} (h : exec i s = .next t) :
    i.wellFormed = true ∧ accepted i s.sess s.partialBlk = true ∧ ownCheck i s = none ∧
        t = finish (encode i) .ok (effect i s) ∨
      ∃ e, e ≠ .ok ∧ e = outcomeOf i (ownCheck i s) s ∧ t = finish (encode i) e s := by
  rw [exec_eq_perform] at h
  rcases perform_next h with ⟨ho, rfl⟩ | ⟨ho, rfl⟩
  · obtain ⟨hw, ha, hn⟩ := (outcomeOf_ok_iff i _ s (ownCheck_ne_ok i s)).mp ho
    exact .inl ⟨hw, ha, hn, rfl⟩
  · exact .inr ⟨_, ho, rfl, rfl⟩

/-- A command whose checks pass completes with OK and its effect. -/
theorem exec_of_accepted {i : Instr} {s : State} (hw : i.wellFormed = true)
    (ha : accepted i s.sess s.partialBlk = true) (hn : ownCheck i s = none) :
    exec i s = .next (finish (encode i) .ok (effect i s)) := by
  rw [exec_eq_perform]
  exact perform_ok ((outcomeOf_ok_iff i _ s (ownCheck_ne_ok i s)).mpr ⟨hw, ha, hn⟩) _

/-- `exec` always answers a next state. -/
theorem exec_total (i : Instr) (s : State) : ∃ t, exec i s = .next t := by
  rw [exec_eq_perform]
  exact perform_total _ _ _ _

/-- The completion of a word always answers a next state. -/
theorem runWord_total (w : Word) (s : State) : ∃ t, runWord w s = .next t := by
  unfold runWord
  split
  · exact exec_total _ _
  · exact ⟨_, rfl⟩

/-- The completion of a word: a decoded command's meaning, or the decoder's error and no other effect. -/
theorem runWord_next {w : Word} {s t : State} (h : runWord w s = .next t) :
    (∃ i, decode w = .ok i ∧ exec i s = .next t) ∨ ∃ e, decode w = .error e ∧ t = finish w e s := by
  unfold runWord at h
  split at h
  · next i hi => exact .inl ⟨i, hi, h⟩
  · next e he => cases h; exact .inr ⟨e, he, rfl⟩

/-- The decoder's errors are the first three codes. -/
theorem decode_error {w : Word} {e : ErrCode} (h : decode w = .error e) : e = .illegal ∨ e = .reserved ∨ e = .nbytes := by
  unfold decode at h
  repeat' split at h
  all_goals cases h
  all_goals simp

/-- What the completion of a word can do to the state: an accepted command's effect, or nothing but the completion. -/
theorem runWord_effect {w : Word} {s t : State} (h : runWord w s = .next t) :
    (∃ i, decode w = .ok i ∧ accepted i s.sess s.partialBlk = true ∧ ownCheck i s = none ∧
        t = finish (encode i) .ok (effect i s)) ∨
      ∃ v e, e ≠ .ok ∧ t = finish v e s := by
  rcases runWord_next h with ⟨i, hi, hx⟩ | ⟨e, hd, rfl⟩
  · rcases exec_next hx with ⟨_, h2, h3, rfl⟩ | ⟨e, he, _, rfl⟩
    · exact .inl ⟨i, hi, h2, h3, rfl⟩
    · exact .inr ⟨_, _, he, rfl⟩
  · refine .inr ⟨_, _, ?_, rfl⟩
    rcases decode_error hd with rfl | rfl | rfl <;> simp

/-- What an access can do: add a reply to the unchanged state; set OVERRUN, for a dropped write while busy; or perform the write of a writable
register. -/
theorem busOp_cases (off : BitVec 8) (op : BusOp) (s : State) :
    (∃ r, busOp off op s = reply r s) ∨
    (s.busy = true ∧ ∃ v r, op = .write v ∧ regAt off = some r ∧ writeKind r = .whenIdle ∧
      busOp off op s = reply (.writeDone .error) { s with overrun := true }) ∨
    (∃ v r, op = .write v ∧ regAt off = some r ∧ busOp off op s = reply (.writeDone .ok) (writeReg r v s) ∧
      (writeKind r = .always ∨ writeKind r = .whenIdle ∧ s.busy = false)) := by
  cases op with
  | read =>
    left
    simp only [busOp, busRead]
    split
    · exact ⟨_, rfl⟩
    · exact ⟨_, rfl⟩
  | write v =>
    simp only [busOp, busWrite]
    split
    · exact .inl ⟨_, rfl⟩
    · next r hr =>
      split
      · exact .inl ⟨_, rfl⟩
      · next hk => exact .inr (.inr ⟨v, r, rfl, hr, rfl, .inl hk⟩)
      · next hk =>
        split
        · next hb => exact .inr (.inl ⟨hb, v, r, rfl, hr, hk, rfl⟩)
        · next hb => exact .inr (.inr ⟨v, r, rfl, hr, rfl, .inr ⟨hk, by simpa using hb⟩⟩)

/-- The engine's part of a cycle: nothing, the completion of the pending word, or one cycle of the countdown. -/
theorem engineCycle_next {p : Option Pending} {s t : State} (h : engineCycle p s = .next t) :
    (p = none ∧ t = s) ∨ (∃ q, p = some q ∧ q.left ≤ 1 ∧ runWord q.word s = .next t) ∨
      (∃ q, p = some q ∧ 1 < q.left ∧ t = { s with pend := some { word := q.word, left := q.left - 1 } }) := by
  unfold engineCycle at h
  split at h
  · cases h; exact .inl ⟨rfl, rfl⟩
  · next q =>
    split at h
    · next hl => exact .inr (.inl ⟨q, rfl, hl, h⟩)
    · next hl => cases h; exact .inr (.inr ⟨q, rfl, by omega, rfl⟩)

/-- LAT(op) and LAT_ERR are at least 1 (rule R182). -/
theorem one_le_latency (op : BitVec 8) : 1 ≤ latency op := by
  unfold latency
  split <;> omega

/-- The latency depends on OP alone (rule R182). -/
theorem issue_left (w w' : Word) (s s' : State) (h : opOf w = opOf w') :
    (issue w s).pend.map (·.left) = (issue w' s').pend.map (·.left) := by
  simp [issue, h]

end Sys2Proof.Laws
end

