-- ==== Sys2Proof/Laws/Step.lean ====
section
/-! SUPPORT. What a step can do, said once, and what a completion leaves alone. -/
namespace Sys2Proof.Laws

open Sys2Proof.Machine Sys2Proof.Safety

/-- What no command touches: OVERRUN, DONE_IE, NVAL, CMD_LAST, PEND, and the host's side. -/
theorem effect_frame (i : Instr) (s : State) :
    (effect i s).overrun = s.overrun ∧ (effect i s).doneIe = s.doneIe ∧ (effect i s).nval = s.nval ∧
      (effect i s).cmdLast = s.cmdLast ∧ (effect i s).pend = s.pend ∧ (effect i s).host = s.host ∧
      (effect i s).replies = s.replies := by
  cases i <;> simp only [effect, finalEnc, finalDec] <;> repeat' split
  all_goals simp

/-- A completion leaves OVERRUN, DONE_IE, NVAL and the host's side alone, sets DONE and ends BUSY. -/
theorem runWord_frame {w : Word} {s t : State} (h : runWord w s = .next t) :
    t.overrun = s.overrun ∧ t.doneIe = s.doneIe ∧ t.nval = s.nval ∧ t.host = s.host ∧
      t.replies = s.replies ∧ t.done = true ∧ t.pend = none := by
  rcases runWord_next h with ⟨i, _, hx⟩ | ⟨e, _, rfl⟩
  · rcases exec_next hx with ⟨_, _, _, rfl⟩ | ⟨e, _, _, rfl⟩
    · obtain ⟨h1, h2, h3, _, _, h6, h7⟩ := effect_frame i s
      exact ⟨h1, h2, h3, h6, h7, rfl, rfl⟩
    · exact ⟨rfl, rfl, rfl, rfl, rfl, rfl, rfl⟩
  · exact ⟨rfl, rfl, rfl, rfl, rfl, rfl, rfl⟩

/-- The host's part of a step: its event is taken off its list, and its access, if it makes one, is performed; a poll reads
STATUS and may stay on the list. -/
def HostPart (s u : State) : Prop :=
  (∃ hs, u = { s with host := hs } ∧ (∀ off, ¬ writing s off) ∧ ¬ resetting s) ∨
    (∃ hs r, u = reply r { s with host := hs } ∧ (∀ off, ¬ writing s off) ∧ ¬ resetting s) ∨
    ∃ off op rest, s.host = .bus { width := .word, off := off, op := op } :: rest ∧
      u = busOp off op { s with host := rest }

/-- A step that performs the host's part is no reset. -/
theorem hostPart_not_resetting {s u : State} (h : HostPart s u) : ¬ resetting s := by
  rcases h with ⟨_, _, _, hr⟩ | ⟨_, _, _, _, hr⟩ | ⟨off, op, rest, hh, _⟩
  · exact hr
  · exact hr
  · rintro ⟨a, rest', hr⟩
    rw [hh] at hr
    cases hr

/-- The host resets only when its next event is a reset. -/
theorem not_resetting_of {s : State} (h : ∀ a rest, s.host ≠ .reset a :: rest) : ¬ resetting s :=
  fun ⟨a, rest, hr⟩ => h a rest hr

/-- The host's part touches neither the session, nor the nonce manager, nor the results. -/
theorem hostPart_engine_state {s u : State} (h : HostPart s u) :
    u.txc = s.txc ∧ u.nexh = s.nexh ∧ u.nres = s.nres ∧ u.rxhw = s.rxhw ∧ u.dout = s.dout ∧ u.tagOk = s.tagOk ∧
      u.nvalid = s.nvalid ∧ u.sess = s.sess ∧ u.skey = s.skey ∧ u.h = s.h ∧ u.j0 = s.j0 ∧ u.ctr = s.ctr ∧ u.x = s.x ∧
      u.lenA = s.lenA ∧ u.lenC = s.lenC ∧ u.rem = s.rem ∧ u.partialBlk = s.partialBlk ∧ u.cmdLast = s.cmdLast ∧
      u.errcode = s.errcode := by
  rcases h with ⟨hs, rfl, _⟩ | ⟨hs, r, rfl, _⟩ | ⟨off, op, rest, hh, rfl⟩
  · simp
  · simp [reply]
  · rcases busOp_cases off op { s with host := rest } with ⟨r, e⟩ | ⟨_, v, r, hv, hr, hk, e⟩ | ⟨v, r, hv, hr, e, hk⟩
    · rw [e]; simp [reply]
    · rw [e]; simp [reply]
    · rw [e]; cases r <;> simp [reply, writeReg, issue, writeStatus, writeIrqEn]

/-- While busy, the host's part touches no operand register and does not touch the pending command (rule R60). -/
theorem hostPart_busy {s u : State} (h : HostPart s u) (hb : s.busy = true) :
    u.key = s.key ∧ u.nonce = s.nonce ∧ u.din = s.din ∧ u.aux = s.aux ∧ u.tagin = s.tagin ∧ u.nval = s.nval ∧
      u.pend = s.pend := by
  rcases h with ⟨hs, rfl, _⟩ | ⟨hs, r, rfl, _⟩ | ⟨off, op, rest, hh, rfl⟩
  · simp
  · simp [reply]
  · rcases busOp_cases off op { s with host := rest } with ⟨r, e⟩ | ⟨_, v, r, hv, hr, hk, e⟩ | ⟨v, r, hv, hr, e, hk⟩
    · rw [e]; simp [reply]
    · rw [e]; simp [reply]
    · rcases hk with hk | ⟨hk, hb'⟩
      · rw [e]; cases r <;> simp [writeKind] at hk <;> simp [reply, writeReg, writeStatus, writeIrqEn]
      · have hf : s.busy = false := hb'
        rw [hb] at hf
        cases hf

theorem regAt_cmd : ∀ off, regAt off = some .cmd → off = 0x00#8 := by decide +kernel
theorem regAt_status : ∀ off, regAt off = some .status → off = 0x04#8 := by decide +kernel
theorem regAt_irqEn : ∀ off, regAt off = some .irqEn → off = 0x08#8 := by decide +kernel

/-- What the host's part can do to DONE, OVERRUN, DONE_IE and the pending command: a STATUS write clears the first two; a write
dropped while busy sets OVERRUN; an IRQ_EN write sets DONE_IE; a CMD write while not busy issues its word. -/
theorem hostPart_flags {s u : State} (h : HostPart s u) :
    (u.done = s.done ∨ u.done = false ∧ ∃ v rest, v.getLsbD 1 = true ∧
      s.host = .bus { width := .word, off := 0x04#8, op := .write v } :: rest) ∧
    (u.overrun = s.overrun ∨
      (u.overrun = true ∧ s.busy = true ∧ ∃ off r, writing s off ∧ regAt off = some r ∧ writeKind r = .whenIdle) ∨
      u.overrun = false ∧ ∃ v rest, v.getLsbD 5 = true ∧
        s.host = .bus { width := .word, off := 0x04#8, op := .write v } :: rest) ∧
    (u.doneIe = s.doneIe ∨ writing s 0x08#8) ∧
    (u.pend = s.pend ∨ s.busy = false ∧ ∃ v rest,
      s.host = .bus { width := .word, off := 0x00#8, op := .write v } :: rest ∧
        u.pend = some { word := v, left := latency (opOf v) }) := by
  rcases h with ⟨hs, rfl, _⟩ | ⟨hs, r, rfl, _⟩ | ⟨off, op, rest, hh, rfl⟩
  · simp
  · simp [reply]
  · rcases busOp_cases off op { s with host := rest } with ⟨r, e⟩ | ⟨hb, v, r, rfl, hr, hk, e⟩ | ⟨v, r, rfl, hr, e, hk⟩
    · rw [e]; simp [reply]
    · rw [e]
      exact ⟨.inl rfl, .inr (.inl ⟨rfl, hb, off, r, ⟨v, rest, hh⟩, hr, hk⟩), .inl rfl, .inl rfl⟩
    · rw [e]
      cases r
      case cmd =>
        obtain rfl := regAt_cmd off hr
        rcases hk with hk | ⟨_, hb⟩
        · cases hk
        · exact ⟨.inl rfl, .inl rfl, .inl rfl, .inr ⟨hb, v, rest, hh, rfl⟩⟩
      case status =>
        obtain rfl := regAt_status off hr
        refine ⟨?_, ?_, .inl rfl, .inl rfl⟩
        · change (s.done && !v.getLsbD 1) = s.done ∨ (s.done && !v.getLsbD 1) = false ∧ _
          cases h1 : v.getLsbD 1
          · exact .inl (Bool.and_true _)
          · exact .inr ⟨Bool.and_false _, v, rest, h1, hh⟩
        · change (s.overrun && !v.getLsbD 5) = s.overrun ∨ (s.overrun && !v.getLsbD 5) = true ∧ _ ∨
            (s.overrun && !v.getLsbD 5) = false ∧ _
          cases h5 : v.getLsbD 5
          · exact .inl (Bool.and_true _)
          · exact .inr (.inr ⟨Bool.and_false _, v, rest, h5, hh⟩)
      case irqEn =>
        obtain rfl := regAt_irqEn off hr
        exact ⟨.inl rfl, .inl rfl, .inr ⟨v, rest, hh⟩, .inl rfl⟩
      all_goals exact ⟨.inl rfl, .inl rfl, .inl rfl, .inl rfl⟩

theorem not_writing_nil {s : State} (h : s.host = []) (off : BitVec 8) : ¬ writing s off := by
  rintro ⟨v, rest, hw⟩
  rw [h] at hw
  cases hw

theorem not_writing_idle {s : State} {rest : List HostEvent} (h : s.host = .idle :: rest) (off : BitVec 8) :
    ¬ writing s off := by
  rintro ⟨v, rest', hw⟩
  rw [h] at hw
  cases hw

theorem not_writing_poll {s : State} {rest : List HostEvent} (h : s.host = .poll :: rest) (off : BitVec 8) :
    ¬ writing s off := by
  rintro ⟨v, rest', hw⟩
  rw [h] at hw
  cases hw

/-- Bit 0 of the STATUS word is BUSY (rule R32). -/
theorem status_bit_zero (s : State) : (readReg .status s).getLsbD 0 = s.busy := by
  simp only [readReg, statusWord, BitVec.getLsbD_cast, BitVec.getLsbD_append]
  simp

/-- A poll reads STATUS, and stays on the host's list while BUSY = 1 (rule R76). -/
theorem step_poll {s : State} {rest : List HostEvent} (h : s.host = .poll :: rest) :
    step s = engineCycle s.pend
      (reply (.readDone (statusWord s) .ok) { s with host := if s.busy then .poll :: rest else rest }) := by
  have hr (u : State) : busOp 0x04#8 .read u = reply (.readDone (statusWord u) .ok) u := rfl
  have hb : State.busy { s with host := rest } = s.busy := rfl
  simp only [step, stepOnce, h, hostEvent, pollCycle, status_bit_zero, hr, hb]
  split <;> rfl

theorem not_writing_wait {s : State} {rest : List HostEvent} (h : s.host = .wait :: rest) (off : BitVec 8) :
    ¬ writing s off := by
  rintro ⟨v, rest', hw⟩
  rw [h] at hw
  cases hw

/-- All a step can do: reset; or the host's part and then nothing, one cycle of the countdown, or a completion. -/
theorem step_next {s t : State} (h : step s = .next t) :
    (∃ a rest r, s.host = .reset a :: rest ∧ t = { State.reset with host := rest, replies := r }) ∨
    ∃ u, HostPart s u ∧
      ((completing s = none ∧ s.pend = none ∧ t = u) ∨
        (∃ p, completing s = none ∧ s.pend = some p ∧ 1 < p.left ∧
          t = { u with pend := some { word := p.word, left := p.left - 1 } }) ∨
        ∃ p, s.pend = some p ∧ completing s = some p.word ∧ runWord p.word u = .next t) := by
  unfold step stepOnce at h
  split at h
  · next hh =>
    right
    refine ⟨s, .inl ⟨s.host, rfl, not_writing_nil hh, not_resetting_of (by simp [hh])⟩, ?_⟩
    unfold complete at h
    split at h
    · next hp => cases h; exact .inl ⟨by simp [completing, hp], hp, rfl⟩
    · next p hp => exact .inr (.inr ⟨p, hp, by simp [completing, hp, hh], h⟩)
  · next e rest hh =>
    cases e with
    | idle =>
      right
      refine ⟨{ s with host := rest }, .inl ⟨rest, rfl, not_writing_idle hh, not_resetting_of (by simp [hh])⟩, ?_⟩
      rcases engineCycle_next h with ⟨hp, rfl⟩ | ⟨p, hp, hl, hr⟩ | ⟨p, hp, hl, rfl⟩
      · have hp' : s.pend = none := hp
        exact .inl ⟨by simp [completing, hp'], hp', rfl⟩
      · have hp' : s.pend = some p := hp
        exact .inr (.inr ⟨p, hp', by simp [completing, hp', hh, hl], hr⟩)
      · have hp' : s.pend = some p := hp
        exact .inr (.inl ⟨p, by simp [completing, hp', hh, hl], hp', hl, rfl⟩)
    | wait =>
      right
      refine ⟨{ s with host := rest }, .inl ⟨rest, rfl, not_writing_wait hh, not_resetting_of (by simp [hh])⟩, ?_⟩
      simp only [hostEvent, complete] at h
      split at h
      · next hp => cases h; exact .inl ⟨by simp [completing, hp], hp, rfl⟩
      · next p hp => exact .inr (.inr ⟨p, hp, by simp [completing, hp, hh], h⟩)
    | poll =>
      right
      have h' : step s = .next t := by simpa [step, stepOnce, hh] using h
      rw [step_poll hh] at h'
      refine ⟨reply (.readDone (statusWord s) .ok) { s with host := if s.busy then .poll :: rest else rest },
        .inr (.inl ⟨if s.busy then .poll :: rest else rest, .readDone (statusWord s) .ok, rfl,
          not_writing_poll hh, not_resetting_of (by simp [hh])⟩), ?_⟩
      rcases engineCycle_next h' with ⟨hp, rfl⟩ | ⟨p, hp, hl, hr⟩ | ⟨p, hp, hl, rfl⟩
      · exact .inl ⟨by simp [completing, hp], hp, rfl⟩
      · exact .inr (.inr ⟨p, hp, by simp [completing, hp, hh, hl], hr⟩)
      · exact .inr (.inl ⟨p, by simp [completing, hp, hh, hl], hp, hl, rfl⟩)
    | bus a =>
      obtain ⟨width, off, op⟩ := a
      cases width with
      | byte => cases h
      | half => cases h
      | word =>
        right
        refine ⟨busOp off op { s with host := rest }, .inr (.inr ⟨off, op, rest, hh, rfl⟩), ?_⟩
        rcases engineCycle_next h with ⟨hp, rfl⟩ | ⟨p, hp, hl, hr⟩ | ⟨p, hp, hl, rfl⟩
        · have hp' : s.pend = none := hp
          exact .inl ⟨by simp [completing, hp'], hp', rfl⟩
        · have hp' : s.pend = some p := hp
          exact .inr (.inr ⟨p, hp', by simp [completing, hp', hh, hl], hr⟩)
        · have hp' : s.pend = some p := hp
          exact .inr (.inl ⟨p, by simp [completing, hp', hh, hl], hp', hl, rfl⟩)
    | reset a =>
      left
      cases a with
      | none => cases h; exact ⟨_, _, _, hh, rfl⟩
      | some a =>
        obtain ⟨width, off, op⟩ := a
        cases width with
        | byte => cases h
        | half => cases h
        | word => cases h; exact ⟨_, _, _, hh, rfl⟩

/-- A command that completes with OK is one command issued. -/
theorem runOne_of {i : Instr} {s t : State} (h : exec i s = .next t) (ho : t.errcode = .ok) : runOne i s = some t := by
  simp [runOne, h, ho]

/-- A chunk whose command completes with OK, and then the rest. -/
theorem runChunks_cons {mk : BitVec 5 → Instr} {c : Chunk} {cs : List Chunk} {s t : State}
    (h : exec (mk c.2) { s with din := c.1 } = .next t) (ho : t.errcode = .ok) :
    runChunks mk (c :: cs) s = (runChunks mk cs t).map fun r => (r.1, t.dout :: r.2) := by
  simp [runChunks, h, ho]

/-- The first of legal chunks has a legal count, a whole one if more follow, and the rest are legal. -/
theorem chunksOk_cons {c : Chunk} {cs : List Chunk} (h : chunksOk (c :: cs) = true) :
    legalCount c.2 = true ∧ chunksOk cs = true ∧ (cs ≠ [] → c.2 = 16#5) := by
  cases cs with
  | nil => exact ⟨h, rfl, by simp⟩
  | cons d ds =>
    simp only [chunksOk, Bool.and_eq_true, decide_eq_true_eq] at h
    exact ⟨by rw [h.1]; decide, h.2, fun _ => h.1⟩

/-- A run whose first step answers `t` goes on from `t`. -/
theorem run_succ_next {s t : State} (h : step s = .next t) (k : Nat) :
    Sys2Proof.core.run (k + 1) s = Sys2Proof.core.run k t := by
  have e : Sys2Proof.core.step s = .next t := h
  simp only [Host.Core.run, e]

/-- A run of `k + 1` steps is a step after a run of `k`. -/
theorem run_succ_end (k : Nat) {s t : State} (h : Sys2Proof.core.run k s = .next t) :
    Sys2Proof.core.run (k + 1) s = step t := by
  induction k generalizing s with
  | zero =>
    cases h
    have e : Sys2Proof.core.step t = step t := rfl
    simp only [Host.Core.run, e]
    cases step t <;> rfl
  | succ k ih =>
    have e : Sys2Proof.core.step s = step s := rfl
    rcases hs : step s with c | f | r
    · rw [run_succ_next hs] at h ⊢
      exact ih h
    · cases f
    · simp only [Host.Core.run, e, hs] at h
      cases h

end Sys2Proof.Laws
end

