-- ==== Sys2Proof/Machine/HostProgram.lean ====
section
/-! DEFINITION. The host's program notation: each form as the list of host events it stands for, and the values its reads
give (30_encoding.md rules R75, R76). -/
namespace Sys2Proof.Machine

/-- The offset a register's name stands for (rule R76, 20_memory.md rule R51). -/
def offsetOf : Reg → BitVec 8
  | .cmd => 0x00#8
  | .status => 0x04#8
  | .irqEn => 0x08#8
  | .id => 0x0C#8
  | .nres => 0x10#8
  | .nval => 0x14#8
  | .txcnt => 0x18#8
  | .rxhw => 0x1C#8
  | .key i => 0x20#8 + BitVec.ofNat 8 (4 * i.val)
  | .nonce i => 0x30#8 + BitVec.ofNat 8 (4 * i.val)
  | .din i => 0x40#8 + BitVec.ofNat 8 (4 * i.val)
  | .aux i => 0x50#8 + BitVec.ofNat 8 (4 * i.val)
  | .tagin i => 0x60#8 + BitVec.ofNat 8 (4 * i.val)
  | .dout i => 0x70#8 + BitVec.ofNat 8 (4 * i.val)

/-- The registers `ld128` takes (rule R76). -/
inductive LoadReg where
  | key
  | din
  | aux
  | tagin
deriving DecidableEq, Repr

/-- The registers `rd128` takes: those of `ld128`, and DOUT (rule R76). -/
inductive WideReg where
  | load (r : LoadReg)
  | dout
deriving DecidableEq, Repr

/-- Word `i` of a register `ld128` takes, in the register map. -/
def loadWord (r : LoadReg) (i : Fin 4) : Reg :=
  match r with
  | .key => .key i
  | .din => .din i
  | .aux => .aux i
  | .tagin => .tagin i

/-- Word `i` of a register `rd128` takes, in the register map. -/
def wideWord (r : WideReg) (i : Fin 4) : Reg :=
  match r with
  | .load r => loadWord r i
  | .dout => .dout i

/-- `wr OFF, V`: one 32-bit bus write (rule R76). -/
def wr (off : BitVec 8) (v : Word) : List HostEvent := [.bus { width := .word, off := off, op := .write v }]

/-- `rd OFF`: one 32-bit bus read (rule R76). -/
def rd (off : BitVec 8) : List HostEvent := [.bus { width := .word, off := off, op := .read }]

/-- The value a reply carries: a read's, with either response; a write's carries none. -/
def replyValue : Reply → Option Word
  | .readDone v _ => some v
  | .writeDone _ => none

/-- `rd OFF -> V`: the reply to the read carries the value `V` (rule R76). -/
def rdGives (r : Reply) (v : Word) : Bool := decide (replyValue r = some v)

/-- `wait`: `rd 0x04`, repeated until bit 0 (BUSY) of the value is 0 (rule R76). -/
def waitIdle : List HostEvent := [.poll]

/-- The assembler: the word of a command, and `none` for a count it refuses (rule R75). -/
def assemble (i : Instr) : Option Word := if i.wellFormed then some (encode i) else none

/-- `cmd MNEMONIC [n]`: the CMD write and the wait; no program for a command the assembler refuses (rules R75, R76). -/
def cmd (i : Instr) : Option (List HostEvent) := (assemble i).map fun w => wr (offsetOf .cmd) w ++ waitIdle

/-- `ld128 R, h`: the four words of a 128-bit register, most significant first (rule R76). -/
def ld128 (r : LoadReg) (h : Block) : List HostEvent :=
  (List.finRange 4).flatMap fun i => wr (offsetOf (loadWord r i)) (wordOf h i)

/-- `ld96 NONCE, h`: the three words of NONCE, most significant first (rule R76). -/
def ld96 (h : Nonce) : List HostEvent :=
  (List.finRange 3).flatMap fun i => wr (offsetOf (.nonce i)) (nonceWord h i)

/-- `rd128 R`: four reads, lowest offset first (rule R76). -/
def rd128 (r : WideReg) : List HostEvent := (List.finRange 4).flatMap fun i => rd (offsetOf (wideWord r i))

/-- The value of `rd128 R` from its four replies: the four words concatenated in their order, the first most significant
(rule R76). -/
def rd128Value : List Reply → Option Block
  | [a, b, c, d] =>
    match replyValue a, replyValue b, replyValue c, replyValue d with
    | some a, some b, some c, some d => some ((a ++ b ++ c ++ d).cast rfl)
    | _, _, _, _ => none
  | _ => none

/-- `clrdone`: the STATUS write that clears DONE (rule R76). -/
def clrdone : List HostEvent := wr (offsetOf .status) 0x00000002#32

end Sys2Proof.Machine
end

