-- ==== Sys2Proof/Laws/HostProgram.lean ====
section
/-! SUPPORT. What the forms of the host's program notation do from a state in which nothing is pending (rule R76). -/
namespace Sys2Proof.Laws

open Sys2Proof.Machine Sys2Proof.Safety

/-- A register's name stands for its offset in the register map (rules R51, R76). -/
theorem regAt_offsetOf (r : Reg) : regAt (offsetOf r) = some r := by
  cases r
  case key i => revert i; decide
  case nonce i => revert i; decide
  case din i => revert i; decide
  case aux i => revert i; decide
  case tagin i => revert i; decide
  case dout i => revert i; decide
  all_goals rfl

/-- One bus access while nothing is pending is one step. -/
theorem step_access {s : State} {off : BitVec 8} {op : BusOp} {rest : List HostEvent} (hp : s.pend = none)
    (hh : s.host = .bus { width := .word, off := off, op := op } :: rest) :
    step s = .next (busOp off op { s with host := rest }) := by
  simp [step, stepOnce, hh, hostEvent, accessCycle, engineCycle, hp]

/-- `rd` of a register: its value, and nothing else. -/
theorem step_rd {s : State} {r : Reg} {rest : List HostEvent} (hp : s.pend = none)
    (hh : s.host = rd (offsetOf r) ++ rest) :
    step s = .next { s with host := rest, replies := s.replies ++ [.readDone (readReg r s) .ok] } := by
  have hv : readReg r { s with host := rest } = readReg r s := by cases r <;> rfl
  rw [step_access hp hh]
  simp [busOp, busRead, regAt_offsetOf, reply, hv]

/-- `wr` of a register that takes writes. -/
theorem step_wr {s : State} {r : Reg} {v : Word} {rest : List HostEvent} (hp : s.pend = none)
    (hk : writeKind r ≠ .readOnly) (hh : s.host = wr (offsetOf r) v ++ rest) :
    step s = .next (reply (.writeDone .ok) (writeReg r v { s with host := rest })) := by
  rw [step_access hp hh]
  simp only [busOp, busWrite, regAt_offsetOf]
  split
  · next h => exact absurd h hk
  · rfl
  · simp [State.busy, hp]

/-- The value of `rd128` from four ordinary replies. -/
theorem rd128Value_words (a b c d : Word) (ra rb rc rd : Resp) :
    rd128Value [.readDone a ra, .readDone b rb, .readDone c rc, .readDone d rd] = some ((a ++ b ++ c ++ d).cast rfl) := rfl

/-- What a 128-bit register reads as: KEY as 0, each other as its value (rules R55, R56). -/
def wideValue (r : WideReg) (s : State) : Block :=
  match r with
  | .load .key => 0#128
  | .load .din => s.din
  | .load .aux => s.aux
  | .load .tagin => s.tagin
  | .dout => s.dout

theorem readReg_wideWord (r : WideReg) (i : Fin 4) (s : State) : readReg (wideWord r i) s = wordOf (wideValue r s) i := by
  rcases r with (_ | _ | _ | _) | _
  · exact (by decide : ∀ i : Fin 4, 0#32 = wordOf 0#128 i) i
  all_goals rfl

/-- Reads of registers, one after another: each one's value, and nothing else. -/
theorem run_rds (rs : List Reg) {s : State} {rest : List HostEvent} (hp : s.pend = none)
    (hh : s.host = (rs.flatMap fun r => rd (offsetOf r)) ++ rest) :
    Sys2Proof.core.run rs.length s =
      .next { s with host := rest, replies := s.replies ++ rs.map fun r => .readDone (readReg r s) .ok } := by
  induction rs generalizing s with
  | nil => simp only [List.flatMap_nil, List.nil_append] at hh; subst hh; simp [Host.Core.run]
  | cons r rs ih =>
    have hv (q : Reg) (h : List HostEvent) (l : List Reply) : readReg q { s with host := h, replies := l } = readReg q s := by
      cases q <;> rfl
    have h1 := step_rd (r := r) (rest := (rs.flatMap fun r => rd (offsetOf r)) ++ rest) hp (by simp [hh])
    refine (run_succ_next h1 rs.length).trans ?_
    rw [ih (s := { s with
      host := (rs.flatMap fun r => rd (offsetOf r)) ++ rest
      replies := s.replies ++ [.readDone (readReg r s) .ok] }) hp rfl]
    simp [hv]

/-- `rd128 R`: four steps that change nothing but the host's side, and whose replies give the register's value. -/
theorem run_rd128 {s : State} {r : WideReg} {rest : List HostEvent} (hp : s.pend = none)
    (hh : s.host = rd128 r ++ rest) :
    ∃ l, Sys2Proof.core.run 4 s = .next { s with host := rest, replies := s.replies ++ l } ∧
      rd128Value l = some (wideValue r s) := by
  have h := run_rds ((List.finRange 4).map (wideWord r)) (rest := rest) hp (by simpa [rd128, List.flatMap_map] using hh)
  refine ⟨_, h, ?_⟩
  simp only [List.map_map, Function.comp_def, readReg_wideWord]
  exact congrArg some (words_concat _)

/-- Writes of operand registers, one after another: each replaces its word, and each gets an ordinary response. -/
theorem run_wrs (ws : List (Reg × Word)) {s : State} {rest : List HostEvent}
    (hk : ∀ p ∈ ws, writeKind p.1 = .whenIdle ∧ p.1 ≠ .cmd) (hp : s.pend = none)
    (hh : s.host = (ws.flatMap fun p => wr (offsetOf p.1) p.2) ++ rest) :
    Sys2Proof.core.run ws.length s =
      .next { ws.foldl (fun u p => writeReg p.1 p.2 u) s with
        host := rest, replies := s.replies ++ List.replicate ws.length (.writeDone .ok) } := by
  induction ws generalizing s with
  | nil => simp only [List.flatMap_nil, List.nil_append] at hh; subst hh; simp [Host.Core.run]
  | cons p ws ih =>
    obtain ⟨r, v⟩ := p
    obtain ⟨hw, hc⟩ := hk (r, v) (by simp)
    have hk' : ∀ p ∈ ws, writeKind p.1 = .whenIdle ∧ p.1 ≠ .cmd := fun p h => hk p (by simp [h])
    have h1 := step_wr (r := r) (v := v) (rest := (ws.flatMap fun p => wr (offsetOf p.1) p.2) ++ rest) hp (by rw [hw]; decide)
      (by rw [hh, List.flatMap_cons, List.append_assoc])
    have hpe : (writeReg r v s).pend = s.pend := by cases r <;> first | exact absurd rfl hc | rfl
    have hco : ∀ (q : Reg) (w : Word) (u : State) (hs : List HostEvent) (l : List Reply),
        writeReg q w { u with host := hs, replies := l } = { writeReg q w u with host := hs, replies := l } := by
      intro q w u hs l; cases q <;> rfl
    have hfo : ∀ (qs : List (Reg × Word)) (u : State) (hs : List HostEvent) (l : List Reply),
        qs.foldl (fun u p => writeReg p.1 p.2 u) { u with host := hs, replies := l } =
          { qs.foldl (fun u p => writeReg p.1 p.2 u) u with host := hs, replies := l } := by
      intro qs
      induction qs with
      | nil => intro u hs l; rfl
      | cons q qs ihq =>
        intro u hs l
        exact (congrArg (qs.foldl fun u p => writeReg p.1 p.2 u) (hco q.1 q.2 u hs l)).trans (ihq _ hs l)
    have h2 : ∀ (l : List HostEvent), reply (.writeDone .ok) (writeReg r v { s with host := l }) =
        { writeReg r v s with host := l, replies := s.replies ++ [.writeDone .ok] } := by
      intro l; cases r <;> rfl
    rw [h2] at h1
    refine (run_succ_next h1 ws.length).trans ?_
    refine (ih (s := { writeReg r v s with
      host := (ws.flatMap fun p => wr (offsetOf p.1) p.2) ++ rest
      replies := s.replies ++ [.writeDone .ok] }) hk' (hpe.trans hp) rfl).trans ?_
    rw [hfo]
    simp [List.replicate_succ]

/-- The 128-bit register `ld128` names, holding `h`. -/
def loaded (r : LoadReg) (h : Block) (s : State) : State :=
  match r with
  | .key => { s with key := h }
  | .din => { s with din := h }
  | .aux => { s with aux := h }
  | .tagin => { s with tagin := h }

/-- `ld128 R, h`: four steps after which the register holds `h`, each answered with an ordinary response. -/
theorem run_ld128 {s : State} {r : LoadReg} {h : Block} {rest : List HostEvent} (hp : s.pend = none)
    (hh : s.host = ld128 r h ++ rest) :
    Sys2Proof.core.run 4 s =
      .next (loaded r h { s with host := rest, replies := s.replies ++ List.replicate 4 (.writeDone .ok) }) := by
  have hr := run_wrs ((List.finRange 4).map fun i => (loadWord r i, wordOf h i)) (rest := rest)
    (by cases r <;> simp [loadWord, writeKind]) hp (by simpa [ld128, List.flatMap_map] using hh)
  refine hr.trans (congrArg Host.Outcome.next ?_)
  have hf : ((List.finRange 4).map fun i => (loadWord r i, wordOf h i)).foldl (fun u p => writeReg p.1 p.2 u) s =
      loaded r h s := by
    cases r
    · exact congrArg (fun b => ({ s with key := b } : State)) (setWord_all _ _)
    · exact congrArg (fun b => ({ s with din := b } : State)) (setWord_all _ _)
    · exact congrArg (fun b => ({ s with aux := b } : State)) (setWord_all _ _)
    · exact congrArg (fun b => ({ s with tagin := b } : State)) (setWord_all _ _)
  rw [hf]
  cases r <;> rfl

/-- `cmd` issues its word and polls: after the CMD write the word is pending and the poll is next. -/
theorem step_cmd {i : Instr} {s : State} {es rest : List HostEvent} (hp : s.pend = none) (hc : cmd i = some es)
    (hh : s.host = es ++ rest) :
    step s = .next { s with
      pend := some { word := encode i, left := latency (opOf (encode i)) }
      host := .poll :: rest
      replies := s.replies ++ [.writeDone .ok] } := by
  have hw : i.wellFormed = true := by
    by_contra h
    simp [cmd, assemble, h] at hc
  obtain rfl : wr (offsetOf .cmd) (encode i) ++ waitIdle = es := by simpa [cmd, assemble, hw] using hc
  exact step_wr (r := .cmd) (rest := .poll :: rest) hp (by simp [writeKind]) (by simpa [waitIdle] using hh)

end Sys2Proof.Laws
end

