-- ==== Sys2Proof/Laws/PerInstr.lean ====
section
/-! SUPPORT. Per command: what the fields of its word are, and that the opcode map reads the command back from them
(30_encoding.md rules R70-R72). -/
namespace Sys2Proof.Laws.Fields

/-- The three fields of a command's word are its opcode, its count and 0, and the opcode map answers with the command. -/
def Statement (i : Instr) : Prop :=
  opOf (encode i) = i.opcode ∧ nbytesOf (encode i) = i.count ∧ rsvdOf (encode i) = 0#19 ∧
    instrOf i.opcode i.count = some i

/-- The word's fields hold what the encoder put there, for every command. -/
theorem of_instrOf {i : Instr} (h : instrOf i.opcode i.count = some i) : Statement i :=
  ⟨opOf_encode i, nbytesOf_encode i, rsvdOf_encode i, h⟩

theorem aesEnc : Statement .aesEnc := of_instrOf rfl

theorem gfMul : Statement .gfMul := of_instrOf rfl

theorem tagCmp : Statement .tagCmp := of_instrOf rfl

theorem zeroize : Statement .zeroize := of_instrOf rfl

theorem gcmInitEnc : Statement .gcmInitEnc := of_instrOf rfl

theorem gcmInitDec : Statement .gcmInitDec := of_instrOf rfl

theorem gcmAad (n : BitVec 5) : Statement (.gcmAad n) := of_instrOf rfl

theorem gcmEnc (n : BitVec 5) : Statement (.gcmEnc n) := of_instrOf rfl

theorem gcmDecAuth (n : BitVec 5) : Statement (.gcmDecAuth n) := of_instrOf rfl

theorem gcmFinal : Statement .gcmFinal := of_instrOf rfl

theorem gcmDec (n : BitVec 5) : Statement (.gcmDec n) := of_instrOf rfl

theorem gcmAbort : Statement .gcmAbort := of_instrOf rfl

theorem nonceInit : Statement .nonceInit := of_instrOf rfl

theorem nonceGen : Statement .nonceGen := of_instrOf rfl

theorem nonceValidate : Statement .nonceValidate := of_instrOf rfl

end Sys2Proof.Laws.Fields
end

