-- ==== Sys2Proof/Tests/Slice0.lean ====
section
/-! SUPPORT. Tests: the well-formedness smoke, command words written out from the encoding, one-step results with the expected
values of 95_test_vectors.md and of the rules, and a witness for the hypotheses of every statement. -/
namespace Sys2Proof.Tests

open Sys2Proof.Machine Sys2Proof.Safety

/-! ## Well-formedness (30_encoding.md rule R71) -/

theorem test_ill_formed_aad : (Instr.gcmAad 0#5).wellFormed = false ∧ (Instr.gcmAad 17#5).wellFormed = false := by decide
theorem test_ill_formed_enc : (Instr.gcmEnc 0#5).wellFormed = false ∧ (Instr.gcmEnc 31#5).wellFormed = false := by decide
theorem test_ill_formed_dec_auth :
    (Instr.gcmDecAuth 0#5).wellFormed = false ∧ (Instr.gcmDecAuth 17#5).wellFormed = false := by decide
theorem test_ill_formed_dec : (Instr.gcmDec 0#5).wellFormed = false ∧ (Instr.gcmDec 17#5).wellFormed = false := by decide
theorem test_well_formed_counts : (Instr.gcmAad 1#5).wellFormed = true ∧ (Instr.gcmDec 16#5).wellFormed = true := by decide

/-! ## Words (30_encoding.md rules R70-R75; 95_test_vectors.md section 2.8): RSVD, NBYTES, OP written out bit by bit -/

theorem test_word_aes_enc : decode 0b0000000000000000000_00000_00000001#32 = .ok .aesEnc := by decide
theorem test_word_gf_mul : decode 0b0000000000000000000_00000_00000010#32 = .ok .gfMul := by decide
theorem test_word_tag_cmp : decode 0b0000000000000000000_00000_00000011#32 = .ok .tagCmp := by decide
theorem test_word_zeroize : decode 0b0000000000000000000_00000_00000100#32 = .ok .zeroize := by decide
theorem test_word_gcm_init_enc : decode 0b0000000000000000000_00000_00010000#32 = .ok .gcmInitEnc := by decide
theorem test_word_gcm_init_dec : decode 0b0000000000000000000_00000_00010001#32 = .ok .gcmInitDec := by decide
theorem test_word_gcm_aad : decode 0b0000000000000000000_00100_00010010#32 = .ok (.gcmAad 4#5) := by decide
theorem test_word_gcm_enc : decode 0b0000000000000000000_01100_00010011#32 = .ok (.gcmEnc 12#5) := by decide
theorem test_word_gcm_dec_auth : decode 0b0000000000000000000_10000_00010100#32 = .ok (.gcmDecAuth 16#5) := by decide
theorem test_word_gcm_final : decode 0b0000000000000000000_00000_00010101#32 = .ok .gcmFinal := by decide
theorem test_word_gcm_dec : decode 0b0000000000000000000_01000_00010110#32 = .ok (.gcmDec 8#5) := by decide
theorem test_word_gcm_abort : decode 0b0000000000000000000_00000_00010111#32 = .ok .gcmAbort := by decide
theorem test_word_nonce_init : decode 0b0000000000000000000_00000_00100000#32 = .ok .nonceInit := by decide
theorem test_word_nonce_gen : decode 0b0000000000000000000_00000_00100001#32 = .ok .nonceGen := by decide
theorem test_word_nonce_validate : decode 0b0000000000000000000_00000_00100010#32 = .ok .nonceValidate := by decide

theorem test_words_illegal :
    decode 0x00000000#32 = .error .illegal ∧ decode 0x00000005#32 = .error .illegal ∧
    decode 0x000000FF#32 = .error .illegal ∧ decode 0x00002000#32 = .error .illegal := by decide
theorem test_words_reserved :
    decode 0x00002001#32 = .error .reserved ∧ decode 0x80000010#32 = .error .reserved ∧
    decode 0x0000E021#32 = .error .reserved := by decide
theorem test_words_nbytes :
    decode 0x00000101#32 = .error .nbytes ∧ decode 0x00000012#32 = .error .nbytes ∧
    decode 0x00001112#32 = .error .nbytes ∧ decode 0x00001F13#32 = .error .nbytes := by decide
theorem test_encode_words :
    encode (.gcmAad 1#5) = 0x00000112#32 ∧ encode (.gcmEnc 16#5) = 0x00001013#32 ∧
    encode (.gcmDec 8#5) = 0x00000816#32 ∧ encode .nonceValidate = 0x00000022#32 := by decide
theorem test_table_word : decodeTableWord 32 0x0C13 = some (.gcmEnc 12#5) ∧ decodeTableWord 32 0 = none := by decide

theorem test_assemble : assemble (.gcmEnc 12#5) = some 0x00000C13#32 ∧ assemble (.gcmEnc 17#5) = none := by decide
theorem test_ld128 :
    ld128 .key 0x2b7e151628aed2a6abf7158809cf4f3c#128 =
      wr 0x20#8 0x2b7e1516#32 ++ wr 0x24#8 0x28aed2a6#32 ++ wr 0x28#8 0xabf71588#32 ++ wr 0x2C#8 0x09cf4f3c#32 := by decide
theorem test_rd128_value :
    rd128 .dout = rd 0x70#8 ++ rd 0x74#8 ++ rd 0x78#8 ++ rd 0x7C#8 ∧
    rd128Value [.readDone 0x69c4e0d8#32 .ok, .readDone 0x6a7b0430#32 .ok, .readDone 0xd8cdb780#32 .ok, .readDone 0x70b4c55a#32 .ok] =
      some 0x69c4e0d86a7b0430d8cdb78070b4c55a#128 := by decide
theorem test_cmd :
    cmd (.gcmEnc 12#5) = some [.bus { width := .word, off := 0x00#8, op := .write 0x00000C13#32 }, .poll] := by decide
theorem test_ld96 :
    ld96 0xcafebabefacedbaddecaf888#96 = wr 0x30#8 0xcafebabe#32 ++ wr 0x34#8 0xfacedbad#32 ++ wr 0x38#8 0xdecaf888#32 := by
  decide

/-! ## Functions (95_test_vectors.md sections 1.2, 1.3, 2.1-2.3) -/

theorem test_sbox : sbox 0x00#8 = 0x63#8 ∧ sbox 0x01#8 = 0x7c#8 ∧ sbox 0x53#8 = 0xed#8 ∧ sbox 0xff#8 = 0x16#8 := by decide
theorem test_xtime : xtime 0xae#8 = 0x47#8 ∧ xtime 0x47#8 = 0x8e#8 ∧ xtime 0x8e#8 = 0x07#8 := by decide
theorem test_aes_round_one :
    aesRound (roundKey 0x2b7e151628aed2a6abf7158809cf4f3c#128 1) 0x193de3bea0f4e22b9ac68d2ae9f84808#128 =
      0xa49c7ff2689f352b6b5bea43026a5049#128 := by decide +kernel
theorem test_round_key_five :
    roundKey 0x000102030405060708090a0b0c0d0e0f#128 5 = 0x3caaa3e8a99f9deb50f3af57adf622aa#128 := by decide +kernel
theorem test_aes_ones :
    aes 0xffffffffffffffffffffffffffffffff#128 0xffffffffffffffffffffffffffffffff#128 =
      0xbcbf217cb280cf30b2517052193ab979#128 := by decide +kernel
theorem test_ghash_two_blocks :
    ghash 0x66e94bd4ef8a2c3b884cfa59ca342b2e#128
      [0x0388dace60b6a392f328c2b971b2fe78#128, 0x00000000000000000000000000000080#128] =
        0xf38cbb1ad69223dcc3457ae5b6b0f885#128 := by decide +kernel
theorem test_inc32 :
    inc32 0xcafebabefacedbaddecaf88800000001#128 = 0xcafebabefacedbaddecaf88800000002#128 ∧
    inc32 0x000000000000000000000000ffffffff#128 = 0#128 := by decide
theorem test_mask :
    mask 0x00112233445566778899aabbccddeeff#128 12#5 = 0x00112233445566778899aabb00000000#128 ∧
    mask 0x00112233445566778899aabbccddeeff#128 15#5 = 0x00112233445566778899aabbccddee00#128 := by decide
theorem test_len_block : lenBlock 0xfffffffffffffff8#64 8#64 = 0xfffffffffffffff80000000000000008#128 := by decide

/-! ## One command from a small state -/

/-- The state a command leaves; the reset state if it does not answer a next one. -/
def after (i : Instr) (s : State) : State :=
  match exec i s with
  | .next t => t
  | .fault _ => State.reset
  | .refused _ => State.reset

/-- The state one step leaves. -/
def stepped (s : State) : State :=
  match step s with
  | .next t => t
  | .fault _ => State.reset
  | .refused _ => State.reset

/-- H, E(K, J0) and J0 of test cases 3 and 4 (95_test_vectors.md section 1.3). -/
def h3 : Block := 0xb83b533708bf535d0aa6e52980d53b78#128
def k3 : Block := 0xfeffe9928665731c6d6a8f9467308308#128
def n3 : Nonce := 0xcafebabefacedbaddecaf888#96

/-- A session with K3 and N3 in the state `q`. -/
def session3 (q : Sess) : State :=
  { State.reset with
    skey := k3, h := h3, j0 := 0xcafebabefacedbaddecaf88800000001#128
    ctr := 0xcafebabefacedbaddecaf88800000001#128, sess := q }

theorem test_aes_enc :
    let t := after .aesEnc
      { State.reset with key := 0x000102030405060708090a0b0c0d0e0f#128, din := 0x00112233445566778899aabbccddeeff#128 }
    t.dout = 0x69c4e0d86a7b0430d8cdb78070b4c55a#128 ∧ statusWord t = 0x00000002#32 := by decide +kernel

theorem test_gf_mul :
    (after .gfMul
      { State.reset with din := 0x0388dace60b6a392f328c2b971b2fe78#128, aux := 0x66e94bd4ef8a2c3b884cfa59ca342b2e#128 }).dout =
        0x5e2ec746917062882c85b0685353deb7#128 := by decide +kernel
theorem test_gf_mul_ones :
    (after .gfMul { State.reset with din := BitVec.allOnes 128, aux := BitVec.allOnes 128 }).dout =
      0xf402aaaaaaaaaaaaaaaaaaaaaaaaaaaa#128 := by decide +kernel

theorem test_tag_cmp_equal :
    statusWord (after .tagCmp
      { State.reset with
        din := 0xab6e47d42cec13bdf53a67b21257bddf#128, tagin := 0xab6e47d42cec13bdf53a67b21257bddf#128 }) =
          0x00000006#32 := by decide
theorem test_tag_cmp_last_bit :
    statusWord (after .tagCmp
      { State.reset with
        tagOk := true
        din := 0xab6e47d42cec13bdf53a67b21257bddf#128, tagin := 0xab6e47d42cec13bdf53a67b21257bdde#128 }) =
          0x00000002#32 := by decide

theorem test_zeroize :
    let t := after .zeroize
      { session3 .encText with
        key := k3, nonce := 0xcafebabefacedbad00000000#96, txc := 1#32, din := 5#128, aux := 6#128, tagin := 7#128, dout := 8#128 }
    t.key = 0#128 ∧ t.nonce = 0xcafebabefacedbad00000000#96 ∧ t.txc = 1#32 ∧ t.skey = 0#128 ∧
      t.din = 0#128 ∧ t.aux = 0#128 ∧ t.tagin = 0#128 ∧ t.dout = 0#128 ∧ statusWord t = 0x00000002#32 := by decide

theorem test_gcm_init_enc :
    let t := after .gcmInitEnc { session3 .encText with key := 0#128, nonce := n3, dout := 0x0388#128, lenA := 8#64, tagOk := true }
    t.h = 0x66e94bd4ef8a2c3b884cfa59ca342b2e#128 ∧ t.ctr = 0xcafebabefacedbaddecaf88800000001#128 ∧
      t.lenA = 0#64 ∧ t.dout = 0x0388#128 ∧ statusWord t = 0x00010002#32 := by decide +kernel
theorem test_gcm_init_dec :
    let t := after .gcmInitDec { State.reset with key := k3, nonce := n3 }
    t.h = h3 ∧ t.j0 = 0xcafebabefacedbaddecaf88800000001#128 ∧ statusWord t = 0x00030002#32 := by decide +kernel

theorem test_gcm_aad_short :
    let t := after (.gcmAad 4#5)
      { session3 .encAad with x := 0xed56aaf8a72d67049fdb9228edba1322#128, din := 0xabaddad2ffffffffffffffffffffffff#128 }
    t.x = 0xcd47221ccef0554ee4bb044c88150352#128 ∧ t.lenA = 32#64 ∧ statusWord t = 0x00090002#32 := by decide +kernel
theorem test_gcm_aad_after_short :
    statusWord (after (.gcmAad 16#5) { session3 .encAad with partialBlk := true, done := true }) = 0x00090402#32 := by decide

theorem test_gcm_enc_short :
    let t := after (.gcmEnc 12#5)
      { session3 .encText with
        x := 0xca7dd446af4aa70cc3c0cd5abba6aa1c#128, ctr := 0xcafebabefacedbaddecaf88800000004#128
        din := 0xb16aedf5aa0de657ba637b391aafd255#128 }
    t.dout = 0x1ba30b396a0aac973d58e09100000000#128 ∧ t.x = 0x1590df9b2eb6768289e57d56274c8570#128 ∧
      statusWord t = 0x000a0002#32 := by decide +kernel
theorem test_gcm_enc_idle : statusWord (after (.gcmEnc 16#5) State.reset) = 0x00000402#32 := by decide

theorem test_gcm_dec_auth :
    let t := after (.gcmDecAuth 16#5)
      { session3 .decAad with
        partialBlk := true, x := 0xcd47221ccef0554ee4bb044c88150352#128, din := 0x42831ec2217774244b7221b784d0d49c#128
        dout := 9#128 }
    t.x = 0x54f5e1b2b5a8f9525c23924751a3ca51#128 ∧ t.dout = 9#128 ∧ t.ctr = t.j0 ∧
      statusWord t = 0x00040002#32 := by decide +kernel

theorem test_gcm_final_enc :
    let t := after .gcmFinal
      { session3 .encText with x := 0x1590df9b2eb6768289e57d56274c8570#128, lenA := 160#64, lenC := 480#64, partialBlk := true }
    t.dout = 0x5bc94fbc3221a5db94fae95ae7121a47#128 ∧ t.skey = 0#128 ∧ statusWord t = 0x00060002#32 := by decide +kernel
theorem test_gcm_final_dec :
    let s := { session3 .decAuth with x := 0x1590df9b2eb6768289e57d56274c8570#128, lenA := 160#64, lenC := 480#64, dout := 1#128 }
    let t := after .gcmFinal { s with tagin := 0x5bc94fbc3221a5db94fae95ae7121a47#128 }
    let f := after .gcmFinal { s with tagin := 0x5bc94fbc3221a5db94fae95ae7121a46#128 }
    t.rem = 480#64 ∧ t.dout = 0#128 ∧ t.skey = k3 ∧ statusWord t = 0x00050006#32 ∧
      f.skey = 0#128 ∧ f.dout = 0#128 ∧ statusWord f = 0x00070002#32 := by decide +kernel

theorem test_gcm_dec_last :
    let t := after (.gcmDec 12#5)
      { session3 .decRelease with
        rem := 96#64, ctr := 0xcafebabefacedbaddecaf88800000004#128, tagOk := true
        din := 0x1ba30b396a0aac973d58e09100000000#128 }
    t.dout = 0xb16aedf5aa0de657ba637b3900000000#128 ∧ t.ctr = 0#128 ∧ statusWord t = 0x00060006#32 := by decide +kernel
theorem test_gcm_dec_length :
    let s := { session3 .decRelease with rem := 96#64, tagOk := true, dout := 9#128 }
    statusWord (after (.gcmDec 16#5) s) = 0x00050606#32 ∧ statusWord (after (.gcmDec 11#5) s) = 0x00050606#32 ∧
      (after (.gcmDec 13#5) s).dout = 9#128 ∧ (after (.gcmDec 13#5) s).rem = 96#64 := by decide +kernel

theorem test_gcm_abort :
    let t := after .gcmAbort { session3 .decAad with key := k3, dout := 9#128, tagOk := true }
    t.key = k3 ∧ t.skey = 0#128 ∧ t.dout = 0#128 ∧ statusWord t = 0x00000002#32 := by decide

theorem test_nonce_init :
    let t := after .nonceInit { State.reset with txc := 7#32, rxhw := 9#32, nexh := true, nvalid := true, nres := 6#32, nonce := 5#96 }
    t.txc = 0#32 ∧ t.rxhw = 0#32 ∧ t.nres = 0#32 ∧ t.nonce = 5#96 ∧ statusWord t = 0x00000002#32 := by decide
theorem test_nonce_gen_last :
    let t := after .nonceGen { State.reset with txc := 0xffffffff#32, nonce := 0xcafebabefacedbad00000000#96 }
    t.nres = 0xffffffff#32 ∧ t.txc = 0#32 ∧ t.nonce = 0xcafebabefacedbadffffffff#96 ∧ statusWord t = 0x00000012#32 := by decide
theorem test_nonce_gen_exhausted :
    let t := after .nonceGen { State.reset with nexh := true, nres := 0xffffffff#32 }
    t.nres = 0xffffffff#32 ∧ t.txc = 0#32 ∧ statusWord t = 0x00000512#32 := by decide
theorem test_nonce_validate_unsigned :
    let t := after .nonceValidate { State.reset with rxhw := 0x7fffffff#32, nval := 0x80000000#32 }
    t.rxhw = 0x80000000#32 ∧ t.nvalid = true := by decide
theorem test_nonce_validate_equal :
    let t := after .nonceValidate { State.reset with rxhw := 5#32, nval := 5#32, nvalid := true }
    t.rxhw = 5#32 ∧ t.nvalid = false := by decide

/-! ## The window, the engine and reset (95_test_vectors.md sections 2.9-2.12) -/

theorem test_reads_from_reset :
    (busOp 0x0C#8 .read State.reset).replies = [.readDone 0x41470001#32 .ok] ∧
    (busOp 0x3C#8 .read State.reset).replies = [.readDone 0#32 .error] ∧
    (busOp 0x41#8 .read State.reset).replies = [.readDone 0#32 .error] := by decide
theorem test_write_irq_en :
    let t := busOp 0x08#8 (.write 0xffffffff#32) State.reset
    readReg .irqEn t = 1#32 ∧ t.replies = [.writeDone .ok] := by decide
theorem test_write_din_word_zero :
    let t := busOp 0x40#8 (.write 0x00112233#32) { State.reset with din := BitVec.allOnes 128 }
    t.din = 0x00112233ffffffffffffffffffffffff#128 ∧ byteOf t.din 3 = 0x33#8 := by decide
theorem test_write_nonce_word_two :
    preCounter (busOp 0x38#8 (.write 0x00000001#32) State.reset).nonce = 0x00000000000000000000000100000001#128 := by decide
theorem test_drop_while_busy :
    let s := { State.reset with pend := some { word := 1#32, left := 2 } }
    let t := busOp 0x40#8 (.write 5#32) s
    statusWord s = 0x00000001#32 ∧ t.din = 0#128 ∧ statusWord t = 0x00000021#32 := by decide
theorem test_completion_with_overrun :
    let t := stepped { State.reset with pend := some { word := 1#32, left := 1 }, overrun := true, host := [.idle] }
    statusWord t = 0x00000022#32 ∧ t.dout = 0x66e94bd4ef8a2c3b884cfa59ca342b2e#128 ∧ t.cmdLast = 1#32 := by decide +kernel
theorem test_illegal_word :
    let t := stepped { State.reset with pend := some { word := 0#32, left := 1 }, doneIe := true }
    statusWord t = 0x00000102#32 ∧ irq t = true := by decide
theorem test_poll_while_busy :
    let t := stepped { State.reset with pend := some { word := 0x20#32, left := 1 }, host := [.poll] }
    t.replies = [.readDone 0x00000001#32 .ok] ∧ t.host = [.poll] ∧ t.busy = false := by decide
theorem test_poll_ends :
    let t := stepped { State.reset with done := true, host := [.poll] }
    t.replies = [.readDone 0x00000002#32 .ok] ∧ t.host = [] := by decide
theorem test_first_command_after_reset :
    let t := stepped (State.reset.withFetchWord 32 0x21)
    t.nres = 0#32 ∧ t.txc = 1#32 ∧ statusWord t = 0x00000002#32 := by decide
theorem test_final_after_reset_in_session :
    statusWord (after .gcmFinal (stepped { session3 .encText with host := [.reset none] })) = 0x00000402#32 := by decide

/-! ## Witnesses: for every statement with hypotheses, states and operands that meet them, clause by clause -/

/-- A pending AES_ENC with `left` cycles to go, and a host that still does `es`. -/
def pending (left : Nat) (es : List HostEvent) : State :=
  { State.reset with pend := some { word := 0x00000001#32, left := left }, host := es }

/-- A word access. -/
def access (off : BitVec 8) (op : BusOp) : HostEvent := .bus { width := .word, off := off, op := op }

theorem test_hyp_DecodeOfEncode :
    (Instr.gcmAad 1#5).wellFormed = true ∧ (Instr.gcmDec 16#5).wellFormed = true ∧ Instr.aesEnc.wellFormed = true := by decide
theorem test_hyp_EncodeOfDecode : decode 0x00001013#32 = .ok (.gcmEnc 16#5) ∧ decode 0x00000022#32 = .ok .nonceValidate := by
  decide
theorem test_hyp_ReservedWordsRejected :
    instrOf (opOf 0x00000005#32) 0#5 = none ∧ rsvdOf 0x00002001#32 ≠ 0#19 ∧ opOf 0x00002001#32 = 0x01#8 ∧
    nbytesOf 0x00001112#32 = 17#5 ∧ nbytesOf 0x00000012#32 = 0#5 ∧ nbytesOf 0x00000101#32 = 1#5 ∧
    nbytesOf 0x00000112#32 = 1#5 ∧ nbytesOf 0x00001016#32 = 16#5 ∧ opOf 0x00001016#32 = 0x16#8 ∧
    rsvdOf 0x00001016#32 = 0#19 ∧ nbytesOf 0x00000022#32 = 0#5 := by decide
theorem test_hyp_ErrorPriority :
    (Instr.gcmEnc 17#5).wellFormed = false ∧
    accepted (.gcmEnc 16#5) State.reset.sess State.reset.partialBlk = false ∧
    accepted .gcmFinal (session3 .encAad).sess (session3 .encAad).partialBlk = true ∧
    instrOf (opOf 0x00002000#32) (nbytesOf 0x00002000#32) = none ∧
    instrOf (opOf 0x00002001#32) (nbytesOf 0x00002001#32) ≠ none ∧ rsvdOf 0x00002001#32 ≠ 0#19 ∧
    (session3 .decAuth).sess = .decAuth := by decide
theorem test_hyp_ErroredCommandOnlyCompletes :
    (∃ t, runWord 0x00000000#32 State.reset = .next t ∧ t.errcode ≠ .ok) ∧
    ∃ t, runWord 0x00001012#32 State.reset = .next t ∧ t.errcode ≠ .ok :=
  ⟨⟨_, rfl, by decide⟩, ⟨_, rfl, by decide⟩⟩
theorem test_hyp_OutcomeCodes :
    (∃ t, runWord 0x00000005#32 State.reset = .next t ∧ t.errcode = .illegal) ∧
    (∃ t, runWord 0x80000010#32 State.reset = .next t ∧ t.errcode = .reserved) ∧
    (∃ t, runWord 0x00001112#32 State.reset = .next t ∧ t.errcode = .nbytes) ∧
    (∃ t, runWord 0x00001016#32 State.reset = .next t ∧ t.errcode = .sequence) ∧
    (∃ t, runWord 0x00000021#32 { State.reset with nexh := true } = .next t ∧ t.errcode = .exhausted) ∧
    (∃ t, runWord 0x00000816#32 { session3 .decRelease with rem := 128#64 } = .next t ∧ t.errcode = .length) :=
  ⟨⟨_, rfl, rfl⟩, ⟨_, rfl, rfl⟩, ⟨_, rfl, rfl⟩, ⟨_, rfl, rfl⟩, ⟨_, rfl, rfl⟩, ⟨_, rfl, rfl⟩⟩
theorem test_hyp_NegativeResultsAreOk :
    sessionTag (session3 .decAad) ≠ (session3 .decAad).tagin ∧
    sessionTag (session3 .decAuth) ≠ (session3 .decAuth).tagin ∧
    { State.reset with din := 1#128 }.din ≠ State.reset.tagin ∧ State.reset.nval.toNat ≤ State.reset.rxhw.toNat := by
  decide +kernel
theorem test_hyp_StepRunsDecodedCommand :
    (pending 1 []).pend = some { word := 1#32, left := 1 } ∧ decode 1#32 = .ok .aesEnc ∧ (pending 1 []).host = [] ∧
    (pending 9 [.wait]).host = .wait :: [] ∧ (pending 1 [.idle]).host = .idle :: [] ∧
    (pending 1 [access 0x04#8 .read]).host = access 0x04#8 .read :: [] ∧ (pending 1 [.poll]).host = .poll :: [] ∧
    decodeTableWord 16 0x1012 = some (.gcmAad 16#5) := by decide
theorem test_hyp_CyclesBeforeCompletion :
    State.reset.pend = none ∧ State.reset.host = [] ∧ { State.reset with host := [.idle] }.host = .idle :: [] ∧
    { State.reset with host := [.wait] }.host = .wait :: [] ∧
    { State.reset with host := [access 0x40#8 (.write 1#32)] }.host = access 0x40#8 (.write 1#32) :: [] ∧
    (pending 2 [.idle]).pend = some { word := 1#32, left := 2 } ∧ (pending 2 [.idle]).host = .idle :: [] ∧
    (pending 2 [access 0x04#8 .read]).host = access 0x04#8 .read :: [] ∧ (pending 2 [.poll]).host = .poll :: [] ∧
    { State.reset with host := [.poll] }.host = .poll :: [] := by decide
theorem test_hyp_CommandIssue :
    State.reset.pend = none ∧ (∃ t, runWord 0x00000002#32 State.reset = .next t) ∧ (pending 1 []).busy = true :=
  ⟨rfl, ⟨_, rfl⟩, rfl⟩
theorem test_hyp_LatencyCountsDown :
    instrOf 0x00#8 0#5 = none ∧ instrOf 0xFF#8 0#5 = none ∧
    ∃ s : State, s.pend = none ∧
      s.host = access 0x00#8 (.write 0x00000001#32) :: (List.replicate (latency 0x01#8) .idle ++ [.wait]) :=
  ⟨by decide, by decide, { State.reset with
      host := access 0x00#8 (.write 0x00000001#32) :: (List.replicate (latency 0x01#8) .idle ++ [.wait]) }, rfl, rfl⟩
theorem test_hyp_MisalignedAndReserved :
    (0x01#8).extractLsb' 0 2 ≠ 0#2 ∧ (0xFF#8).extractLsb' 0 2 ≠ 0#2 ∧ 0x80 ≤ (0x80#8).toNat ∧ 0x80 ≤ (0xFC#8).toNat := by
  decide
theorem test_hyp_ReadOnlyAndWriteOnly :
    (0x0C#8) ∈ [0x0C#8, 0x10#8, 0x18#8, 0x1C#8, 0x70#8, 0x74#8, 0x78#8, 0x7C#8] ∧
    (0x2C#8) ∈ [0x20#8, 0x24#8, 0x28#8, 0x2C#8] ∧
    ((0x00#8).extractLsb' 0 2 = 0#2 ∧ (0x00#8).toNat < 0x80) ∧
    ((0x6C#8).extractLsb' 0 2 = 0#2 ∧ (0x6C#8).toNat < 0x80 ∧ 0x6C#8 ≠ 0x3C#8 ∧
      0x6C#8 ∉ [0x0C#8, 0x10#8, 0x18#8, 0x1C#8, 0x70#8, 0x74#8, 0x78#8, 0x7C#8]) ∧ State.reset.busy = false := by decide
theorem test_hyp_BlockWordLayout : State.reset.pend = none ∧ (session3 .encText).pend = none := by decide
theorem test_hyp_NonceAndWordRegisters : { State.reset with nonce := n3 }.pend = none := by decide
theorem test_hyp_BusyWrites :
    (pending 1 []).busy = true ∧
    (0x00#8) ∈ [0x00#8, 0x14#8, 0x6C#8] ∧ (0x6C#8) ∈ [0x64#8, 0x68#8, 0x6C#8] := by decide
theorem test_hyp_BusyReads : State.reset.pend = none ∧ 0x7C#8 ≠ 0x04#8 ∧ 0x03#8 ≠ 0x04#8 := by decide
theorem test_hyp_SubWordRefused :
    let b : Access := { width := .byte, off := 0x40#8, op := .read }
    let h : Access := { width := .half, off := 0x42#8, op := .write 0#32 }
    b.width = .byte ∧ h.width = .half ∧ { State.reset with host := [.bus b] }.host = .bus b :: [] ∧
      { State.reset with host := [.reset (some h)] }.host = .reset (some h) :: [] := by decide
theorem test_hyp_SecretsUnreadable : SameVisible State.reset { State.reset with key := k3, skey := k3, h := h3, rem := 8#64 } :=
  ⟨k3, k3, h3, 0#128, 0#128, 0#128, 0#64, 0#64, 8#64, rfl⟩
theorem test_hyp_ResetState : { session3 .encText with host := [.reset none, .idle] }.host = .reset none :: [.idle] := by decide
theorem test_hyp_ResetWins :
    let a : Access := { width := .word, off := 0x40#8, op := .read }
    (pending 1 [.reset (some a)]).host = .reset (some a) :: [] ∧ (∀ b, some a = some b → b.width = .word) ∧
      (pending 1 [.reset none]).host = .reset none :: [] := by
  refine ⟨rfl, ?_, rfl⟩
  rintro b ⟨⟩
  rfl
theorem test_hyp_InterruptOutput :
    (∃ t, runWord 0x00000003#32 { State.reset with doneIe := true } = .next t) ∧
    (0#32).getLsbD 0 = false ∧ (1#32).getLsbD 0 = true ∧ (2#32).getLsbD 1 = true := ⟨⟨_, rfl⟩, by decide⟩
theorem test_hyp_CompletionWins :
    (pending 1 [access 0x04#8 (.write 2#32)]).host = access 0x04#8 (.write 2#32) :: [] ∧
    (pending 1 [.reset none]).host = .reset none :: [] ∧
    (let a : Access := { width := .word, off := 0x04#8, op := .write 2#32 }
     (pending 1 [.reset (some a)]).host = .reset (some a) :: [] ∧ a.width = .word) ∧
    (pending 1 []).pend = some { word := 1#32, left := 1 } := by decide
theorem test_hyp_OverrunSetAndCleared :
    (∃ t, step (pending 5 [access 0x40#8 (.write 0#32)]) = .next t ∧ t.overrun = true) ∧
    (∃ t, step { State.reset with overrun := true, host := [access 0x04#8 (.write 0x20#32)] } = .next t ∧ t.overrun = false) ∧
    (∃ t, step { State.reset with overrun := true, host := [.reset none] } = .next t ∧ t.overrun = false) ∧
    ((pending 5 []).busy = true ∧ regAt 0x00#8 = some .cmd ∧ writeKind .cmd = .whenIdle ∧
      regAt 0x6C#8 = some (.tagin 3) ∧ writeKind (.tagin 3) = .whenIdle) ∧ (0x20#32).getLsbD 5 = true :=
  ⟨⟨_, rfl, rfl⟩, ⟨_, rfl, rfl⟩, ⟨_, rfl, rfl⟩, by decide⟩
theorem test_hyp_OverrunSetAndCleared_step :
    writing (pending 5 [access 0x40#8 (.write 0#32)]) 0x40#8 ∧ regAt 0x40#8 = some (.din 0) ∧ writeKind (.din 0) = .whenIdle :=
  ⟨⟨_, _, rfl⟩, by decide, by decide⟩
theorem test_hyp_SboxIsAffineOfInverse : (0x01#8 : Byte) ≠ 0#8 ∧ (0xFF#8 : Byte) ≠ 0#8 := by decide
theorem test_hyp_RoundTransformations :
    (0 : Fin 4) = 0 ∧ (1 : Fin 4) = 1 ∧ (2 : Fin 4) = 2 ∧ (3 : Fin 4) = 3 := by decide
theorem test_hyp_KeySchedule : (4 ≤ 4 ∧ 4 < 44 ∧ 4 % 4 = 0) ∧ (4 ≤ 40 ∧ 40 < 44 ∧ 40 % 4 = 0) ∧ (4 ≤ 43 ∧ 43 < 44 ∧ 43 % 4 ≠ 0) := by
  decide
theorem test_hyp_BuildingBlocks :
    (1 ≤ (1#5).toNat ∧ (1#5).toNat ≤ 16) ∧ (1 ≤ (16#5).toNat ∧ (16#5).toNat ≤ 16) := by decide

/-- A word with the opcode of `i` that has a reserved bit set, and one whose count `i` does not take, so that the
hypotheses of `RejectsBadFields i` are met. -/
def BadFieldsMet (i : Instr) : Prop :=
  (∃ w, opOf w = i.opcode ∧ rsvdOf w ≠ 0#19) ∧ ∃ w, opOf w = i.opcode ∧ rsvdOf w = 0#19 ∧ i.allowsCount (nbytesOf w) = false

theorem test_hyp_RejectsBadFields_fixed :
    BadFieldsMet .aesEnc ∧ BadFieldsMet .gfMul ∧ BadFieldsMet .tagCmp ∧ BadFieldsMet .zeroize ∧ BadFieldsMet .gcmInitEnc ∧
    BadFieldsMet .gcmInitDec ∧ BadFieldsMet .gcmFinal ∧ BadFieldsMet .gcmAbort ∧ BadFieldsMet .nonceInit ∧
    BadFieldsMet .nonceGen ∧ BadFieldsMet .nonceValidate :=
  ⟨⟨⟨0x00002001#32, by decide⟩, ⟨0x00000101#32, by decide⟩⟩, ⟨⟨0x00002002#32, by decide⟩, ⟨0x00001F02#32, by decide⟩⟩,
    ⟨⟨0x80000003#32, by decide⟩, ⟨0x00000103#32, by decide⟩⟩, ⟨⟨0x00002004#32, by decide⟩, ⟨0x00000104#32, by decide⟩⟩,
    ⟨⟨0x80000010#32, by decide⟩, ⟨0x00000110#32, by decide⟩⟩, ⟨⟨0x00002011#32, by decide⟩, ⟨0x00000111#32, by decide⟩⟩,
    ⟨⟨0x00002015#32, by decide⟩, ⟨0x00000115#32, by decide⟩⟩, ⟨⟨0x00002017#32, by decide⟩, ⟨0x00000117#32, by decide⟩⟩,
    ⟨⟨0x00002020#32, by decide⟩, ⟨0x00000120#32, by decide⟩⟩, ⟨⟨0x0000E021#32, by decide⟩, ⟨0x00000121#32, by decide⟩⟩,
    ⟨⟨0x00002022#32, by decide⟩, ⟨0x00000122#32, by decide⟩⟩⟩
theorem test_hyp_RejectsBadFields_block :
    BadFieldsMet (.gcmAad 16#5) ∧ BadFieldsMet (.gcmEnc 16#5) ∧ BadFieldsMet (.gcmDecAuth 16#5) ∧ BadFieldsMet (.gcmDec 16#5) :=
  ⟨⟨⟨0x00003012#32, by decide⟩, ⟨0x00000012#32, by decide⟩⟩, ⟨⟨0x00003013#32, by decide⟩, ⟨0x00001113#32, by decide⟩⟩,
    ⟨⟨0x00003014#32, by decide⟩, ⟨0x00000014#32, by decide⟩⟩, ⟨⟨0x00003016#32, by decide⟩, ⟨0x00001F16#32, by decide⟩⟩⟩

/-- The counts the block statements meet: 0 and 17 illegal, 1 and 16 legal. -/
theorem test_hyp_block_counts :
    ((0#5).toNat = 0 ∨ 16 < (0#5).toNat) ∧ ((17#5).toNat = 0 ∨ 16 < (17#5).toNat) ∧
    (1 ≤ (1#5).toNat ∧ (1#5).toNat ≤ 16) ∧ (1 ≤ (16#5).toNat ∧ (16#5).toNat ≤ 16) := by decide
theorem test_hyp_GcmAadResult :
    (∀ q : Sess, q = .encAad ∨ q = .decAad → (session3 q).sess = q ∧ (session3 q).partialBlk = false) ∧
    ¬(((session3 .encText).sess = .encAad ∨ (session3 .encText).sess = .decAad) ∧ (session3 .encText).partialBlk = false) ∧
    { session3 .encAad with partialBlk := true }.partialBlk ≠ false := by
  refine ⟨fun q _ => ⟨rfl, rfl⟩, by decide, by decide⟩
theorem test_hyp_GcmEncResult :
    { session3 .encAad with partialBlk := true }.sess = .encAad ∧
    ((session3 .encText).sess = .encText ∧ (session3 .encText).partialBlk = false) ∧
    ¬({ session3 .encText with partialBlk := true }.sess = .encAad ∨
      ({ session3 .encText with partialBlk := true }.sess = .encText ∧
        { session3 .encText with partialBlk := true }.partialBlk = false)) := by decide
theorem test_hyp_GcmDecAuthResult :
    { session3 .decAad with partialBlk := true }.sess = .decAad ∧
    ((session3 .decAuth).sess = .decAuth ∧ (session3 .decAuth).partialBlk = false) ∧
    ¬({ session3 .decAuth with partialBlk := true }.sess = .decAad ∨
      ({ session3 .decAuth with partialBlk := true }.sess = .decAuth ∧
        { session3 .decAuth with partialBlk := true }.partialBlk = false)) := by decide
theorem test_hyp_GcmFinalResult :
    (session3 .encAad).sess = .encAad ∧ (session3 .encText).sess = .encText ∧
    (let s := session3 .decAad
     gfMul (s.x ^^^ (s.lenA ++ s.lenC : Block)) s.h ^^^ aes s.skey s.j0 ≠ s.tagin) ∧
    (let s := { session3 .decAad with tagin := 0x3247184b3c4f69a44dbcd22887bbb418#128 }
     gfMul (s.x ^^^ (s.lenA ++ s.lenC : Block)) s.h ^^^ aes s.skey s.j0 = s.tagin ∧ s.lenC = 0#64) ∧
    (let s :=
      { session3 .decAuth with
        x := 0x1590df9b2eb6768289e57d56274c8570#128, lenA := 160#64, lenC := 480#64
        tagin := 0x5bc94fbc3221a5db94fae95ae7121a47#128 }
     gfMul (s.x ^^^ (s.lenA ++ s.lenC : Block)) s.h ^^^ aes s.skey s.j0 = s.tagin ∧ s.lenC ≠ 0#64) ∧
    State.reset.sess = .idle ∧ (session3 .decRelease).sess = .decRelease ∧ (session3 .done).sess = .done ∧
    (session3 .rejected).sess = .rejected := by decide +kernel
theorem test_hyp_GcmDecResult :
    (let s := { session3 .decRelease with rem := 96#64 }
     s.sess = .decRelease ∧ s.rem.toNat < 8 * (13#5).toNat ∧ ((11#5).toNat < 16 ∧ 8 * (11#5).toNat ≠ s.rem.toNat) ∧
       (¬(s.rem.toNat < 8 * (12#5).toNat ∨ ((12#5).toNat < 16 ∧ 8 * (12#5).toNat ≠ s.rem.toNat)) ∧
         s.rem.toNat = 8 * (12#5).toNat)) ∧
    (let s := { session3 .decRelease with rem := 224#64 }
     ¬(s.rem.toNat < 8 * (16#5).toNat ∨ ((16#5).toNat < 16 ∧ 8 * (16#5).toNat ≠ s.rem.toNat)) ∧
       s.rem.toNat ≠ 8 * (16#5).toNat) ∧
    (let s := { session3 .decRelease with rem := 128#64 }
     ¬(s.rem.toNat < 8 * (16#5).toNat ∨ ((16#5).toNat < 16 ∧ 8 * (16#5).toNat ≠ s.rem.toNat)) ∧
       s.rem.toNat = 8 * (16#5).toNat) ∧
    (session3 .decAuth).sess ≠ .decRelease := by decide
theorem test_hyp_AcceptanceTable :
    ((session3 .encAad).sess = .encAad ∧ (session3 .encAad).partialBlk = false) ∧ (session3 .decAad).sess = .decAad ∧
    (session3 .encText).sess = .encText ∧ (session3 .decAuth).sess = .decAuth ∧ ¬ Absorbing State.reset ∧
    Absorbing (session3 .decAuth) ∧ (session3 .decRelease).sess = .decRelease ∧ State.reset.sess ≠ .decRelease := by
  unfold Absorbing
  decide
theorem test_hyp_NonceCommandResults :
    { State.reset with nexh := true }.nexh = true ∧ State.reset.nexh = false ∧
    State.reset.rxhw.toNat < { State.reset with nval := 1#32 }.nval.toNat ∧
    { State.reset with rxhw := 0xFFFFFFFF#32, nval := 0xFFFFFFFF#32 }.nval.toNat ≤ (0xFFFFFFFF#32).toNat := by decide
theorem test_hyp_NonceSequences :
    (2 ^ 32 ≤ 2 ^ 32) ∧ (∃ t, runOne .nonceValidate { State.reset with nval := 6#32 } = some t) ∧
    (∃ t, runOne .nonceValidate { State.reset with nval := 5#32 } = some t) ∧ State.reset.rxhw ≠ 0xFFFFFFFF#32 :=
  ⟨by decide, ⟨_, rfl⟩, ⟨_, rfl⟩, by decide⟩
theorem test_hyp_ExhaustionSticks :
    (∃ t, step { State.reset with txc := 0xFFFFFFFF#32, pend := some { word := 0x21#32, left := 1 } } = .next t ∧ t.nexh = true) ∧
    (∃ t, step { State.reset with nexh := true, pend := some { word := 0x20#32, left := 1 } } = .next t ∧ t.nexh = false) ∧
    (∃ t, step { State.reset with nexh := true, pend := some { word := 0x21#32, left := 1 } } = .next t ∧ t.nexh = true) ∧
    (∃ t, step { State.reset with nexh := true, host := [.reset none] } = .next t ∧ t.nexh = false) ∧
    About .nonceInit { State.reset with pend := some { word := 0x20#32, left := 1 } } ∧
    About .nonceGen { State.reset with nexh := true, pend := some { word := 0x21#32, left := 1 } } :=
  ⟨⟨_, rfl, rfl⟩, ⟨_, rfl, rfl⟩, ⟨_, rfl, rfl⟩, ⟨_, rfl, rfl⟩, ⟨_, rfl, rfl⟩, ⟨_, rfl, rfl⟩⟩

/-- A running session that meets the invariant, a block of it pending. -/
def running : State := { session3 .encText with pend := some { word := 0x1013#32, left := 1 } }

theorem test_running_subkey : running.h = aes running.skey 0#128 := by decide +kernel
theorem test_running_inv : Inv running where
  ended := by rintro (h | h | h) <;> cases h
  subkey _ := test_running_subkey
  counter _ := by decide
  unused := by rintro (h | h | h) <;> cases h
  noText := by rintro (h | h) <;> cases h
  release h := by cases h
  noRem _ := rfl
  wholeBytes := by decide
  exhausted h := by cases h
  cycles p h := by cases h; decide
theorem test_hyp_InvKept : Inv running ∧ ∃ t, step running = .next t ∧ t.sess = .encText ∧ t.lenC = 128#64 :=
  ⟨test_running_inv, ⟨_, rfl, rfl, rfl⟩⟩
theorem test_hyp_RunsEnd_poll :
    (pending 1 [.poll]).pend = some { word := 1#32, left := 1 } ∧ (pending 9 [.poll, .idle]).host = .poll :: [.idle] ∧
    1 ≤ ({ word := 1#32, left := 1 } : Pending).left ∧ { State.reset with host := [.poll] }.pend = none ∧
    HostEvent.poll ∉ (pending 7 [.wait, .idle]).host := by decide
theorem test_hyp_RunsEnd_words : WordHost (pending 7 [.poll, .idle]) ∧ WordHost (pending 7 [.wait, .idle]) := by
  constructor <;> (intro e he; revert e; decide)
theorem test_hyp_RunsEnd :
    WordHost (pending 7 [.wait, access 0x04#8 .read, .idle, .reset none, .reset (some { width := .word, off := 0#8, op := .read })]) := by
  intro e he
  revert e
  decide
theorem test_hyp_OperandWriters :
    (∃ t, step { State.reset with host := [access 0x20#8 (.write 1#32)] } = .next t ∧ t.key ≠ 0#128) ∧
    (∃ t, step { State.reset with host := [access 0x38#8 (.write 1#32)] } = .next t ∧ t.nonce ≠ 0#96) ∧
    (∃ t, step { State.reset with host := [access 0x4C#8 (.write 1#32)] } = .next t ∧ t.din ≠ 0#128) ∧
    (∃ t, step { State.reset with host := [access 0x50#8 (.write 1#32)] } = .next t ∧ t.aux ≠ 0#128) ∧
    (∃ t, step { State.reset with host := [access 0x60#8 (.write 1#32)] } = .next t ∧ t.tagin ≠ 0#128) ∧
    (∃ t, step { State.reset with host := [access 0x14#8 (.write 1#32)] } = .next t ∧ t.nval ≠ 0#32) :=
  ⟨⟨_, rfl, by decide⟩, ⟨_, rfl, by decide⟩, ⟨_, rfl, by decide⟩, ⟨_, rfl, by decide⟩, ⟨_, rfl, by decide⟩, ⟨_, rfl, by decide⟩⟩
theorem test_hyp_ResultWriters :
    (∃ t, step { State.reset with dout := 1#128, pend := some { word := 0x17#32, left := 1 } } = .next t ∧ t.dout = 0#128) ∧
    (∃ t, step { State.reset with nres := 7#32, pend := some { word := 0x21#32, left := 1 } } = .next t ∧
      t.txc ≠ 0#32 ∧ t.nres = 0#32) ∧
    (∃ t, step { State.reset with nval := 5#32, pend := some { word := 0x22#32, left := 1 } } = .next t ∧
      t.rxhw ≠ 0#32 ∧ t.nvalid = true) ∧
    (∃ t, step { State.reset with pend := some { word := 0x03#32, left := 1 } } = .next t ∧ t.tagOk = true) :=
  ⟨⟨_, rfl, by decide⟩, ⟨_, rfl, by decide, by decide⟩, ⟨_, rfl, by decide, by decide⟩, ⟨_, rfl, by decide⟩⟩

theorem test_hyp_CompletionFlagWriters :
    (∃ t, step (pending 1 [.idle]) = .next t ∧ completing (pending 1 [.idle]) = some 1#32 ∧ (pending 1 [.idle]).done = false ∧
      t.done = true ∧ t.cmdLast ≠ State.reset.cmdLast) ∧
    (∃ t, step { State.reset with done := true, host := [access 0x04#8 (.write 2#32)] } = .next t ∧ t.done = false) ∧
    (∃ t, step { State.reset with pend := some { word := 0#32, left := 1 } } = .next t ∧ t.errcode ≠ .ok) ∧
    (∃ t, step { State.reset with host := [access 0x08#8 (.write 1#32)] } = .next t ∧ t.doneIe = true) ∧
    (∃ t, step { State.reset with host := [access 0x00#8 (.write 1#32)] } = .next t ∧ t.busy = true) ∧
    (∃ t, step (pending 1 [.reset none]) = .next t ∧ (pending 1 [.reset none]).busy = true ∧ t.busy = false) ∧
    ∃ t q, step (pending 2 [.idle]) = .next t ∧ (pending 2 [.idle]).pend = some { word := 1#32, left := 2 } ∧ t.pend = some q :=
  ⟨⟨_, rfl, rfl, rfl, rfl, by decide⟩, ⟨_, rfl, rfl⟩, ⟨_, rfl, by decide⟩, ⟨_, rfl, rfl⟩, ⟨_, rfl, rfl⟩, ⟨_, rfl, rfl, rfl⟩,
    ⟨_, _, rfl, rfl, rfl⟩⟩
theorem test_hyp_SessionWriters : ∃ t, step running = .next t ∧ t.lenC ≠ running.lenC := ⟨_, rfl, by decide⟩

/-- A decryption session of test case 4 with GCM_FINAL pending and the right tag. -/
def verifying : State :=
  { session3 .decAuth with
    x := 0x1590df9b2eb6768289e57d56274c8570#128, lenA := 160#64, lenC := 480#64
    tagin := 0x5bc94fbc3221a5db94fae95ae7121a47#128
    pend := some { word := 0x15#32, left := 1 } }

theorem test_hyp_VerifyBeforeRelease_final : verifying.sess ≠ .decRelease ∧ (stepped verifying).sess = .decRelease := by
  decide +kernel
theorem test_hyp_VerifyBeforeRelease_dec :
    (∃ t, exec (.gcmDec 16#5) { session3 .decRelease with rem := 256#64 } = .next t ∧ t.errcode = .ok) ∧
    ((1#5).toNat ≠ 0 ∧ (1#5).toNat ≤ 16) ∧ ((16#5).toNat ≠ 0 ∧ (16#5).toNat ≤ 16) ∧ (session3 .rejected).sess = .rejected :=
  ⟨⟨_, rfl, rfl⟩, by decide⟩
theorem test_hyp_CounterUse : ∃ t outs, runChunks .gcmEnc [(0#128, 16#5), (0#128, 3#5)] (session3 .encAad) = some (t, outs) :=
  ⟨_, _, rfl⟩
theorem test_hyp_EncryptionIsGcm :
    chunksOk [] = true ∧ chunksOk [(0#128, 16#5), (0#128, 1#5)] = true ∧ chunksOk [(0#128, 16#5), (0#128, 16#5)] = true := by
  decide
theorem test_hyp_DecryptionVerifies :
    chunksOk [(1#128, 16#5), (2#128, 12#5)] = true ∧
    (([(1#128, 16#5), (2#128, 12#5)] : List Chunk).map fun c => 8 * c.2.toNat).sum < 2 ^ 64 := by decide

end Sys2Proof.Tests
end

section
/-! The step, as the statements about who writes which register use it: a reset, a cycle without a completion, a
completion; and from these, what can change a field of the state. -/
namespace Sys2Proof.Proofs

open Sys2Proof.Machine Sys2Proof.Safety Sys2Proof.Laws

/-! ### The word of a completion -/

/-- A word that decodes is the word of its command: nothing of it is dropped (rules R70-R72). -/
theorem encode_of_decode {w : Word} {i : Instr} (h : decode w = .ok i) : encode i = w := by
  obtain ⟨hi, hr, hc⟩ := decode_ok h
  obtain ⟨hop, hcount⟩ := instrOf_spec hi
  have hn : i.count = nbytesOf w := by
    rcases hcount with ⟨_, hn⟩ | ⟨ht, h0⟩
    · exact hn
    · have hw : nbytesOf w = 0#5 := by simpa [Instr.allowsCount, ht] using hc
      rw [h0, hw]
  rw [word_eq_fields w, hr, ← hop, ← hn, encode]

/-- A word that decodes is run as its command (rule R77). -/
theorem runWord_of_decode {w : Word} {i : Instr} (h : decode w = .ok i) (s : State) : runWord w s = exec i s := by
  simp only [runWord, h]

/-- The completion of a word leaves it in CMD_LAST, errored or not (rules R31, R77). -/
theorem runWord_cmdLast {w : Word} {s t : State} (h : runWord w s = .next t) : t.cmdLast = w := by
  rcases runWord_next h with ⟨i, hi, hx⟩ | ⟨e, _, rfl⟩
  · rcases exec_next hx with ⟨_, _, _, rfl⟩ | ⟨e, _, _, rfl⟩
    · exact encode_of_decode hi
    · exact encode_of_decode hi
  · rfl

/-! ### The step, by what happens in it -/

/-- In a cycle of reset no command completes (rule R171). -/
theorem completing_of_resetting {s : State} (h : resetting s) : completing s = none := by
  obtain ⟨a, rest, hh⟩ := h
  unfold completing
  split
  · rfl
  · simp [hh]

/-- A step of reset leaves the reset state; the host's side goes on (rules R170, R172). -/
theorem step_reset {s t : State} (h : step s = .next t) (hr : resetting s) :
    t = { State.reset with host := t.host, replies := t.replies } := by
  rcases step_next h with ⟨_, _, _, _, rfl⟩ | ⟨u, hu, _⟩
  · rfl
  · exact absurd hr (hostPart_not_resetting hu)

/-- A step that completes the word `w` is the host's part, while busy, and then the completion. -/
theorem step_completing {s t : State} {w : Word} (h : step s = .next t) (hw : completing s = some w) :
    ∃ u, HostPart s u ∧ s.busy = true ∧ runWord w u = .next t := by
  rcases step_next h with ⟨a, rest, _, hh, _⟩ | ⟨u, hu, ⟨hn, _⟩ | ⟨_, hn, _⟩ | ⟨p, hp, hc, hx⟩⟩
  · rw [completing_of_resetting ⟨a, rest, hh⟩] at hw
    cases hw
  · rw [hn] at hw
    cases hw
  · rw [hn] at hw
    cases hw
  · obtain rfl : p.word = w := Option.some.inj (hc.symm.trans hw)
    exact ⟨u, hu, by simp [State.busy, hp], hx⟩

/-- A step that completes the command `i` is the host's part, while busy, and then the command. -/
theorem step_about {s t : State} {i : Instr} (h : step s = .next t) (ha : About i s) :
    ∃ u, HostPart s u ∧ s.busy = true ∧ exec i u = .next t := by
  obtain ⟨w, hw, hi⟩ := ha
  obtain ⟨u, hu, hb, hx⟩ := step_completing h hw
  exact ⟨u, hu, hb, (runWord_of_decode hi u).symm.trans hx⟩

/-- A step without a completion or a reset is the host's part, and one cycle of the countdown if a command is pending. -/
theorem step_quiet {s t : State} (h : step s = .next t) (hr : ¬ resetting s) (hc : completing s = none) :
    ∃ u q, HostPart s u ∧ t = { u with pend := q } ∧
      (s.pend = none ∧ q = u.pend ∨
        ∃ p, s.pend = some p ∧ q = some { word := p.word, left := p.left - 1 }) := by
  rcases step_next h with ⟨a, rest, _, hh, _⟩ | ⟨u, hu, ⟨_, hp, rfl⟩ | ⟨p, _, hp, _, rfl⟩ | ⟨p, _, hw, _⟩⟩
  · exact absurd ⟨a, rest, hh⟩ hr
  · exact ⟨t, t.pend, hu, rfl, .inl ⟨hp, rfl⟩⟩
  · exact ⟨u, _, hu, rfl, .inr ⟨p, hp, rfl⟩⟩
  · rw [hc] at hw
    cases hw

/-- Every step is a reset, a completion, or neither. -/
theorem step_kinds (s : State) :
    resetting s ∨ (∃ w, completing s = some w) ∨ ¬ resetting s ∧ completing s = none := by
  by_cases hr : resetting s
  · exact .inl hr
  · cases hc : completing s with
    | none => exact .inr (.inr ⟨hr, rfl⟩)
    | some w => exact .inr (.inl ⟨w, rfl⟩)

/-! ### What can change a field -/

/-- A part of the state that no cycle writes by itself: it reads none of CMD_LAST, ERRCODE, DONE, OVERRUN, PEND and the
host's side. -/
def DataField {α : Type} (f : State → α) : Prop :=
  ∀ s w e d o p hs l,
    f { s with cmdLast := w, errcode := e, done := d, overrun := o, pend := p, host := hs, replies := l } = f s

section
variable {α : Type} {f : State → α} (hf : DataField f)
include hf

/-! Each update of those fields alone, `finish` among them, leaves such a part. -/

theorem DataField.finish (w : Word) (e : ErrCode) (s : State) : f (finish w e s) = f s :=
  hf s w e true s.overrun none s.host s.replies

theorem DataField.pend (p : Option Pending) (s : State) : f { s with pend := p } = f s :=
  hf s s.cmdLast s.errcode s.done s.overrun p s.host s.replies

theorem DataField.host (hs : List HostEvent) (s : State) : f { s with host := hs } = f s :=
  hf s s.cmdLast s.errcode s.done s.overrun s.pend hs s.replies

theorem DataField.reply (r : Reply) (s : State) : f (reply r s) = f s :=
  hf s s.cmdLast s.errcode s.done s.overrun s.pend s.host (s.replies ++ [r])

theorem DataField.overrun (o : Bool) (s : State) : f { s with overrun := o } = f s :=
  hf s s.cmdLast s.errcode s.done o s.pend s.host s.replies

/-- A write of a register does not depend on the host's list. -/
theorem DataField.writeReg_host (r : Reg) (v : Word) (hs : List HostEvent) (s : State) :
    f (writeReg r v { s with host := hs }) = f (writeReg r v s) := by
  have e : writeReg r v { s with host := hs } = { writeReg r v s with host := hs } := by cases r <;> rfl
  rw [e, hf.host]

/-- The host changes a field only by a write that is performed, of a register the field is in (rules R55, R60). -/
theorem hostPart_changes {s u : State} (h : HostPart s u) (hne : f u ≠ f s) :
    ∃ off v r, writing s off ∧ regAt off = some r ∧ f (writeReg r v s) ≠ f s ∧
      (writeKind r = .always ∨ writeKind r = .whenIdle ∧ s.busy = false) := by
  rcases h with ⟨hs, rfl, _⟩ | ⟨hs, r, rfl, _⟩ | ⟨off, op, rest, hh, rfl⟩
  · exact absurd (hf.host hs s) hne
  · exact absurd ((hf.reply r _).trans (hf.host hs s)) hne
  · rcases busOp_cases off op { s with host := rest } with ⟨r, e⟩ | ⟨_, _, _, _, _, _, e⟩ | ⟨v, r, rfl, hr, e, hk⟩
    · rw [e, hf.reply, hf.host] at hne
      exact absurd rfl hne
    · rw [e, hf.reply, hf.overrun, hf.host] at hne
      exact absurd rfl hne
    · rw [e, hf.reply, hf.writeReg_host] at hne
      exact ⟨off, v, r, ⟨v, rest, hh⟩, hr, hne, hk⟩

/-- A step changes a field only by reset, by a performed host write of a register the field is in, or by the effect of a
command that completes with OK. -/
theorem step_changes {s t : State} (h : step s = .next t) (hne : f t ≠ f s) :
    resetting s ∨
    (∃ off v r, writing s off ∧ regAt off = some r ∧ f (writeReg r v s) ≠ f s ∧
      (writeKind r = .always ∨ writeKind r = .whenIdle ∧ s.busy = false)) ∨
    ∃ i u, About i s ∧ HostPart s u ∧ s.busy = true ∧ ownCheck i u = none ∧ f (effect i u) ≠ f u ∧
      t = finish (encode i) .ok (effect i u) := by
  rcases step_kinds s with hr | ⟨w, hw⟩ | ⟨hr, hc⟩
  · exact .inl hr
  · obtain ⟨u, hu, hb, hx⟩ := step_completing h hw
    by_cases hfu : f u = f s
    · rcases runWord_effect hx with ⟨i, hi, _, ho, rfl⟩ | ⟨v, e, _, rfl⟩
      · rw [hf.finish, ← hfu] at hne
        exact .inr (.inr ⟨i, u, ⟨w, hw, hi⟩, hu, hb, ho, hne, rfl⟩)
      · rw [hf.finish] at hne
        exact absurd hfu hne
    · exact .inr (.inl (hostPart_changes hf hu hfu))
  · obtain ⟨u, q, hu, rfl, _⟩ := step_quiet h hr hc
    rw [hf.pend] at hne
    exact .inr (.inl (hostPart_changes hf hu hne))

/-- A field in no register the host can write changes only by reset or by the effect of a command that completes with OK. -/
theorem step_changes_of_unwritable (hw : ∀ r v s, f (writeReg r v s) = f s) {s t : State}
    (h : step s = .next t) (hne : f t ≠ f s) :
    resetting s ∨
    ∃ i u, About i s ∧ HostPart s u ∧ s.busy = true ∧ ownCheck i u = none ∧ f (effect i u) ≠ f u ∧
      t = finish (encode i) .ok (effect i u) := by
  rcases step_changes hf h hne with hr | ⟨_, v, r, _, _, hch, _⟩ | hi
  · exact .inl hr
  · exact absurd (hw r v s) hch
  · exact .inr hi

end

end Sys2Proof.Proofs
end

section
/-! Who writes which register: by which commands and which host writes a field can change, and the statements about the
writers of the operands, the results and the session. -/
namespace Sys2Proof.Proofs

open Sys2Proof.Machine Sys2Proof.Safety Sys2Proof.Laws

/-! ### What the effect of a command can change -/

/-- Only ZEROIZE changes KEY, DIN, AUX or TAGIN (rules R21, R23-R25). -/
theorem effect_operands (i : Instr) (s : State) :
    i = .zeroize ∨ (effect i s).key = s.key ∧ (effect i s).din = s.din ∧ (effect i s).aux = s.aux ∧
      (effect i s).tagin = s.tagin := by
  cases i <;> simp only [effect, finalEnc, finalDec] <;> repeat' split
  all_goals simp

/-- Only NONCE_GEN changes NONCE (rule R22). -/
theorem effect_nonce (i : Instr) (s : State) : i = .nonceGen ∨ (effect i s).nonce = s.nonce := by
  cases i <;> simp only [effect, finalEnc, finalDec] <;> repeat' split
  all_goals simp

/-- Only NONCE_INIT and NONCE_GEN change TXC, NRES or NEXH (rules R28, R29, R38). -/
theorem effect_txCounter (i : Instr) (s : State) :
    (i = .nonceInit ∨ i = .nonceGen) ∨
      (effect i s).txc = s.txc ∧ (effect i s).nres = s.nres ∧ (effect i s).nexh = s.nexh := by
  cases i <;> simp only [effect, finalEnc, finalDec] <;> repeat' split
  all_goals simp

/-- Only NONCE_INIT and NONCE_VALIDATE change RXHW or NVALID (rules R30, R140). -/
theorem effect_rxMark (i : Instr) (s : State) :
    (i = .nonceValidate ∨ i = .nonceInit) ∨ (effect i s).rxhw = s.rxhw ∧ (effect i s).nvalid = s.nvalid := by
  cases i <;> simp only [effect, finalEnc, finalDec] <;> repeat' split
  all_goals simp

/-- The commands that write DOUT (rule R26). -/
theorem effect_dout (i : Instr) (s : State) :
    (i = .aesEnc ∨ i = .gfMul ∨ i = .gcmFinal ∨ i = .gcmAbort ∨ i = .zeroize ∨ ∃ n, i = .gcmEnc n ∨ i = .gcmDec n) ∨
      (effect i s).dout = s.dout := by
  cases i <;> simp only [effect, finalEnc, finalDec] <;> repeat' split
  all_goals simp

/-- The commands that write TAG_OK (rule R44). -/
theorem effect_tagOk (i : Instr) (s : State) :
    (i = .tagCmp ∨ i = .gcmFinal ∨ i = .gcmInitEnc ∨ i = .gcmInitDec ∨ i = .gcmAbort ∨ i = .zeroize) ∨
      (effect i s).tagOk = s.tagOk := by
  cases i <;> simp only [effect, finalEnc, finalDec] <;> repeat' split
  all_goals simp

/-- NONCE_VALIDATE changes RXHW only to a greater NVAL (rule R143). -/
theorem effect_nonceValidate_rxhw {s : State} (h : (effect .nonceValidate s).rxhw ≠ s.rxhw) :
    (effect .nonceValidate s).rxhw = s.nval ∧ s.rxhw < s.nval := by
  by_cases hlt : s.rxhw < s.nval
  · simp [effect, hlt]
  · simp [effect, hlt] at h

/-! ### The commands of NEXH -/

/-- NONCE_GEN changes NEXH only from 0 to 1, and only when it emits 0xFFFFFFFF (rules R38, R142). -/
theorem effect_nonceGen_nexh {s : State} (h : (effect .nonceGen s).nexh ≠ s.nexh) :
    s.nexh = false ∧ s.txc = 0xFFFFFFFF#32 := by
  by_cases hx : s.txc = 0xFFFFFFFF#32
  · simp only [effect, hx, if_true, ne_eq, Bool.true_eq, Bool.not_eq_true] at h
    exact ⟨h, hx⟩
  · simp [effect, hx] at h

/-- NONCE_INIT completes with its effect in every state (rule R141). -/
theorem exec_nonceInit (s : State) : exec .nonceInit s = .next (finish (encode .nonceInit) .ok (effect .nonceInit s)) :=
  exec_of_accepted rfl rfl rfl

/-- NONCE_GEN completes with its effect while the nonce space is not exhausted (rule R142). -/
theorem exec_nonceGen {s : State} (h : s.nexh = false) :
    exec .nonceGen s = .next (finish (encode .nonceGen) .ok (effect .nonceGen s)) :=
  exec_of_accepted rfl rfl (by simp [ownCheck, exhaustedError, h])

/-- NONCE_GEN fails with ERR_EXHAUSTED, and does nothing but complete, while the nonce space is exhausted (rule R146). -/
theorem exec_nonceGen_exhausted {s : State} (h : s.nexh = true) :
    exec .nonceGen s = .next (finish (encode .nonceGen) .exhausted s) := by
  have ho : outcomeOf .nonceGen (ownCheck .nonceGen s) s = .exhausted := by
    simp [outcomeOf, Instr.wellFormed, accepted, ownCheck, exhaustedError, h]
  rw [exec_eq_perform, perform_error (by rw [ho]; decide), ho]

/-! ### The window -/

/-- An offset of the register map is its register's (rule R51). -/
theorem eq_offsetOf_of_regAt {off : BitVec 8} {r : Reg} (h : regAt off = some r) : off = offsetOf r := by
  have all : ∀ p ∈ regMap, p.1 = offsetOf p.2 := by decide
  obtain ⟨l₁, l₂, hl, _⟩ := List.lookup_eq_some_iff.mp h
  exact all (off, r) (by simp [hl])

/-- The register whose write changes an operand register (rules R56, R57). -/
theorem writeReg_operands (r : Reg) (v : Word) (s : State) :
    ((∃ i, r = .key i) ∨ (writeReg r v s).key = s.key) ∧
    ((∃ i, r = .nonce i) ∨ (writeReg r v s).nonce = s.nonce) ∧
    ((∃ i, r = .din i) ∨ (writeReg r v s).din = s.din) ∧
    ((∃ i, r = .aux i) ∨ (writeReg r v s).aux = s.aux) ∧
    ((∃ i, r = .tagin i) ∨ (writeReg r v s).tagin = s.tagin) ∧
    (r = .nval ∨ (writeReg r v s).nval = s.nval) := by
  cases r <;> simp [writeReg]

/-! ### The shapes of the statements -/

/-- The operand register that consists of the words `reg i` of the window, at the offsets `offs`, changes only by reset,
by a command `c` that changes it, or by a host write at one of its offsets while not busy (rule R60). -/
theorem operand_changes {α : Type} {f : State → α} (hf : DataField f) {n : Nat} {reg : Fin n → Reg}
    {offs : List (BitVec 8)} {c : Instr → Prop} (hk : ∀ i, writeKind (reg i) = .whenIdle ∧ offsetOf (reg i) ∈ offs)
    (hw : ∀ r v s, (∃ i, r = reg i) ∨ f (writeReg r v s) = f s) (hc : ∀ i s, c i ∨ f (effect i s) = f s)
    {s t : State} (h : step s = .next t) (hne : f t ≠ f s) :
    resetting s ∨ (∃ i, c i ∧ About i s) ∨ s.busy = false ∧ ∃ off, off ∈ offs ∧ writing s off := by
  rcases step_changes hf h hne with hr | ⟨off, v, r, hwr, hreg, hch, hkind⟩ | ⟨i, u, ha, _, _, _, hch, _⟩
  · exact .inl hr
  · obtain ⟨i, rfl⟩ := (hw r v s).resolve_right hch
    obtain ⟨hidle, hmem⟩ := hk i
    have hb : s.busy = false := by
      rcases hkind with ha | ⟨_, hb⟩
      · rw [hidle] at ha
        cases ha
      · exact hb
    exact .inr (.inr ⟨hb, off, eq_offsetOf_of_regAt hreg ▸ hmem, hwr⟩)
  · exact .inr (.inl ⟨i, (hc i u).resolve_right hch, ha⟩)

/-- The same for an operand register that one command changes. -/
theorem operand_changes_by {α : Type} {f : State → α} (hf : DataField f) {n : Nat} {reg : Fin n → Reg}
    {offs : List (BitVec 8)} {c : Instr} (hk : ∀ i, writeKind (reg i) = .whenIdle ∧ offsetOf (reg i) ∈ offs)
    (hw : ∀ r v s, (∃ i, r = reg i) ∨ f (writeReg r v s) = f s) (hc : ∀ i s, i = c ∨ f (effect i s) = f s)
    {s t : State} (h : step s = .next t) (hne : f t ≠ f s) :
    resetting s ∨ About c s ∨ s.busy = false ∧ ∃ off, off ∈ offs ∧ writing s off := by
  simpa using operand_changes hf hk hw hc h hne

/-- A field in no register the host can write changes only by reset or by a command `c` that changes it. -/
theorem result_changes {α : Type} {f : State → α} (hf : DataField f) {c : Instr → Prop}
    (hw : ∀ r v s, f (writeReg r v s) = f s) (hc : ∀ i s, c i ∨ f (effect i s) = f s)
    {s t : State} (h : step s = .next t) (hne : f t ≠ f s) : resetting s ∨ ∃ i, c i ∧ About i s := by
  rcases step_changes_of_unwritable hf hw h hne with hr | ⟨i, u, ha, _, _, _, hch, _⟩
  · exact .inl hr
  · exact .inr ⟨i, (hc i u).resolve_right hch, ha⟩

/-- A step that changes NEXH is a reset, a NONCE_INIT, or the NONCE_GEN that emits 0xFFFFFFFF (rules R38, R146). -/
theorem step_nexh_changes {s t : State} (h : step s = .next t) (hne : t.nexh ≠ s.nexh) :
    resetting s ∨ About .nonceInit s ∨
      About .nonceGen s ∧ s.nexh = false ∧ s.txc = 0xFFFFFFFF#32 ∧ t.nres = 0xFFFFFFFF#32 := by
  have hw (r v s) : (writeReg r v s).nexh = s.nexh := by cases r <;> rfl
  rcases step_changes_of_unwritable (fun _ _ _ _ _ _ _ _ => rfl) hw h hne with hr | ⟨i, u, ha, hu, _, _, hch, rfl⟩
  · exact .inl hr
  · obtain ⟨htxc, hnexh, _⟩ := hostPart_engine_state hu
    rcases effect_txCounter i u with (rfl | rfl) | ⟨_, _, heq⟩
    · exact .inr (.inl ha)
    · obtain ⟨h0, hx⟩ := effect_nonceGen_nexh hch
      exact .inr (.inr ⟨ha, hnexh ▸ h0, htxc ▸ hx, hx⟩)
    · exact absurd heq hch

/-! ### The statements -/

/-- Settles O49: the writers of NEXH are read off the step, and what NONCE_INIT and NONCE_GEN do off their completions. -/
theorem exhaustionSticks : Obligations.ExhaustionSticks := by
  intro s t h
  refine ⟨fun h1 => ?_, fun h0 h1 => ?_, fun h0 ha hx => ?_, fun ha => ?_, fun hr => ?_, fun h1 ha => ?_⟩
  · by_cases ht : t.nexh = true
    · exact .inl ht
    · rcases step_nexh_changes h (by simp [h1, ht]) with hr | hi | ⟨_, h0, _⟩
      · exact .inr (.inl hr)
      · exact .inr (.inr hi)
      · rw [h1] at h0
        cases h0
  · rcases step_nexh_changes h (by simp [h0, h1]) with hr | hi | ⟨ha, _, hx, hn⟩
    · rw [step_reset h hr] at h1
      cases h1
    · obtain ⟨u, _, _, he⟩ := step_about h hi
      rw [exec_nonceInit] at he
      cases he
      cases h1
    · exact ⟨ha, hx, hn⟩
  · obtain ⟨u, hu, _, he⟩ := step_about h ha
    obtain ⟨htxc, hnexh, _⟩ := hostPart_engine_state hu
    rw [exec_nonceGen (hnexh.trans h0)] at he
    cases he
    simp [effect, htxc.trans hx]
  · obtain ⟨u, _, _, he⟩ := step_about h ha
    rw [exec_nonceInit] at he
    cases he
    rfl
  · rw [step_reset h hr]
    rfl
  · obtain ⟨u, hu, hb, he⟩ := step_about h ha
    obtain ⟨htxc, hnexh, hnres, hrxhw, _⟩ := hostPart_engine_state hu
    obtain ⟨_, hnonce, _⟩ := hostPart_busy hu hb
    rw [exec_nonceGen_exhausted (hnexh.trans h1)] at he
    cases he
    exact ⟨rfl, htxc, hnres, hnonce, hrxhw⟩

/-- Settles O53: each operand register by the words of the window it consists of and the command that changes it. -/
theorem operandWriters : Obligations.OperandWriters := by
  intro s t h
  refine ⟨fun hne => ?_, fun hne => ?_, fun hne => ?_, fun hne => ?_, fun hne => ?_, fun hne => ?_⟩
  · exact operand_changes_by (f := State.key) (fun _ _ _ _ _ _ _ _ => rfl) (reg := .key)
      (by decide) (fun r v s => by obtain ⟨hw, _⟩ := writeReg_operands r v s; exact hw)
      (fun i s => (effect_operands i s).imp_right fun ⟨hk, _⟩ => hk) h hne
  · exact operand_changes_by (f := State.nonce) (fun _ _ _ _ _ _ _ _ => rfl) (reg := .nonce)
      (by decide) (fun r v s => by obtain ⟨_, hw, _⟩ := writeReg_operands r v s; exact hw) effect_nonce h hne
  · exact operand_changes_by (f := State.din) (fun _ _ _ _ _ _ _ _ => rfl) (reg := .din)
      (by decide) (fun r v s => by obtain ⟨_, _, hw, _⟩ := writeReg_operands r v s; exact hw)
      (fun i s => (effect_operands i s).imp_right fun ⟨_, hd, _⟩ => hd) h hne
  · exact operand_changes_by (f := State.aux) (fun _ _ _ _ _ _ _ _ => rfl) (reg := .aux)
      (by decide) (fun r v s => by obtain ⟨_, _, _, hw, _⟩ := writeReg_operands r v s; exact hw)
      (fun i s => (effect_operands i s).imp_right fun ⟨_, _, ha, _⟩ => ha) h hne
  · exact operand_changes_by (f := State.tagin) (fun _ _ _ _ _ _ _ _ => rfl) (reg := .tagin)
      (by decide) (fun r v s => by obtain ⟨_, _, _, _, hw, _⟩ := writeReg_operands r v s; exact hw)
      (fun i s => (effect_operands i s).imp_right fun ⟨_, _, _, ht⟩ => ht) h hne
  · simpa using operand_changes (f := State.nval) (fun _ _ _ _ _ _ _ _ => rfl) (n := 1) (reg := fun _ => .nval) (offs := [0x14#8])
      (c := fun _ => False) (by decide)
      (fun r v s => by obtain ⟨_, _, _, _, _, hw⟩ := writeReg_operands r v s; exact hw.imp_left fun h => ⟨0, h⟩)
      (fun i s => by obtain ⟨_, _, hn, _⟩ := effect_frame i s; exact .inr hn) h hne

/-- A step that changes RXHW is a reset, a NONCE_INIT, or a NONCE_VALIDATE that raises it to NVAL (rules R30, R143). -/
theorem step_rxhw_changes {s t : State} (h : step s = .next t) (hne : t.rxhw ≠ s.rxhw) :
    resetting s ∨ About .nonceInit s ∨ About .nonceValidate s ∧ t.rxhw = s.nval ∧ s.rxhw.toNat < t.rxhw.toNat := by
  have hw (r v s) : (writeReg r v s).rxhw = s.rxhw := by cases r <;> rfl
  rcases step_changes_of_unwritable (fun _ _ _ _ _ _ _ _ => rfl) hw h hne with hr | ⟨i, u, ha, hu, hb, _, hch, rfl⟩
  · exact .inl hr
  · rcases effect_rxMark i u with (rfl | rfl) | ⟨heq, _⟩
    · obtain ⟨hv, hlt⟩ := effect_nonceValidate_rxhw hch
      obtain ⟨_, _, _, hrxhw, _⟩ := hostPart_engine_state hu
      obtain ⟨_, _, _, _, _, hnval, _⟩ := hostPart_busy hu hb
      refine .inr (.inr ⟨ha, hv.trans hnval, ?_⟩)
      rw [finish_rxhw, hv, ← hrxhw]
      exact hlt
    · exact .inr (.inl ha)
    · exact absurd heq hch

/-- Settles O54: no result is in a register the host writes, and each command's effect names the results it writes. -/
theorem resultWriters : Obligations.ResultWriters := by
  intro s t h
  refine ⟨fun hne => ?_, fun hne => ?_, fun hne => ?_, step_rxhw_changes h, fun hne => ?_, fun hne => ?_⟩
  · simpa [or_and_right, exists_or] using result_changes (f := State.dout) (fun _ _ _ _ _ _ _ _ => rfl)
      (fun r _ _ => by cases r <;> rfl) effect_dout h hne
  · simpa [or_and_right, exists_or] using result_changes (f := State.txc) (fun _ _ _ _ _ _ _ _ => rfl)
      (fun r _ _ => by cases r <;> rfl) (fun i s => (effect_txCounter i s).imp_right fun ⟨ht, _⟩ => ht) h hne
  · simpa [or_and_right, exists_or] using result_changes (f := State.nres) (fun _ _ _ _ _ _ _ _ => rfl)
      (fun r _ _ => by cases r <;> rfl) (fun i s => (effect_txCounter i s).imp_right fun ⟨_, hn, _⟩ => hn) h hne
  · simpa [or_and_right, exists_or] using result_changes (f := State.tagOk) (fun _ _ _ _ _ _ _ _ => rfl)
      (fun r _ _ => by cases r <;> rfl) effect_tagOk h hne
  · simpa [or_and_right, exists_or] using result_changes (f := State.nvalid) (fun _ _ _ _ _ _ _ _ => rfl)
      (fun r _ _ => by cases r <;> rfl) (fun i s => (effect_rxMark i s).imp_right fun ⟨_, hv⟩ => hv) h hne

/-- The session of a state: the hidden registers, SESS and PARTIAL (rules R35-R37). -/
def sessionOf (s : State) : (Block × Block × Block × Block × Block) × (BitCount × BitCount × BitCount) × Sess × Bool :=
  ((s.skey, s.h, s.j0, s.ctr, s.x), (s.lenA, s.lenC, s.rem), s.sess, s.partialBlk)

/-- The commands that touch the session: the session commands and ZEROIZE (rules R116, R126). -/
def TouchesSession (i : Instr) : Prop :=
  i = .zeroize ∨ i = .gcmInitEnc ∨ i = .gcmInitDec ∨ i = .gcmFinal ∨ i = .gcmAbort ∨
    ∃ n, i = .gcmAad n ∨ i = .gcmEnc n ∨ i = .gcmDecAuth n ∨ i = .gcmDec n

/-- No other command changes the session. -/
theorem effect_session (i : Instr) (s : State) : TouchesSession i ∨ sessionOf (effect i s) = sessionOf s := by
  cases i
  case aesEnc | gfMul | tagCmp | nonceInit | nonceGen => exact .inr rfl
  case nonceValidate =>
    right
    simp only [effect]
    split <;> rfl
  all_goals simp [TouchesSession]

/-- Settles O56: the session is in no register of the window, and only the session commands and ZEROIZE change it. -/
theorem sessionWriters : Obligations.SessionWriters := by
  intro s t h ofSession
  by_cases hs : sessionOf t = sessionOf s
  · right; right
    simpa [sessionOf, and_assoc] using hs
  · rcases result_changes (f := sessionOf) (fun _ _ _ _ _ _ _ _ => rfl) (fun r _ _ => by cases r <;> rfl) effect_session
      h hs with hr | ⟨i, hi, ha⟩
    · exact .inl hr
    · exact .inr (.inl ⟨i, ha, hi⟩)

end Sys2Proof.Proofs
end

section
/-! The writers of the completion flags, how a command is issued and run, the layout of STATUS, and what cannot be read. -/
namespace Sys2Proof.Proofs

open Sys2Proof.Machine Sys2Proof.Safety Sys2Proof.Laws

/-! ### The completion flags -/

/-- A completion writes CMD_LAST, sets DONE and ends BUSY (rule R77). -/
theorem step_completing_flags {s t : State} {w : Word} (h : step s = .next t) (hw : completing s = some w) :
    t.cmdLast = w ∧ t.done = true ∧ t.pend = none := by
  obtain ⟨u, _, _, hx⟩ := step_completing h hw
  obtain ⟨_, _, _, _, _, hdone, hpend⟩ := runWord_frame hx
  exact ⟨runWord_cmdLast hx, hdone, hpend⟩

/-- Without a completion or a reset, ERRCODE and CMD_LAST stay, and DONE falls only by a STATUS write with bit 1. -/
theorem step_quiet_flags {s t : State} (h : step s = .next t) (hr : ¬ resetting s) (hc : completing s = none) :
    t.errcode = s.errcode ∧ t.cmdLast = s.cmdLast ∧
      (t.done = s.done ∨ t.done = false ∧ ∃ v rest, v.getLsbD 1 = true ∧
        s.host = .bus { width := .word, off := 0x04#8, op := .write v } :: rest) := by
  obtain ⟨u, q, hu, rfl, _⟩ := step_quiet h hr hc
  obtain ⟨hdone, _⟩ := hostPart_flags hu
  obtain ⟨_, _, _, _, _, _, _, _, _, _, _, _, _, _, _, _, _, hlast, herr⟩ := hostPart_engine_state hu
  exact ⟨herr, hlast, hdone⟩

/-- Without a completion or a reset, a pending command keeps its word, and a command becomes pending only by a CMD write while
not busy (rules R41, R77). -/
theorem step_quiet_pend {s t : State} (h : step s = .next t) (hr : ¬ resetting s) (hc : completing s = none) :
    (∃ p, s.pend = some p ∧ t.pend = some { word := p.word, left := p.left - 1 }) ∨
    s.pend = none ∧ (t.pend = none ∨ ∃ v rest,
      s.host = .bus { width := .word, off := 0x00#8, op := .write v } :: rest ∧
        t.pend = some { word := v, left := latency (opOf v) }) := by
  obtain ⟨u, q, hu, rfl, ⟨hp, rfl⟩ | ⟨p, hp, rfl⟩⟩ := step_quiet h hr hc
  · obtain ⟨_, _, _, hpend⟩ := hostPart_flags hu
    rcases hpend with hk | ⟨_, hcmd⟩
    · exact .inr ⟨hp, .inl (hk.trans hp)⟩
    · exact .inr ⟨hp, .inr hcmd⟩
  · exact .inl ⟨p, hp, rfl⟩

/-- DONE_IE changes only by an IRQ_EN write or by reset (rules R34, R158). -/
theorem step_doneIe_changes {s t : State} (h : step s = .next t) (hne : t.doneIe ≠ s.doneIe) :
    resetting s ∨ writing s 0x08#8 := by
  rcases step_changes (fun _ _ _ _ _ _ _ _ => rfl) h hne with hr | ⟨off, v, r, hw, hreg, hch, _⟩ | ⟨i, u, _, _, _, _, hch, _⟩
  · exact .inl hr
  · cases r
    case irqEn => exact .inr (regAt_irqEn off hreg ▸ hw)
    all_goals exact absurd rfl hch
  · obtain ⟨_, hie, _⟩ := effect_frame i u
    exact absurd hie hch

/-- Settles O55: a completion writes the flags, a reset clears them, and every other step leaves them but for the host's writes. -/
theorem completionFlagWriters : Obligations.CompletionFlagWriters := by
  intro s t h
  refine ⟨fun w hw => ?_, ?_⟩
  · obtain ⟨hlast, hdone, hpend⟩ := step_completing_flags h hw
    exact ⟨hlast, hdone, by simp [State.busy, hpend]⟩
  rcases step_kinds s with hr | ⟨w, hw⟩ | ⟨hr, hc⟩
  · have ht := step_reset h hr
    have hdone : t.done = false := by rw [ht]; rfl
    have hpend : t.pend = none := by rw [ht]; rfl
    simp [hr, hdone, hpend, State.busy]
  · obtain ⟨_, hdone, hpend⟩ := step_completing_flags h hw
    simpa [hw, hdone, hpend, State.busy] using step_doneIe_changes h
  · obtain ⟨herr, hlast, hdone⟩ := step_quiet_flags h hr hc
    refine ⟨fun h0 h1 => ?_, fun h1 h0 => ?_, fun hne => ?_, fun hb hb' => ?_, fun hb hb' => ?_, fun p q hp hq => ?_,
      step_doneIe_changes h⟩
    · rcases hdone with hd | ⟨hd, _⟩
      · rw [hd, h0] at h1
        cases h1
      · rw [hd] at h1
        cases h1
    · rcases hdone with hd | ⟨_, hw⟩
      · rw [hd, h1] at h0
        cases h0
      · exact .inr hw
    · exact absurd hne (by simp [herr, hlast])
    · rcases step_quiet_pend h hr hc with ⟨p, _, ht⟩ | ⟨hp, _⟩
      · simp [State.busy, ht] at hb'
      · simp [State.busy, hp] at hb
    · rcases step_quiet_pend h hr hc with ⟨p, hp, _⟩ | ⟨_, ht | hcmd⟩
      · simp [State.busy, hp] at hb
      · simp [State.busy, ht] at hb'
      · exact hcmd
    · rcases step_quiet_pend h hr hc with ⟨p', hp', ht⟩ | ⟨hn, _⟩
      · cases hp'.symm.trans hp
        cases ht.symm.trans hq
        rfl
      · cases hn.symm.trans hp

/-! ### The issue and the run of a command -/

/-- The last cycle of the pending command completes it (rule R182). -/
theorem engineCycle_last {p : Pending} (hl : p.left ≤ 1) (s : State) : engineCycle (some p) s = runWord p.word s := by
  simp [engineCycle, hl]

/-- A word of the opcode table decodes to its command. -/
theorem decode_of_decodeTableWord {nbits w : Nat} {i : Instr} (h : decodeTableWord nbits w = some i) :
    decode (BitVec.ofNat 32 (w % 2 ^ nbits)) = .ok i := by
  unfold decodeTableWord at h
  split at h
  · next j hj => cases h; exact hj
  · cases h

/-- Settles O9: each host event of a completing step, unfolded, is its access and then the pending word. -/
theorem stepRunsDecodedCommand : Obligations.StepRunsDecodedCommand := by
  refine ⟨fun s p i hp hi => ⟨fun hh => ?_, fun rest hh => ?_, fun rest hl hh => ?_, fun rest hl hh => ?_,
    fun rest off op hl hh => ?_⟩, fun s nbits w i hi => ?_⟩
  · simp [step, stepOnce, hh, complete, hp, runWord_of_decode hi]
  · simp [step, stepOnce, hh, hostEvent, complete, hp, runWord_of_decode hi]
  · simp [step, stepOnce, hh, hostEvent, hp, engineCycle_last hl, runWord_of_decode hi]
  · have hb : s.busy = true := by simp [State.busy, hp]
    have hread : busOp 0x04#8 .read s = reply (.readDone (statusWord s) .ok) s := rfl
    rw [step_poll hh, if_pos hb, ← hh, hp, engineCycle_last hl, runWord_of_decode hi, hread, ← hp]
  · simp [step, stepOnce, hh, hostEvent, accessCycle, hp, engineCycle_last hl, runWord_of_decode hi]
  · exact runWord_of_decode (decode_of_decodeTableWord hi) _

/-- No access writes CMD_LAST: a completion does (rule R61; log entry 6). -/
theorem busOp_cmdLast (off : BitVec 8) (op : BusOp) (s : State) : (busOp off op s).cmdLast = s.cmdLast := by
  rcases busOp_cases off op s with ⟨r, e⟩ | ⟨_, _, _, _, _, _, e⟩ | ⟨v, r, _, _, e, _⟩
  · rw [e, reply_cmdLast]
  · rw [e, reply_cmdLast]
  · rw [e, reply_cmdLast]
    cases r <;> rfl

/-- A CMD write while not busy makes its word pending, and nothing else (rule R77). -/
theorem busOp_write_cmd {s : State} (hp : s.pend = none) (w : Word) :
    busOp 0x00#8 (.write w) s = reply (.writeDone .ok) (issue w s) := by
  have hreg : regAt 0x00#8 = some .cmd := rfl
  simp [busOp, busWrite, hreg, writeKind, writeReg, State.busy, hp]

/-- Settles O11: the CMD write issues, the completion writes CMD_LAST, and no access does. -/
theorem commandIssue : Obligations.CommandIssue :=
  ⟨fun _ w hp => busOp_write_cmd hp w, fun _ _ _ h => runWord_cmdLast h, fun _ => rfl, fun s _ _ => busOp_cmdLast _ _ s,
    rfl⟩

/-! ### STATUS and IRQ_EN -/

/-- The one-bit fields of STATUS (rule R32). -/
theorem statusWord_bits (s : State) :
    (statusWord s).getLsbD 0 = s.busy ∧ (statusWord s).getLsbD 1 = s.done ∧ (statusWord s).getLsbD 2 = s.tagOk ∧
      (statusWord s).getLsbD 3 = s.nvalid ∧ (statusWord s).getLsbD 4 = s.nexh ∧ (statusWord s).getLsbD 5 = s.overrun ∧
      (statusWord s).getLsbD 19 = s.partialBlk := by
  simp only [statusWord, BitVec.getLsbD_cast, BitVec.getLsbD_append]
  simp

/-- The wider fields of STATUS, the reserved ones 0 (rule R32). -/
theorem statusWord_fields (s : State) :
    (statusWord s).extractLsb' 6 2 = 0#2 ∧ (statusWord s).extractLsb' 8 4 = errBits s.errcode ∧
      (statusWord s).extractLsb' 12 4 = 0#4 ∧ (statusWord s).extractLsb' 16 3 = sessBits s.sess ∧
      (statusWord s).extractLsb' 20 12 = 0#12 := by
  simp (disch := decide) only [statusWord, BitVec.extractLsb'_cast, BitVec.extractLsb'_append_eq_of_le,
    BitVec.extractLsb'_append_eq_of_add_le, BitVec.extractLsb'_eq_self, Nat.reduceSub, and_self]

/-- The fields of IRQ_EN (rule R34). -/
theorem irqEnWord_fields (s : State) :
    (irqEnWord s).getLsbD 0 = s.doneIe ∧ (irqEnWord s).extractLsb' 1 31 = 0#31 := by
  simp only [irqEnWord, BitVec.extractLsb'_cast, BitVec.getLsbD_cast, BitVec.getLsbD_append,
    BitVec.extractLsb'_append_eq_left]
  simp

/-- Settles O20: the fields of the two words, and the two writes, which are performed busy or not. -/
theorem statusLayout : Obligations.StatusLayout := by
  refine ⟨fun s => ?_, by decide, fun _ _ => rfl, fun s => ?_, fun _ _ => rfl⟩
  · obtain ⟨hbusy, hdone, htag, hnvalid, hnexh, hoverrun, hpartial⟩ := statusWord_bits s
    obtain ⟨h6, herr, h12, hsess, h20⟩ := statusWord_fields s
    exact ⟨hbusy, hdone, htag, hnvalid, hnexh, hoverrun, h6, herr, h12, hsess, hpartial, h20⟩
  · obtain ⟨hie, hrsvd⟩ := irqEnWord_fields s
    exact ⟨hie, hrsvd, rfl⟩

/-! ### What cannot be read -/

/-- States that differ in KEY and the hidden session registers only read alike at every register (rules R35, R55). -/
theorem readReg_of_sameVisible {s t : State} (h : SameVisible s t) (r : Reg) : readReg r t = readReg r s := by
  obtain ⟨_, _, _, _, _, _, _, _, _, rfl⟩ := h
  cases r <;> rfl

/-- Settles O22: a read shows the register's value, which the hidden registers are no part of. -/
theorem secretsUnreadable : Obligations.SecretsUnreadable := by
  intro s t off h
  have hirq : irq s = irq t := by
    obtain ⟨_, _, _, _, _, _, _, _, _, rfl⟩ := h
    rfl
  simp only [busOp, busRead]
  cases regAt off with
  | none => exact ⟨_, _, rfl, rfl, hirq⟩
  | some r => exact ⟨readReg r s, .ok, rfl, by simp only [readReg_of_sameVisible h r]; rfl, hirq⟩

end Sys2Proof.Proofs
end

section
/-! The register window: the words of the wide registers, what a read and a write at an offset do, what sets and clears
OVERRUN, and the cycles in which nothing completes. -/
namespace Sys2Proof.Proofs

open Sys2Proof.Machine Sys2Proof.Safety Sys2Proof.Laws

/-! ### The words of the wide registers -/

/-- A write of one word of a 128-bit register replaces that word and leaves the others (rule R56). -/
theorem wordOf_setWord (r : Block) (i j : Fin 4) (v : Word) :
    wordOf (setWord r i v) j = if j = i then v else wordOf r j := by
  rw [setWord, wordOf_concat]
  fin_cases j <;> rfl

/-- The words of a nonce built from three words (rule R57). -/
theorem nonceWord_concat (a b c : Word) (i : Fin 3) :
    nonceWord ((a ++ b ++ c).cast rfl) i = (match i with | 0 => a | 1 => b | 2 => c) := by
  ext k hk
  simp only [nonceWord, BitVec.getElem_extractLsb', BitVec.getLsbD_cast, BitVec.getLsbD_append]
  fin_cases i
  · simp [show ¬ (64 + k < 32) by omega, show ¬ (64 + k - 32 < 32) by omega, show 64 + k - 32 - 32 = k by omega, hk]
  · simp [show ¬ (32 + k < 32) by omega, show 32 + k - 32 = k by omega, hk]
  · simp [hk]

/-- A write of one word of NONCE replaces that word and leaves the others (rule R57). -/
theorem nonceWord_setNonceWord (r : Nonce) (i j : Fin 3) (v : Word) :
    nonceWord (setNonceWord r i v) j = if j = i then v else nonceWord r j := by
  rw [setNonceWord, nonceWord_concat]
  fin_cases j <;> rfl

/-! ### The register map -/

/-- The offsets of the words of the 128-bit registers (rules R51, R56). -/
theorem regAt_blockWord (i : Fin 4) :
    regAt (BitVec.ofNat 8 (0x20 + 4 * i.val)) = some (.key i) ∧ regAt (BitVec.ofNat 8 (0x40 + 4 * i.val)) = some (.din i) ∧
      regAt (BitVec.ofNat 8 (0x50 + 4 * i.val)) = some (.aux i) ∧
      regAt (BitVec.ofNat 8 (0x60 + 4 * i.val)) = some (.tagin i) ∧
      regAt (BitVec.ofNat 8 (0x70 + 4 * i.val)) = some (.dout i) := by
  revert i
  decide

/-- The offsets of the words of NONCE (rules R51, R57). -/
theorem regAt_nonceWord (i : Fin 3) : regAt (BitVec.ofNat 8 (0x30 + 4 * i.val)) = some (.nonce i) := by
  revert i
  decide

/-- No register is at an offset exactly when it is misaligned or reserved (rules R53, R54). -/
theorem regAt_eq_none_iff : ∀ off : BitVec 8,
    regAt off = none ↔ off.extractLsb' 0 2 ≠ 0#2 ∨ off = 0x3C#8 ∨ 0x80 ≤ off.toNat := by
  decide +kernel

/-- The offsets of the read-only registers (rule R55). -/
theorem regAt_readOnly_iff (off : BitVec 8) :
    (∃ r, regAt off = some r ∧ writeKind r = .readOnly) ↔
      off ∈ [0x0C#8, 0x10#8, 0x18#8, 0x1C#8, 0x70#8, 0x74#8, 0x78#8, 0x7C#8] := by
  rw [← Option.map_eq_some_iff]
  revert off
  decide +kernel

/-- The offsets of the registers whose writes are dropped while busy (rule R60). -/
theorem regAt_whenIdle_iff (off : BitVec 8) :
    (∃ r, regAt off = some r ∧ writeKind r = .whenIdle) ↔
      off ∈ [0x00#8, 0x14#8, 0x20#8, 0x24#8, 0x28#8, 0x2C#8, 0x30#8, 0x34#8, 0x38#8, 0x40#8, 0x44#8, 0x48#8, 0x4C#8,
        0x50#8, 0x54#8, 0x58#8, 0x5C#8, 0x60#8, 0x64#8, 0x68#8, 0x6C#8] := by
  rw [← Option.map_eq_some_iff]
  revert off
  decide +kernel

/-- The offsets of KEY (rule R51). -/
theorem regAt_key {off : BitVec 8} (h : off ∈ [0x20#8, 0x24#8, 0x28#8, 0x2C#8]) : ∃ i, regAt off = some (.key i) := by
  revert off
  decide

/-! ### The accesses -/

section
variable {off : BitVec 8} {r : Reg}

/-- A read of a register is answered with its value (rule R55). -/
theorem busOp_read (h : regAt off = some r) (s : State) :
    busOp off .read s = reply (.readDone (readReg r s) .ok) s := by
  simp only [busOp, busRead, h]

/-- A read where no register is gets 0 and an error (rules R53, R54). -/
theorem busOp_read_unmapped (h : regAt off = none) (s : State) :
    busOp off .read s = reply (.readDone 0#32 .error) s := by
  simp only [busOp, busRead, h]

/-- A write where no register is gets an error (rules R53, R54). -/
theorem busOp_write_unmapped (h : regAt off = none) (v : Word) (s : State) :
    busOp off (.write v) s = reply (.writeDone .error) s := by
  simp only [busOp, busWrite, h]

/-- A write of a read-only register gets an error (rule R55). -/
theorem busOp_write_readOnly (h : regAt off = some r) (hk : writeKind r = .readOnly) (v : Word) (s : State) :
    busOp off (.write v) s = reply (.writeDone .error) s := by
  simp only [busOp, busWrite, h, hk]

/-- A write while busy of a register whose writes are dropped then sets OVERRUN and gets an error (rule R60). -/
theorem busOp_write_dropped (h : regAt off = some r) (hk : writeKind r = .whenIdle) (v : Word) {s : State}
    (hb : s.busy = true) : busOp off (.write v) s = reply (.writeDone .error) { s with overrun := true } := by
  simp only [busOp, busWrite, h, hk, hb, if_true]

/-- A write of a register that takes it at the time is performed (rules R55, R60). -/
theorem busOp_write (h : regAt off = some r) (v : Word) {s : State}
    (hk : writeKind r = .always ∨ writeKind r = .whenIdle ∧ s.busy = false) :
    busOp off (.write v) s = reply (.writeDone .ok) (writeReg r v s) := by
  rcases hk with hk | ⟨hk, hb⟩
  · simp only [busOp, busWrite, h, hk]
  · simp [busOp, busWrite, h, hk, hb]

/-- The same while nothing is pending, for a register whose writes are dropped while busy. -/
theorem busOp_write_idle (h : regAt off = some r) (hk : writeKind r = .whenIdle) (v : Word) {s : State}
    (hp : s.pend = none) : busOp off (.write v) s = reply (.writeDone .ok) (writeReg r v s) :=
  busOp_write h v (.inr ⟨hk, by simp [State.busy, hp]⟩)

end

/-- No write touches the replies given so far. -/
@[simp] theorem writeReg_replies (r : Reg) (v : Word) (s : State) : (writeReg r v s).replies = s.replies := by
  cases r <;> rfl

/-- No register shows the replies (rule R59). -/
@[simp] theorem readReg_reply (r : Reg) (a : Reply) (s : State) : readReg r (reply a s) = readReg r s := by
  cases r <;> rfl

/-- No register but STATUS shows whether a command is pending (rule R61). -/
theorem readReg_pend {r : Reg} (hr : r ≠ .status) (p : Option Pending) (s : State) :
    readReg r { s with pend := p } = readReg r s := by
  cases r
  case status => exact absurd rfl hr
  all_goals rfl

/-- A pending command shows in STATUS as BUSY, in bit 0, and nowhere else (rules R32, R61). -/
theorem statusWord_pending {s : State} (hp : s.pend = none) (p : Pending) :
    statusWord { s with pend := some p } = statusWord s ||| 1#32 := by
  apply BitVec.eq_of_getLsbD_eq
  intro k _
  simp only [statusWord, State.busy, hp, BitVec.getLsbD_or, BitVec.getLsbD_cast, BitVec.getLsbD_append]
  by_cases h0 : k = 0
  · simp [h0]
  · simp [h0]

/-! ### The statements about the window -/

/-- Settles O15: the words of a block, and each register's reads and writes by the offsets of its words. -/
theorem blockWordLayout : Obligations.BlockWordLayout := by
  refine ⟨fun r i j v => ⟨wordOf_setWord r i j v, ?_, rfl⟩, fun i s v hp => ?_, fun i s => ?_, by decide⟩
  · rw [byteOf_wordOf, wordOf_setWord, if_pos rfl]
  · obtain ⟨hkey, hdin, haux, htagin, _⟩ := regAt_blockWord i
    exact ⟨busOp_write_idle hkey rfl v hp, busOp_write_idle hdin rfl v hp, busOp_write_idle haux rfl v hp,
      busOp_write_idle htagin rfl v hp⟩
  · obtain ⟨_, hdin, haux, htagin, hdout⟩ := regAt_blockWord i
    exact ⟨busOp_read hdin s, busOp_read haux s, busOp_read htagin s, busOp_read hdout s⟩

/-- Settles O16: the words of NONCE by their offsets, and the 32-bit registers at theirs. -/
theorem nonceAndWordRegisters : Obligations.NonceAndWordRegisters :=
  ⟨fun r i j v => ⟨nonceWord_setNonceWord r i j v, rfl⟩, fun i s => busOp_read (regAt_nonceWord i) s,
    fun i _ v hp => busOp_write_idle (regAt_nonceWord i) rfl v hp,
    fun s => ⟨busOp_read (r := .cmd) rfl s, busOp_read (r := .status) rfl s, busOp_read (r := .irqEn) rfl s,
      busOp_read (r := .id) rfl s, busOp_read (r := .nres) rfl s, busOp_read (r := .nval) rfl s,
      busOp_read (r := .txcnt) rfl s, busOp_read (r := .rxhw) rfl s⟩,
    fun _ v hp => busOp_write_idle (r := .nval) rfl rfl v hp⟩

/-- Settles O13: no register is at a misaligned or reserved offset. -/
theorem misalignedAndReserved : Obligations.MisalignedAndReserved := by
  intro off s h
  have hn := (regAt_eq_none_iff off).mpr h
  exact ⟨busOp_read_unmapped hn s, fun v => busOp_write_unmapped hn v s⟩

/-- Settles O14: by the kind of the register at the offset. -/
theorem readOnlyAndWriteOnly : Obligations.ReadOnlyAndWriteOnly := by
  intro off s
  refine ⟨fun hro v => ?_, fun hkey => ?_, fun hal hlt hne => ?_⟩
  · obtain ⟨r, hr, hk⟩ := (regAt_readOnly_iff off).mpr hro
    exact busOp_write_readOnly hr hk v s
  · obtain ⟨i, hi⟩ := regAt_key hkey
    exact busOp_read hi s
  · have hsome : regAt off ≠ none := by simp [regAt_eq_none_iff, hal, hne, hlt]
    obtain ⟨r, hr⟩ := Option.ne_none_iff_exists'.mp hsome
    refine ⟨⟨readReg r s, by rw [busOp_read hr, reply_replies]⟩, fun hnro htime v => ?_⟩
    have hk : writeKind r = .always ∨ writeKind r = .whenIdle ∧ s.busy = false := by
      cases hw : writeKind r with
      | readOnly => exact absurd ((regAt_readOnly_iff off).mp ⟨r, hr, hw⟩) hnro
      | always => exact .inl rfl
      | whenIdle =>
        rcases htime with hb | rfl | rfl
        · exact .inr ⟨rfl, hb⟩
        · cases hr
          cases hw
        · cases hr
          cases hw
    rw [busOp_write hr v hk, reply_replies, writeReg_replies]

/-- Settles O17: a read adds a reply, and no register shows the replies. -/
theorem readsHaveNoEffect : Obligations.ReadsHaveNoEffect := by
  intro off s
  cases h : regAt off with
  | none => exact ⟨0#32, .error, busOp_read_unmapped h s, by simp only [busOp_read_unmapped h]; rfl⟩
  | some r => exact ⟨readReg r s, .ok, busOp_read h s, by simp only [busOp_read h, readReg_reply]; rfl⟩

/-- Settles O18: the registers whose writes are dropped while busy are those at the offsets listed. -/
theorem busyWrites : Obligations.BusyWrites := by
  intro off s v hb
  refine ⟨fun hoff => ?_, busOp_write (r := .status) rfl v (.inl rfl), busOp_write (r := .irqEn) rfl v (.inl rfl)⟩
  obtain ⟨r, hr, hk⟩ := (regAt_whenIdle_iff off).mpr hoff
  exact busOp_write_dropped hr hk v hb

/-- Settles O19: of all registers only STATUS shows the pending command, and that in bit 0. -/
theorem busyReads : Obligations.BusyReads := by
  intro s p off hp
  refine ⟨fun hne => ?_, ?_⟩
  · cases h : regAt off with
    | none => exact ⟨0#32, .error, busOp_read_unmapped h _, busOp_read_unmapped h _⟩
    | some r =>
      have hr : r ≠ .status := by
        rintro rfl
        exact hne (regAt_status off h)
      refine ⟨readReg r s, .ok, busOp_read h s, ?_⟩
      rw [← readReg_pend hr (some p) s]
      exact busOp_read h _
  · rintro rfl
    have hbit : (statusWord s).getLsbD 0 = false := (status_bit_zero s).trans (by simp [State.busy, hp])
    refine ⟨statusWord s, hbit, busOp_read (r := .status) rfl s, ?_⟩
    rw [← statusWord_pending hp p]
    exact busOp_read (r := .status) rfl _

/-! ### OVERRUN -/

/-- A step is a reset, which clears OVERRUN, or leaves it as the host's part left it (rule R156). -/
theorem step_overrun {s t : State} (h : step s = .next t) :
    resetting s ∧ t.overrun = false ∨ ∃ u, HostPart s u ∧ t.overrun = u.overrun := by
  rcases step_next h with ⟨a, rest, _, hh, rfl⟩ | ⟨u, hu, ⟨_, _, rfl⟩ | ⟨_, _, _, _, rfl⟩ | ⟨p, _, _, hx⟩⟩
  · exact .inl ⟨⟨a, rest, hh⟩, rfl⟩
  · exact .inr ⟨t, hu, rfl⟩
  · exact .inr ⟨u, hu, rfl⟩
  · obtain ⟨hov, _⟩ := runWord_frame hx
    exact .inr ⟨u, hu, hov⟩

/-- A host that writes does not assert `rst` in the same event. -/
theorem not_resetting_of_writing {s : State} {off : BitVec 8} (h : writing s off) : ¬ resetting s := by
  obtain ⟨v, rest, hw⟩ := h
  exact not_resetting_of (by simp [hw])

/-- The host's part sets OVERRUN when it is a write dropped while busy (rules R60, R156). -/
theorem hostPart_dropped {s u : State} {off : BitVec 8} {r : Reg} (h : HostPart s u) (hb : s.busy = true)
    (hw : writing s off) (hr : regAt off = some r) (hk : writeKind r = .whenIdle) : u.overrun = true := by
  rcases h with ⟨_, _, hn, _⟩ | ⟨_, _, _, hn, _⟩ | ⟨off', op, rest, hh, rfl⟩
  · exact absurd hw (hn off)
  · exact absurd hw (hn off)
  · obtain ⟨v, rest', hw⟩ := hw
    cases hh.symm.trans hw
    have hb' : State.busy { s with host := rest } = true := hb
    rw [busOp_write_dropped hr hk v hb', reply_overrun]

/-- Settles O27: a reset clears OVERRUN, and else the step leaves it as the host's access did. -/
theorem overrunSetAndCleared : Obligations.OverrunSetAndCleared := by
  refine ⟨fun w s t h => ?_, fun off r v s hb hr hk => ?_, fun v s h5 => ?_, fun s t h => ?_⟩
  · obtain ⟨hov, _⟩ := runWord_frame h
    exact hov
  · rw [busOp_write_dropped hr hk v hb]
    exact ⟨rfl, rfl⟩
  · rw [busOp_write (r := .status) rfl v (.inl rfl)]
    simp [writeReg, h5]
  · rcases step_overrun h with ⟨hr, h0⟩ | ⟨u, hu, hov⟩
    · refine ⟨fun _ => h0, fun _ ⟨off, _, hw, _⟩ => absurd hr (not_resetting_of_writing hw), fun _ h1 => ?_,
        fun _ _ => .inl hr⟩
      rw [h0] at h1
      cases h1
    · rw [hov]
      obtain ⟨_, hflag, _⟩ := hostPart_flags hu
      refine ⟨fun hr => absurd hr (hostPart_not_resetting hu),
        fun hb ⟨off, r, hw, hr, hk⟩ => hostPart_dropped hu hb hw hr hk, fun h0 h1 => ?_, fun h1 h0 => ?_⟩
      · rcases hflag with he | ⟨_, hset⟩ | ⟨hf, _⟩
        · simp [he, h0] at h1
        · exact hset
        · simp [hf] at h1
      · rcases hflag with he | ⟨ht, _⟩ | ⟨_, hclear⟩
        · simp [he, h1] at h0
        · simp [ht] at h0
        · exact .inr hclear

/-! ### The cycles in which nothing completes, and the accesses the model refuses -/

/-- With nothing pending the engine does nothing in a cycle (rule R165). -/
theorem engineCycle_not_pending {s : State} (hp : s.pend = none) (u : State) : engineCycle s.pend u = .next u := by
  simp only [engineCycle, hp]

/-- A cycle of the pending command before its last counts down (rule R182). -/
theorem engineCycle_counts {s : State} {p : Pending} (hp : s.pend = some p) (hl : 1 < p.left) (u : State) :
    engineCycle s.pend u = .next { u with pend := some { word := p.word, left := p.left - 1 } } := by
  simp only [engineCycle, hp, if_neg (Nat.not_le.mpr hl)]

/-- An idle cycle is the engine's part alone (rule R182). -/
theorem step_idle {s : State} {rest : List HostEvent} (h : s.host = .idle :: rest) :
    step s = engineCycle s.pend { s with host := rest } := by
  simp only [step, stepOnce, h, hostEvent]

/-- A cycle with a 32-bit access is the access and then the engine's part (rule R182; log entry 3). -/
theorem step_bus {s : State} {off : BitVec 8} {op : BusOp} {rest : List HostEvent}
    (h : s.host = .bus { width := .word, off := off, op := op } :: rest) :
    step s = engineCycle s.pend (busOp off op { s with host := rest }) := by
  simp only [step, stepOnce, h, hostEvent, accessCycle]

/-- With nothing left to do for the host, the step is the completion of what is pending (rule R184; log entry 13). -/
theorem step_nil {s : State} (h : s.host = []) : step s = complete s := by
  simp only [step, stepOnce, h]

/-- A wait is all cycles to the completion of what is pending (rule R64; log entry 13). -/
theorem step_wait {s : State} {rest : List HostEvent} (h : s.host = .wait :: rest) :
    step s = complete { s with host := rest } := by
  simp only [step, stepOnce, h, hostEvent]

/-- With nothing pending there is nothing to complete (rule R165). -/
theorem complete_of_not_pending {s : State} (hp : s.pend = none) : complete s = .next s := by
  simp only [complete, hp]

/-- Settles O10: each host event is its access and then the engine's part of the cycle. -/
theorem cyclesBeforeCompletion : Obligations.CyclesBeforeCompletion := by
  intro s
  refine ⟨fun hp hh => ?_, fun rest hp hh => ?_, fun rest hp hh => ?_, fun rest off op hp hh => step_access hp hh,
    fun rest p hp hl hh => ?_, fun rest p hp hl hh => ?_, fun rest p off op hp hl hh => ?_⟩
  · rw [step_nil hh, complete_of_not_pending hp]
  · rcases hh with hh | hh
    · rw [step_idle hh, engineCycle_not_pending hp]
    · rw [step_wait hh]
      exact complete_of_not_pending hp
  · have hb : ¬ s.busy = true := by simp [State.busy, hp]
    rw [step_poll hh, if_neg hb, engineCycle_not_pending hp, busOp_read (r := .status) rfl]
    rfl
  · rw [step_idle hh, engineCycle_counts hp hl]
  · have hb : s.busy = true := by simp [State.busy, hp]
    rw [step_poll hh, if_pos hb, ← hh, engineCycle_counts hp hl, busOp_read (r := .status) rfl]
    rfl
  · rw [step_bus hh, engineCycle_counts hp hl]

/-- A sub-word access is refused (rule R52; log entry 8). -/
theorem accessCycle_subWord {a : Access} (h : a.width = .byte ∨ a.width = .half) (s : State) :
    accessCycle a s = .refused .subWordAccess := by
  rcases h with h | h
  · simp only [accessCycle, h]
  · simp only [accessCycle, h]

/-- A sub-word access is refused in a cycle of reset too (rule R52; log entry 8). -/
theorem resetCycle_subWord {a : Access} (h : a.width = .byte ∨ a.width = .half) (s : State) :
    resetCycle (some a) s = .refused .subWordAccess := by
  rcases h with h | h
  · simp only [resetCycle, h]
  · simp only [resetCycle, h]

/-- Settles O21: the step is the cycle of its host event, which refuses the access in a reset and outside one. -/
theorem subWordRefused : Obligations.SubWordRefused := by
  rintro s a rest hw (hh | hh)
  · simp only [step, stepOnce, hh, hostEvent]
    exact accessCycle_subWord hw _
  · simp only [step, stepOnce, hh, hostEvent]
    exact resetCycle_subWord hw _

end Sys2Proof.Proofs
end

section
/-! The encoding: what the decoder answers by the fields of the word, and that encoder and decoder undo each other. -/
namespace Sys2Proof.Proofs

open Sys2Proof.Machine Sys2Proof.Safety Sys2Proof.Laws

/-! ### The decoder, by the fields of the word -/

section
variable {w : Word} {i : Instr}

/-- A word whose OP is no opcode is illegal (rule R73). -/
theorem decode_illegal (h : instrOf (opOf w) (nbytesOf w) = none) : decode w = .error .illegal := by
  simp only [decode, h]

/-- A reserved bit set rejects a word with a defined OP (rule R73). -/
theorem decode_reserved (h : instrOf (opOf w) (nbytesOf w) = some i) (hr : rsvdOf w ≠ 0#19) :
    decode w = .error .reserved := by
  simp only [decode, h, if_neg hr]

/-- A count the command does not take rejects a word whose other fields are legal (rule R73). -/
theorem decode_nbytes (h : instrOf (opOf w) (nbytesOf w) = some i) (hr : rsvdOf w = 0#19)
    (hc : ¬ i.allowsCount (nbytesOf w) = true) : decode w = .error .nbytes := by
  simp only [decode, h, if_pos hr, if_neg hc]

/-- A word whose three fields are legal is the command of its OP and NBYTES (rules R71, R72). -/
theorem decode_legal (h : instrOf (opOf w) (nbytesOf w) = some i) (hr : rsvdOf w = 0#19)
    (hc : i.allowsCount (nbytesOf w) = true) : decode w = .ok i := by
  simp only [decode, h, if_pos hr, if_pos hc]

end

/-- The opcode map reads every command back from its opcode and its count (rule R72). -/
theorem instrOf_opcode_count (i : Instr) : instrOf i.opcode i.count = some i := by
  cases i <;> rfl

/-- A command is well formed when its own count is one it takes (rule R71). -/
theorem allowsCount_count (i : Instr) : i.allowsCount i.count = i.wellFormed := by
  cases i <;> rfl

/-! ### Encoder and decoder -/

/-- Settles O2: the fields of the command's word are its opcode, its count and 0, which the decoder reads back. -/
theorem decodeOfEncode : Obligations.DecodeOfEncode := by
  intro i hw
  apply decode_legal
  · rw [opOf_encode, nbytesOf_encode, instrOf_opcode_count]
  · exact rsvdOf_encode i
  · rw [nbytesOf_encode, allowsCount_count, hw]

/-- Settles O3: the word is that of its command, so the count the decoder allowed is the command's own. -/
theorem encodeOfDecode : Obligations.EncodeOfDecode := by
  intro w i h
  have hw : encode i = w := encode_of_decode h
  obtain ⟨_, _, hc⟩ := decode_ok h
  rw [← hw, nbytesOf_encode, allowsCount_count] at hc
  exact ⟨hw, hc⟩

/-- Settles O1, by evaluating the decoder on each word. -/
theorem specWordsDecode : Obligations.SpecWordsDecode := by
  unfold Obligations.SpecWordsDecode
  decide

/-! ### The words that are rejected -/

/-- The fifteen opcodes (rule R72). -/
def definedOps : List (BitVec 8) :=
  [0x01#8, 0x02#8, 0x03#8, 0x04#8, 0x10#8, 0x11#8, 0x12#8, 0x13#8, 0x14#8, 0x15#8, 0x16#8, 0x17#8,
   0x20#8, 0x21#8, 0x22#8]

/-- The opcodes of the block commands, whose words carry a count (rule R71). -/
def blockOps : List (BitVec 8) := [0x12#8, 0x13#8, 0x14#8, 0x16#8]

/-- The opcode map has no command exactly for an OP outside the fifteen (rules R72, R73). -/
theorem instrOf_eq_none_iff (op : BitVec 8) (n : BitVec 5) : instrOf op n = none ↔ op ∉ definedOps := by
  simp [instrOf, definedOps, ite_eq_iff]

/-- The opcode of a command tells whether its word carries a count (rule R71). -/
theorem takesCount_iff (i : Instr) : i.takesCount = true ↔ i.opcode ∈ blockOps := by
  cases i <;> simp [Instr.takesCount, Instr.opcode, blockOps]

/-- An opcode of the fifteen has its command (rule R72). -/
theorem exists_instrOf {op : BitVec 8} (h : op ∈ definedOps) (n : BitVec 5) :
    ∃ i, instrOf op n = some i ∧ i.opcode = op := by
  obtain ⟨i, hi⟩ := Option.ne_none_iff_exists'.mp fun hn => (instrOf_eq_none_iff op n).mp hn h
  obtain ⟨hop, _⟩ := instrOf_spec hi
  exact ⟨i, hi, hop⟩

/-- The counts a command takes: 1 to 16 for a block command, 0 for every other (rule R71). -/
theorem allowsCount_iff {i : Instr} {op : BitVec 8} (hop : i.opcode = op) (n : BitVec 5) :
    i.allowsCount n = true ↔ op ∈ blockOps ∧ 1 ≤ n.toNat ∧ n.toNat ≤ 16 ∨ op ∉ blockOps ∧ n.toNat = 0 := by
  have hz : n = 0#5 ↔ n.toNat = 0 := BitVec.toNat_eq
  rw [← hop, ← takesCount_iff]
  cases h : i.takesCount with
  | true => simp [Instr.allowsCount, h, legalCount_iff]
  | false => simp [Instr.allowsCount, h, hz]

/-- A word the decoder rejects completes with the decoder's error and no other effect (rules R77, R153). -/
theorem runWord_of_decode_error {w : Word} {e : ErrCode} (h : decode w = .error e) (s : State) :
    runWord w s = .next (finish w e s) := by
  simp only [runWord, h]

/-- Settles O4: the decoder's four answers, the legal counts being those the command of the word's OP takes. -/
theorem reservedWordsRejected : Obligations.ReservedWordsRejected := by
  intro w s
  refine ⟨fun hop => ?_, fun hop hr => ?_, fun hop hr hc => ?_, fun hop hr hc => ?_⟩
  · exact runWord_of_decode_error (decode_illegal ((instrOf_eq_none_iff _ _).mpr hop)) s
  · obtain ⟨i, hi, _⟩ := exists_instrOf hop (nbytesOf w)
    exact runWord_of_decode_error (decode_reserved hi hr) s
  · obtain ⟨i, hi, hopcode⟩ := exists_instrOf hop (nbytesOf w)
    exact runWord_of_decode_error (decode_nbytes hi hr fun ha => hc ((allowsCount_iff hopcode _).mp ha)) s
  · obtain ⟨i, hi, hopcode⟩ := exists_instrOf hop (nbytesOf w)
    have hd : decode w = .ok i := decode_legal hi hr ((allowsCount_iff hopcode _).mpr hc)
    have hn : i.count = nbytesOf w := by rw [← nbytesOf_encode, encode_of_decode hd]
    exact ⟨i, hd, hopcode, congrArg BitVec.toNat hn, runWord_of_decode hd s⟩

end Sys2Proof.Proofs
end

section
/-! The end of every run: what each host event makes of the host's list, the runs of a host that makes 32-bit accesses
only, and the reads of a poll. -/
namespace Sys2Proof.Proofs

open Sys2Proof.Machine Sys2Proof.Safety Sys2Proof.Laws

/-! ### Every step answers, and what it leaves on the host's list -/

/-- No access touches the host's list. -/
theorem busOp_host (off : BitVec 8) (op : BusOp) (s : State) : (busOp off op s).host = s.host := by
  rcases busOp_cases off op s with ⟨r, e⟩ | ⟨_, _, _, _, _, _, e⟩ | ⟨v, r, _, _, e, _⟩
  · rw [e, reply_host]
  · rw [e, reply_host]
  · rw [e, reply_host]
    cases r <;> rfl

/-- The completion of a word leaves the host's list and ends BUSY. -/
theorem runWord_answers (w : Word) (s : State) : ∃ t, runWord w s = .next t ∧ t.host = s.host ∧ t.pend = none := by
  obtain ⟨t, ht⟩ := runWord_total w s
  obtain ⟨_, _, _, hhost, _, _, hpend⟩ := runWord_frame ht
  exact ⟨t, ht, hhost, hpend⟩

/-- The engine's part of a cycle always answers, and leaves the host's list. -/
theorem engineCycle_answers (p : Option Pending) (s : State) : ∃ t, engineCycle p s = .next t ∧ t.host = s.host := by
  unfold engineCycle
  split
  · exact ⟨s, rfl, rfl⟩
  · next p =>
    split
    · obtain ⟨t, ht, hhost, _⟩ := runWord_answers p.word s
      exact ⟨t, ht, hhost⟩
    · exact ⟨_, rfl, rfl⟩

/-- All cycles to the completion always answer, leave the host's list and end BUSY. -/
theorem complete_answers (s : State) : ∃ t, complete s = .next t ∧ t.host = s.host ∧ t.pend = none := by
  unfold complete
  split
  · next hp => exact ⟨s, rfl, rfl, hp⟩
  · next p _ => exact runWord_answers p.word s

/-- A cycle with `rst` asserted is the reset alone (rule R171). -/
theorem step_resetEvent {s : State} {a : Option Access} {rest : List HostEvent} (h : s.host = .reset a :: rest) :
    step s = resetCycle a { s with host := rest } := by
  simp only [step, stepOnce, h, hostEvent]

/-- A step that has an event answers if every access in it is 32 bits wide, and takes the event off the host's list, unless
it is a poll, which may stay (rules R52, R76). -/
theorem step_event_answers {s : State} {e : HostEvent} {rest : List HostEvent} (hh : s.host = e :: rest)
    (he : wordEvent e = true) : ∃ t, step s = .next t ∧ (t.host = rest ∨ e = .poll ∧ t.host = e :: rest) := by
  cases e with
  | idle =>
    obtain ⟨t, ht, hhost⟩ := engineCycle_answers s.pend { s with host := rest }
    exact ⟨t, (step_idle hh).trans ht, .inl hhost⟩
  | wait =>
    obtain ⟨t, ht, hhost, _⟩ := complete_answers { s with host := rest }
    exact ⟨t, (step_wait hh).trans ht, .inl hhost⟩
  | poll =>
    obtain ⟨t, ht, hhost⟩ := engineCycle_answers s.pend
      (reply (.readDone (statusWord s) .ok) { s with host := if s.busy then .poll :: rest else rest })
    refine ⟨t, (step_poll hh).trans ht, ?_⟩
    rw [hhost, reply_host]
    cases s.busy with
    | true => exact .inr ⟨rfl, rfl⟩
    | false => exact .inl rfl
  | bus a =>
    obtain ⟨width, off, op⟩ := a
    obtain rfl : width = .word := of_decide_eq_true he
    obtain ⟨t, ht, hhost⟩ := engineCycle_answers s.pend (busOp off op { s with host := rest })
    exact ⟨t, (step_bus hh).trans ht, .inl (hhost.trans (busOp_host off op _))⟩
  | reset a =>
    cases a with
    | none => exact ⟨applyReset { s with host := rest }, step_resetEvent hh, .inl rfl⟩
    | some a =>
      obtain ⟨width, off, op⟩ := a
      obtain rfl : width = .word := of_decide_eq_true he
      exact ⟨reply (replyInReset op s.replies.length) (applyReset { s with host := rest }), step_resetEvent hh, .inl rfl⟩

/-- A step without an event answers, and leaves nothing pending. -/
theorem step_nil_answers {s : State} (hh : s.host = []) : ∃ t, step s = .next t ∧ t.host = [] ∧ t.pend = none := by
  obtain ⟨t, ht, hhost, hpend⟩ := complete_answers s
  exact ⟨t, (step_nil hh).trans ht, hhost.trans hh, hpend⟩

/-- The first event of a host that makes 32-bit accesses only has no other, nor has what is left after it. -/
theorem wordHost_cons {s : State} {e : HostEvent} {rest : List HostEvent} (hw : WordHost s) (hh : s.host = e :: rest) :
    wordEvent e = true ∧ ∀ t : State, t.host = rest → WordHost t := by
  unfold WordHost at *
  rw [hh] at hw
  exact ⟨hw e List.mem_cons_self, fun t ht e' he' => hw e' (List.mem_cons_of_mem e (ht ▸ he'))⟩

/-- While the host makes 32-bit accesses only, every step answers, and the host goes on so (rules R52, R184). -/
theorem step_wordHost {s : State} (hw : WordHost s) : ∃ t, step s = .next t ∧ WordHost t := by
  cases hh : s.host with
  | nil =>
    obtain ⟨t, ht, hhost, _⟩ := step_nil_answers hh
    exact ⟨t, ht, by simp [WordHost, hhost]⟩
  | cons e rest =>
    obtain ⟨he, hrest⟩ := wordHost_cons hw hh
    obtain ⟨t, ht, hhost | ⟨_, hhost⟩⟩ := step_event_answers hh he
    · exact ⟨t, ht, hrest t hhost⟩
    · exact ⟨t, ht, fun e' he' => hw e' (hh ▸ hhost ▸ he')⟩

/-! ### The cycles of a poll -/

/-- A poll while nothing is pending reads STATUS once and is over (rule R76). -/
theorem step_poll_idle {s : State} {rest : List HostEvent} (hp : s.pend = none) (hh : s.host = .poll :: rest) :
    step s = .next { s with host := rest, replies := s.replies ++ [.readDone (statusWord s) .ok] } := by
  have hb : s.busy = false := by simp [State.busy, hp]
  rw [step_poll hh, engineCycle_not_pending hp, hb]
  rfl

/-- While a command is pending a poll is a read of STATUS and then the engine's part, and stays on the host's list
(rule R76; log entry 3). -/
theorem step_poll_pending {s : State} {p : Pending} {rest : List HostEvent} (hp : s.pend = some p)
    (hh : s.host = .poll :: rest) : step s = engineCycle (some p) (reply (.readDone (statusWord s) .ok) s) := by
  have hb : s.busy = true := by simp [State.busy, hp]
  rw [step_poll hh, if_pos hb, ← hh, ← hp]

/-- `s` after `k` reads of STATUS by a poll, `left` cycles of the pending command `p` still to go. -/
def polled (s : State) (p : Pending) (k left : Nat) : State :=
  { s with
    pend := some { word := p.word, left := left }
    replies := s.replies ++ List.replicate k (.readDone (statusWord s) .ok) }

section
variable {s : State} {p : Pending} (hp : s.pend = some p)
include hp

theorem polled_zero : polled s p 0 p.left = s := by
  simp [polled, ← hp]

/-- The reads of a poll while busy all give the same STATUS (rules R59, R61). -/
theorem statusWord_polled (k left : Nat) : statusWord (polled s p k left) = statusWord s := by
  simp only [statusWord, polled, State.busy, hp, Option.isSome_some]

/-- One more read. -/
theorem reply_polled (k left : Nat) :
    reply (.readDone (statusWord (polled s p k left)) .ok) (polled s p k left) = polled s p (k + 1) left := by
  rw [statusWord_polled hp]
  simp [polled, reply, List.replicate_succ']

variable {rest : List HostEvent} (hh : s.host = .poll :: rest)
include hh

/-- A step of a poll before the command's last cycle is one more read, and one cycle less to go. -/
theorem step_polled (k : Nat) {left : Nat} (hl : 1 < left) :
    step (polled s p k left) = .next (polled s p (k + 1) (left - 1)) := by
  have hh' : (polled s p k left).host = .poll :: rest := hh
  rw [step_poll_pending rfl hh', reply_polled hp]
  exact engineCycle_counts (s := polled s p k left) rfl hl _

/-- A step of a poll in the command's last cycle is one more read and then the completion (log entry 3). -/
theorem step_polled_last (k : Nat) {left : Nat} (hl : left ≤ 1) :
    step (polled s p k left) = runWord p.word (polled s p (k + 1) left) := by
  have hh' : (polled s p k left).host = .poll :: rest := hh
  rw [step_poll_pending rfl hh', reply_polled hp, engineCycle_last hl]

/-- A poll reads STATUS in each cycle before the command's last. -/
theorem run_polled {k : Nat} (hk : k < p.left) : Sys2Proof.core.run k s = .next (polled s p k (p.left - k)) := by
  induction k with
  | zero => exact congrArg _ (polled_zero hp).symm
  | succ k ih => exact (run_succ_end k (ih (by omega))).trans (step_polled hp hh k (by omega))

/-- In the last cycle of the command it reads STATUS once more, and the command completes. -/
theorem run_polled_last (hl : 1 ≤ p.left) : Sys2Proof.core.run p.left s = runWord p.word (polled s p p.left 1) := by
  obtain ⟨k, hk⟩ := Nat.exists_eq_add_of_le' hl
  have hlast : p.left - k = 1 := by omega
  rw [hk, run_succ_end k (run_polled hp hh (by omega)), hlast, step_polled_last hp hh k le_rfl]

end

/-! ### The runs -/

/-- In `k` steps the host's events are used up and nothing is left pending. -/
def EndsIn (k : Nat) (s : State) : Prop :=
  ∃ t, Sys2Proof.core.run k s = .next t ∧ t.host = [] ∧ t.busy = false

/-- A run ends one step later than that from the state after its first step. -/
theorem EndsIn.of_step {k : Nat} {s t : State} (h : step s = .next t) : EndsIn k t → EndsIn (k + 1) s := by
  rintro ⟨u, hu, hend⟩
  exact ⟨u, (run_succ_next h k).trans hu, hend⟩

/-- Without events one step ends the run. -/
theorem endsIn_one {s : State} (hh : s.host = []) : EndsIn 1 s := by
  obtain ⟨t, ht, hhost, hpend⟩ := step_nil_answers hh
  exact .of_step ht ⟨t, rfl, hhost, by simp [State.busy, hpend]⟩

/-- Without polls each event is one step, and one more ends the run. -/
theorem endsIn_of_no_poll (s : State) (hw : WordHost s) (hn : .poll ∉ s.host) : EndsIn (s.host.length + 1) s := by
  induction hh : s.host generalizing s with
  | nil => exact endsIn_one hh
  | cons e rest ih =>
    obtain ⟨he, hrest⟩ := wordHost_cons hw hh
    rw [hh, List.mem_cons, not_or] at hn
    obtain ⟨hne, hn⟩ := hn
    obtain ⟨t, ht, hhost | ⟨rfl, _⟩⟩ := step_event_answers hh he
    · exact .of_step ht (ih t (hrest t hhost) (hhost ▸ hn) hhost)
    · exact absurd rfl hne

/-- A poll ends with the pending command, by induction on its cycles; the run ends if it does from what follows. -/
theorem endsIn_of_poll {rest : List HostEvent} (hrest : ∀ t : State, t.host = rest → ∃ k, EndsIn k t) {s : State}
    (hh : s.host = .poll :: rest) : ∃ k, EndsIn k s := by
  have hidle (t : State) (hhost : t.host = .poll :: rest) (hpend : t.pend = none) : ∃ k, EndsIn k t := by
    obtain ⟨k, hk⟩ := hrest { t with host := rest, replies := t.replies ++ [.readDone (statusWord t) .ok] } rfl
    exact ⟨k + 1, .of_step (step_poll_idle hpend hhost) hk⟩
  cases hp : s.pend with
  | none => exact hidle s hh hp
  | some p =>
    induction hl : p.left using Nat.strong_induction_on generalizing s p with
    | _ left ih =>
      rcases Nat.lt_or_ge 1 left with h1 | h1
      · subst hl
        have hstep := step_polled hp hh 0 h1
        rw [polled_zero hp] at hstep
        obtain ⟨k, hk⟩ := ih (p.left - 1) (by omega) (s := polled s p 1 (p.left - 1)) hh _ rfl rfl
        exact ⟨k + 1, .of_step hstep hk⟩
      · have hstep := step_polled_last hp hh 0 (hl.trans_le h1)
        rw [polled_zero hp] at hstep
        obtain ⟨t, ht, hhost, hpend⟩ := runWord_answers p.word (polled s p 1 p.left)
        obtain ⟨k, hk⟩ := hidle t (hhost.trans hh) hpend
        exact ⟨k + 1, .of_step (hstep.trans ht) hk⟩

/-- Every run of a host that makes 32-bit accesses only ends, by induction on its events (rule R184). -/
theorem exists_endsIn (s : State) (hw : WordHost s) : ∃ k, EndsIn k s := by
  induction hh : s.host generalizing s with
  | nil => exact ⟨1, endsIn_one hh⟩
  | cons e rest ih =>
    obtain ⟨he, hrest⟩ := wordHost_cons hw hh
    have hends (t : State) (hhost : t.host = rest) : ∃ k, EndsIn k t := ih t (hrest t hhost) hhost
    obtain ⟨t, ht, hhost | ⟨rfl, _⟩⟩ := step_event_answers hh he
    · obtain ⟨k, hk⟩ := hends t hhost
      exact ⟨k + 1, .of_step ht hk⟩
    · exact endsIn_of_poll hends hh

/-- Settles O52: by induction on the host's events, and for a poll on the cycles of the pending command. -/
theorem runsEnd : Obligations.RunsEnd := by
  refine ⟨fun s hw => step_wordHost hw, exists_endsIn, endsIn_of_no_poll, fun s p rest hp hl hh => ?_,
    fun s rest hp hh => ?_⟩
  · exact ⟨(status_bit_zero s).trans (by simp [State.busy, hp]), fun k hk => run_polled hp hh hk, run_polled_last hp hh hl⟩
  · exact ⟨(status_bit_zero s).trans (by simp [State.busy, hp]), step_poll_idle hp hh⟩

end Sys2Proof.Proofs
end

section
/-! The field GF(2^8): xtime and the product are linear over XOR, so that a law of bytes needs only the powers of x
(40_aes.md rules R83, R84). -/
namespace Sys2Proof.Proofs

open Sys2Proof.Machine

/-! ### XOR of bytes -/

theorem byte_xor_left_comm (a b c : Byte) : a ^^^ (b ^^^ c) = b ^^^ (a ^^^ c) := by
  rw [← BitVec.xor_assoc, BitVec.xor_comm a, BitVec.xor_assoc]

/-! ### `xtime` -/

theorem xtime_eq (b : Byte) : xtime b = (b <<< 1) ^^^ (if b.getLsbD 7 then 0x1B#8 else 0x00#8) := by
  unfold xtime
  split <;> simp

theorem xtime_zero : xtime 0#8 = 0#8 := rfl

theorem xtime_xor (a b : Byte) : xtime (a ^^^ b) = xtime a ^^^ xtime b := by
  simp only [xtime_eq, BitVec.shiftLeft_xor_distrib, BitVec.getLsbD_xor]
  cases a.getLsbD 7 <;> cases b.getLsbD 7 <;>
    simp [BitVec.xor_assoc, BitVec.xor_comm, byte_xor_left_comm]

/-! ### `mul8` as a sum of partial products -/

/-- The sum over the bits `k` and up, as a fold over their indices (rule R84). -/
theorem foldl_partial_products (a b acc : Byte) (n k : Nat) :
    (List.range' k n).foldl (fun acc i => if b.getLsbD i then acc ^^^ (xtime^[i]) a else acc) acc =
      acc ^^^ mul8From b n k ((xtime^[k]) a) := by
  induction n generalizing k acc with
  | zero => simp [mul8From]
  | succ n ih =>
    rw [List.range'_succ, List.foldl_cons, ih, mul8From, Function.iterate_succ_apply']
    split <;> simp [BitVec.xor_assoc]

theorem mul8From_zero_left (b : Byte) (n k : Nat) : mul8From b n k 0#8 = 0#8 := by
  induction n generalizing k with
  | zero => rfl
  | succ n ih => simp [mul8From, xtime_zero, ih]

theorem mul8From_zero_right (n k : Nat) (a : Byte) : mul8From 0#8 n k a = 0#8 := by
  induction n generalizing k a with
  | zero => rfl
  | succ n ih => simp [mul8From, ih]

theorem mul8From_xor_left (b : Byte) (n k : Nat) (a a' : Byte) :
    mul8From b n k (a ^^^ a') = mul8From b n k a ^^^ mul8From b n k a' := by
  induction n generalizing k a a' with
  | zero => simp [mul8From]
  | succ n ih =>
    simp only [mul8From, xtime_xor, ih]
    split <;> simp [BitVec.xor_assoc, byte_xor_left_comm]

theorem mul8From_xor_right (b b' : Byte) (n k : Nat) (a : Byte) :
    mul8From (b ^^^ b') n k a = mul8From b n k a ^^^ mul8From b' n k a := by
  induction n generalizing k a with
  | zero => simp [mul8From]
  | succ n ih =>
    simp only [mul8From, ih, BitVec.getLsbD_xor]
    cases b.getLsbD k <;> cases b'.getLsbD k <;>
      simp [BitVec.xor_assoc, byte_xor_left_comm]

theorem mul8From_xtime (b : Byte) (n k : Nat) (a : Byte) : mul8From b n k (xtime a) = xtime (mul8From b n k a) := by
  induction n generalizing k a with
  | zero => simp [mul8From, xtime_zero]
  | succ n ih =>
    rw [mul8From, mul8From, xtime_xor, ih]
    split <;> rfl

/-- What holds of 0, of `a` times each power of x, and of an XOR where it holds of both parts, holds of a sum of partial products. -/
theorem mul8From_induction {P : Byte → Prop} (zero : P 0#8) (xor : ∀ a b, P a → P b → P (a ^^^ b)) (b : Byte) {n : Nat}
    (k : Nat) {a : Byte} (pow : ∀ i < n, P ((xtime^[i]) a)) : P (mul8From b n k a) := by
  induction n generalizing k a with
  | zero => exact zero
  | succ n ih =>
    have hhead : P (if b.getLsbD k then a else 0#8) := by
      split
      · exact pow 0 (by omega)
      · exact zero
    exact xor _ _ hhead (ih (k + 1) fun i hi => pow (i + 1) (by omega))

/-! ### The laws of `mul8` -/

theorem mul8_zero (a : Byte) : mul8 a 0#8 = 0#8 := mul8From_zero_right 8 0 a

theorem zero_mul8 (b : Byte) : mul8 0#8 b = 0#8 := mul8From_zero_left b 8 0

theorem xor_mul8 (a a' b : Byte) : mul8 (a ^^^ a') b = mul8 a b ^^^ mul8 a' b := mul8From_xor_left b 8 0 a a'

theorem mul8_xor (a b b' : Byte) : mul8 a (b ^^^ b') = mul8 a b ^^^ mul8 a b' := mul8From_xor_right b b' 8 0 a

theorem mul8_one (a : Byte) : mul8 a 0x01#8 = a := by
  simp [mul8, mul8From]

theorem mul8_two (a : Byte) : mul8 a 0x02#8 = xtime a := by
  simp [mul8, mul8From]

theorem mul8_three (a : Byte) : mul8 a 0x03#8 = a ^^^ xtime a := by
  simp [mul8, mul8From]

/-- Every byte is the sum of the powers of x at its bits. -/
theorem one_mul8 : ∀ b : Byte, mul8 0x01#8 b = b := by decide +kernel

/-- Induction on a byte as a sum of powers of x. -/
theorem byte_induction {P : Byte → Prop} (b : Byte) (zero : P 0#8) (pow : ∀ i < 8, P ((xtime^[i]) 0x01#8))
    (xor : ∀ a b, P a → P b → P (a ^^^ b)) : P b :=
  one_mul8 b ▸ mul8From_induction zero xor b 0 pow

/-- The powers of x commute. -/
theorem mul8_pow_comm : ∀ i < 8, ∀ j < 8,
    mul8 ((xtime^[i]) 0x01#8) ((xtime^[j]) 0x01#8) = mul8 ((xtime^[j]) 0x01#8) ((xtime^[i]) 0x01#8) := by
  decide +kernel

/-- The product is linear in both factors, and commutes on the powers of x (rule R84). -/
theorem mul8_comm (a b : Byte) : mul8 a b = mul8 b a := by
  induction a using byte_induction with
  | zero => rw [zero_mul8, mul8_zero]
  | xor a a' ha ha' => rw [xor_mul8, mul8_xor, ha, ha']
  | pow i hi =>
    induction b using byte_induction with
    | zero => rw [zero_mul8, mul8_zero]
    | xor b b' hb hb' => rw [xor_mul8, mul8_xor, hb, hb']
    | pow j hj => exact mul8_pow_comm i hi j hj

/-- The powers of x can be taken out of the first factor. -/
theorem xtime_iterate_mul8 (i : Nat) (a b : Byte) : mul8 ((xtime^[i]) a) b = (xtime^[i]) (mul8 a b) := by
  induction i with
  | zero => rfl
  | succ i ih =>
    rw [Function.iterate_succ_apply', Function.iterate_succ_apply', ← ih]
    exact mul8From_xtime b 8 0 _

theorem mul8_assoc (a b c : Byte) : mul8 (mul8 a b) c = mul8 a (mul8 b c) := by
  induction a using byte_induction with
  | zero => simp only [zero_mul8]
  | xor a a' ha ha' => simp only [xor_mul8, ha, ha']
  | pow i _ => simp only [xtime_iterate_mul8, one_mul8]

/-- A byte has one inverse. -/
theorem eq_of_mul8_eq_one {a a' b : Byte} (h : mul8 a b = 0x01#8) (h' : mul8 a' b = 0x01#8) : a = a' :=
  calc
    a = mul8 a (mul8 a' b) := by rw [h', mul8_one]
    _ = mul8 (mul8 a b) a' := by rw [mul8_comm a' b, mul8_assoc]
    _ = a' := by rw [h, one_mul8]

/-- Settles O28: the product as a fold is its recursion, and commutes because it is linear in both factors. -/
theorem byteField : Obligations.ByteField := by
  refine ⟨xtime_eq, rfl, rfl, fun a b => ?_, mul8_comm, mul8_one, mul8_zero, rfl, rfl⟩
  rw [List.range_eq_range', foldl_partial_products, BitVec.zero_xor]
  rfl

end Sys2Proof.Proofs
end

section
/-! The S-box as the affine map of the inverse, and the round transformations on the state array (40_aes.md rules R81,
R85-R89). -/
namespace Sys2Proof.Proofs

open Sys2Proof.Machine Sys2Proof.Laws

/-! ### The S-box -/

/-- Bit `i` of a byte rotated right by `n`. -/
theorem byte_getLsbD_rotateRight (b : Byte) {n i : Nat} (hn : n < 8) (hi : i < 8) :
    (b.rotateRight n).getLsbD i = b.getLsbD ((i + n) % 8) := by
  rw [BitVec.getLsbD_rotateRight, Nat.mod_eq_of_lt hn]
  by_cases h : i < 8 - n
  · have e : (i + n) % 8 = n + i := by omega
    simp [h, e]
  · have e : (i + n) % 8 = i - (8 - n) := by omega
    simp [h, hi, e]

/-- The affine map, bit by bit (rule R85). -/
theorem affine_getLsbD (b : Byte) (i : Fin 8) : (affine b).getLsbD i.val =
    (b.getLsbD i.val ^^ b.getLsbD ((i.val + 4) % 8) ^^ b.getLsbD ((i.val + 5) % 8) ^^
      b.getLsbD ((i.val + 6) % 8) ^^ b.getLsbD ((i.val + 7) % 8) ^^ (0x63#8).getLsbD i.val) := by
  simp only [affine, BitVec.getLsbD_xor, byte_getLsbD_rotateRight, i.isLt, Nat.reduceLT]

/-- The inverse of the affine map. -/
def affineInv (b : Byte) : Byte := b.rotateRight 2 ^^^ b.rotateRight 5 ^^^ b.rotateRight 7 ^^^ 0x05#8

theorem affine_affineInv : ∀ b : Byte, affine (affineInv b) = b := by decide +kernel

/-- The inverse in GF(2^8), as rule R85 gives it for an entry of the table; 0 for 0. -/
def inv8 (a : Byte) : Byte := affineInv (sbox a)

theorem inv8_zero : inv8 0#8 = 0#8 := rfl

theorem mul8_inv8 : ∀ a : Byte, a ≠ 0#8 → mul8 a (inv8 a) = 0x01#8 := by decide +kernel

theorem inv8_eq_zero {a : Byte} (h : inv8 a = 0#8) : a = 0#8 := by
  by_contra ha
  have hone := mul8_inv8 a ha
  rw [h, mul8_zero] at hone
  exact absurd hone (by decide)

/-- Bytes with the same inverse are equal, 0 having none. -/
theorem inv8_injective : Function.Injective inv8 := by
  intro a a' h
  by_cases ha : a = 0#8
  · have ha' : inv8 a' = 0#8 := by rw [← h, ha, inv8_zero]
    rw [ha, inv8_eq_zero ha']
  · have ha' : a' ≠ 0#8 := fun h0 => ha (inv8_eq_zero (by rw [h, h0, inv8_zero]))
    exact eq_of_mul8_eq_one (mul8_inv8 a ha) (h ▸ mul8_inv8 a' ha')

theorem sbox_injective : Function.Injective sbox := fun _ _ h => inv8_injective (congrArg affineInv h)

/-- Settles O29: undoing the affine map on the table's entry gives the inverse, and a byte has one inverse only. -/
theorem sboxIsAffineOfInverse : Obligations.SboxIsAffineOfInverse :=
  ⟨affine_getLsbD, rfl, fun a ha => ⟨inv8 a, mul8_inv8 a ha, (affine_affineInv (sbox a)).symm⟩,
    Finite.injective_iff_bijective.mp sbox_injective⟩

/-! ### The state array -/

/-- Row `r`, taken modulo 4, and column `c` of the state array (rule R81). -/
def stateByte (v : Block) (r c : Nat) : Byte := byteOf v (r % 4 + 4 * c)

@[simp] theorem stateByte_add_four (v : Block) (r c : Nat) : stateByte v (r + 4) c = stateByte v r c := by
  simp [stateByte]

/-- A byte of the block in its row and column (rule R81). -/
theorem byteOf_eq_stateByte (v : Block) {r : Nat} (hr : r < 4) (c : Nat) : byteOf v (r + 4 * c) = stateByte v r c := by
  rw [stateByte, Nat.mod_eq_of_lt hr]

/-- Two blocks with the same state array are equal. -/
theorem block_ext_stateByte {u v : Block} (h : ∀ r, ∀ c < 4, stateByte u r c = stateByte v r c) : u = v := by
  refine block_ext fun i hi => ?_
  have hbyte := h (i % 4) (i / 4) (by omega)
  rwa [stateByte, stateByte, Nat.mod_mod, Nat.mod_add_div] at hbyte

section
variable (v : Block) (r : Nat) {c : Nat} (hc : c < 4)
include hc

/-- The state array of a block built from bytes. -/
theorem stateByte_ofBytes (b : Nat → Byte) : stateByte (ofBytes b) r c = b (r % 4 + 4 * c) :=
  byteOf_ofBytes b (by omega)

/-- SubBytes (rule R87). -/
theorem stateByte_subBytes : stateByte (subBytes v) r c = sbox (stateByte v r c) := stateByte_ofBytes r hc _

/-- ShiftRows (rule R88). -/
theorem stateByte_shiftRows : stateByte (shiftRows v) r c = stateByte v r ((c + r) % 4) := by
  have hrow : (r % 4 + 4 * c) % 4 = r % 4 := by omega
  have hcol : ((r % 4 + 4 * c) / 4 + r % 4) % 4 = (c + r) % 4 := by omega
  rw [shiftRows, stateByte_ofBytes r hc, hrow, hcol, stateByte]

end

/-! ### MixColumns -/

/-- The first row of the matrix of rule R89 on a column; the other rows are this one on the rotated column. -/
def mixRow (a b c d : Byte) : Byte := mul8 0x02#8 a ^^^ mul8 0x03#8 b ^^^ c ^^^ d

/-- MixColumns (rule R89). -/
theorem stateByte_mixColumns (v : Block) (r : Nat) {c : Nat} (hc : c < 4) :
    stateByte (mixColumns v) r c =
      mixRow (stateByte v r c) (stateByte v (r + 1) c) (stateByte v (r + 2) c) (stateByte v (r + 3) c) := by
  have hrow : (r % 4 + 4 * c) % 4 = r % 4 := by omega
  have hcol : (r % 4 + 4 * c) / 4 = c := by omega
  rw [mixColumns, stateByte_ofBytes r hc, hrow, hcol]
  simp [mixByte, mixRow, stateByte]

theorem mixRow_eq_xtime (a b c d : Byte) : mixRow a b c d = xtime (a ^^^ b) ^^^ (b ^^^ c ^^^ d) := by
  rw [mixRow, mul8_comm _ a, mul8_comm _ b, mul8_two, mul8_three, xtime_xor]
  ac_rfl

/-- The matrix of rule R89 squared: only the entries 5 and 4 at a distance of two rows remain. -/
theorem mixRow_mixRow (a b c d : Byte) :
    mixRow (mixRow a b c d) (mixRow b c d a) (mixRow c d a b) (mixRow d a b c) = a ^^^ xtime (xtime (a ^^^ c)) := by
  simp [mixRow_eq_xtime, xtime_xor, BitVec.xor_assoc, BitVec.xor_comm, byte_xor_left_comm]

theorem stateByte_mixColumns_twice (v : Block) (r : Nat) {c : Nat} (hc : c < 4) :
    stateByte (mixColumns (mixColumns v)) r c =
      stateByte v r c ^^^ xtime (xtime (stateByte v r c ^^^ stateByte v (r + 2) c)) := by
  simp [stateByte_mixColumns _ _ hc, mixRow_mixRow]

/-- MixColumns has order 4. -/
theorem mixColumns_four_times (v : Block) : mixColumns (mixColumns (mixColumns (mixColumns v))) = v := by
  refine block_ext_stateByte fun r c hc => ?_
  simp [stateByte_mixColumns_twice _ _ hc, xtime_xor, BitVec.xor_assoc, BitVec.xor_comm, byte_xor_left_comm]

/-- The other rows of the matrix of rule R89. -/
theorem mixRow_rotated (a b c d : Byte) :
    mixRow b c d a = a ^^^ mul8 0x02#8 b ^^^ mul8 0x03#8 c ^^^ d ∧
    mixRow c d a b = a ^^^ b ^^^ mul8 0x02#8 c ^^^ mul8 0x03#8 d ∧
    mixRow d a b c = mul8 0x03#8 a ^^^ b ^^^ c ^^^ mul8 0x02#8 d := by
  unfold mixRow
  refine ⟨?_, ?_, ?_⟩ <;> ac_rfl

/-- Settles O30: each transformation says what byte `r + 4c` of its result is, and the matrix of MixColumns row by row. -/
theorem roundTransformations : Obligations.RoundTransformations := by
  refine ⟨fun v r c => ?_, by decide +kernel, by decide +kernel, by decide +kernel, by decide +kernel⟩
  intro s out
  have hout (u : Block) : out u = stateByte u r c := byteOf_eq_stateByte u r.isLt c
  have hs (col : Nat) : s r col = stateByte v r col := byteOf_eq_stateByte v r.isLt col
  have hmix := (hout _).trans (stateByte_mixColumns v r c.isLt)
  obtain ⟨hrow1, hrow2, hrow3⟩ := mixRow_rotated (s 0 c) (s 1 c) (s 2 c) (s 3 c)
  refine ⟨?_, ?_, ?_, ?_, ?_, ?_⟩
  · rw [hout, stateByte_subBytes v r c.isLt, hs]
  · rw [hout, stateByte_shiftRows v r c.isLt, hs]
  · rintro rfl
    exact hmix
  · rintro rfl
    exact hmix.trans hrow1
  · rintro rfl
    exact hmix.trans hrow2
  · rintro rfl
    exact hmix.trans hrow3

end Sys2Proof.Proofs
end

section
/-! The key schedule, the rounds of the cipher, and the command AES_ENC (40_aes.md rules R90-R94). -/
namespace Sys2Proof.Proofs

open Sys2Proof.Machine Sys2Proof.Safety Sys2Proof.Laws

/-! ### RotWord, SubWord and Rcon -/

/-- The bytes of a word built from four bytes (rule R90). -/
theorem byteOfWord_concat (a b c d : Byte) (j : Fin 4) :
    byteOfWord ((a ++ b ++ c ++ d).cast rfl) j = (match j with | 0 => a | 1 => b | 2 => c | 3 => d) := by
  ext k hk
  simp only [byteOfWord, BitVec.getElem_extractLsb', BitVec.getLsbD_cast, BitVec.getLsbD_append]
  fin_cases j <;> grind

theorem byteOfWord_subWord (u : Word) (j : Fin 4) : byteOfWord (subWord u) j = sbox (byteOfWord u j) := by
  rw [subWord, byteOfWord_concat]
  fin_cases j <;> rfl

/-- RotWord moves the most significant byte to the other end (rule R92). -/
theorem rotWord_eq (u : Word) : rotWord u = (u.extractLsb' 0 24 ++ u.extractLsb' 24 8 : Word) := by
  simp only [rotWord, byteOfWord, BitVec.cast_eq]
  rw [BitVec.extractLsb'_append_extractLsb'_eq_extractLsb' (by rfl)]
  rw [BitVec.extractLsb'_append_extractLsb'_eq_extractLsb' (by rfl)]

theorem rcon_eq_iterate (j : Nat) : rcon j = (xtime^[j]) 0x01#8 := by
  induction j with
  | zero => rfl
  | succ j ih => rw [rcon, ih, Function.iterate_succ_apply']

/-! ### The key schedule -/

/-- Word `i` of the key schedule: word `i mod 4` of round key `i / 4` (rule R92). -/
def keyWord (k : Block) (i : Nat) : Word := wordOf (roundKey k (i / 4)) (Fin.ofNat 4 (i % 4))

/-- The words of a round key (rule R92). -/
theorem keyWord_four_mul_add (k : Block) (j : Nat) (r : Fin 4) : keyWord k (4 * j + r) = wordOf (roundKey k j) r := by
  have hdiv : (4 * j + r.val) / 4 = j := by omega
  have hmod : (4 * j + r.val) % 4 = r.val := by omega
  rw [keyWord, hdiv, hmod, Fin.ofNat_eq_cast, Fin.cast_val_eq_self]

/-- The first word of the next round key (rule R92). -/
theorem wordOf_nextRoundKey_zero (j : Nat) (k : Block) : wordOf (nextRoundKey j k) 0 =
    wordOf k 0 ^^^ (subWord (rotWord (wordOf k 3)) ^^^ ((xtime^[j]) 0x01#8 ++ 0#24 : Word)) := by
  rw [nextRoundKey, wordOf_concat, BitVec.cast_eq, rcon_eq_iterate]

/-- The other three (rule R92). -/
theorem wordOf_nextRoundKey_succ (j : Nat) (k : Block) (r : Fin 3) :
    wordOf (nextRoundKey j k) r.succ = wordOf k r.succ ^^^ wordOf (nextRoundKey j k) r.castSucc := by
  rw [nextRoundKey, wordOf_concat, wordOf_concat]
  fin_cases r <;> rfl

theorem keyWord_first (k : Block) (j : Nat) : keyWord k (4 * (j + 1)) =
    keyWord k (4 * j) ^^^ (subWord (rotWord (keyWord k (4 * j + 3))) ^^^ ((xtime^[j]) 0x01#8 ++ 0#24 : Word)) := by
  have hw (j : Nat) := keyWord_four_mul_add k j
  have hnext := wordOf_nextRoundKey_zero j (roundKey k j)
  rw [← hw j 0, ← hw j 3] at hnext
  exact (hw (j + 1) 0).trans hnext

theorem keyWord_next (k : Block) (j : Nat) (r : Fin 3) :
    keyWord k (4 * (j + 1) + (r + 1)) = keyWord k (4 * j + (r + 1)) ^^^ keyWord k (4 * (j + 1) + r) := by
  have hw (j : Nat) := keyWord_four_mul_add k j
  have hnext := wordOf_nextRoundKey_succ j (roundKey k j) r
  rw [← hw j r.succ, ← roundKey, ← hw (j + 1) r.castSucc] at hnext
  exact (hw (j + 1) r.succ).trans hnext

/-- Settles O31: the words of each round key are those of the recurrence. -/
theorem keySchedule : Obligations.KeySchedule := by
  refine ⟨fun k => ?_, fun u => ⟨rotWord_eq u, byteOfWord_subWord u⟩, by decide +kernel, by decide +kernel⟩
  refine ⟨fun i => ?_, fun i hi _ hmod => ?_, fun i hi _ hmod => ?_, fun j => ?_⟩
  · exact (congrArg (keyWord k) (by omega)).trans (keyWord_four_mul_add k 0 i)
  · obtain ⟨j, rfl⟩ : ∃ j, i = 4 * (j + 1) := ⟨i / 4 - 1, by omega⟩
    have hprev : 4 * (j + 1) - 1 = 4 * j + 3 := by omega
    have hrnd : 4 * (j + 1) / 4 - 1 = j := by omega
    rw [hprev, hrnd]
    exact keyWord_first k j
  · obtain ⟨j, r, rfl⟩ : ∃ (j : Nat) (r : Fin 3), i = 4 * (j + 1) + (r + 1) :=
      ⟨i / 4 - 1, ⟨i % 4 - 1, by omega⟩, by grind⟩
    have hback : 4 * (j + 1) + (r.val + 1) - 4 = 4 * j + (r.val + 1) := by omega
    have hprev : 4 * (j + 1) + (r.val + 1) - 1 = 4 * (j + 1) + r.val := by omega
    rw [hback, hprev]
    exact keyWord_next k j r
  · have hw := keyWord_four_mul_add k j
    refine (words_concat (roundKey k j)).symm.trans ?_
    rw [← hw 0, ← hw 1, ← hw 2, ← hw 3]
    rfl

/-! ### The rounds -/

theorem subBytes_injective : Function.Injective subBytes := fun u v h =>
  block_ext_stateByte fun r c hc => sbox_injective (by
    rw [← stateByte_subBytes u r hc, ← stateByte_subBytes v r hc, h])

theorem shiftRows_injective : Function.Injective shiftRows := fun u v h =>
  block_ext_stateByte fun r c hc => by
    have hcol : ((c + 3 * r) % 4 + r) % 4 = c := by omega
    have hlt : (c + 3 * r) % 4 < 4 := Nat.mod_lt _ (by decide)
    rw [← hcol, ← stateByte_shiftRows u r hlt, ← stateByte_shiftRows v r hlt, h]

/-- MixColumns is undone by three more (rule R89). -/
theorem mixColumns_injective : Function.Injective mixColumns :=
  Function.LeftInverse.injective (g := fun v => mixColumns (mixColumns (mixColumns v))) mixColumns_four_times

theorem aesRound_injective (rk : Block) : Function.Injective (aesRound rk) := fun _ _ h =>
  subBytes_injective (shiftRows_injective (mixColumns_injective ((BitVec.xor_left_inj rk).mp h)))

theorem aesRounds_injective (k : Block) (n : Nat) : Function.Injective fun p => aesRounds k p n := by
  induction n with
  | zero => exact fun u v h => (BitVec.xor_left_inj _).mp h
  | succ n ih => exact fun u v h => ih (aesRound_injective _ h)

theorem aes_injective (k : Block) : Function.Injective (aes k) := fun _ _ h =>
  aesRounds_injective k 9 (subBytes_injective (shiftRows_injective ((BitVec.xor_left_inj _).mp h)))

/-- The rounds as a fold over their numbers (rule R91). -/
theorem aesRounds_eq_foldl (k p : Block) (n : Nat) :
    aesRounds k p n = (List.range' 1 n).foldl (fun s rnd => aesRound (roundKey k rnd) s) (p ^^^ roundKey k 0) := by
  induction n with
  | zero => rfl
  | succ n ih =>
    rw [aesRounds, ih, List.range'_1_concat, List.foldl_append, Nat.add_comm 1 n]
    rfl

/-- Settles O32: each step of a round is injective, so the cipher is, on the finitely many blocks. -/
theorem cipherRounds : Obligations.CipherRounds :=
  ⟨fun k p => congrArg (fun s => shiftRows (subBytes s) ^^^ roundKey k 10) (aesRounds_eq_foldl k p 9),
    fun k => Finite.injective_iff_bijective.mp (aes_injective k)⟩

/-! ### The commands' words -/

/-- Every command's opcode is one of the fifteen, and its word's bad fields are rejected in order (rules R73, R77). -/
theorem rejectsBadFields (i : Instr) : RejectsBadFields i := by
  intro w hop
  obtain ⟨i', hi⟩ := Option.isSome_iff_exists.mp (instrOf_opcode i (nbytesOf w))
  rw [← hop] at hi
  obtain ⟨hop', _⟩ := instrOf_spec hi
  refine ⟨decode_reserved hi, fun hr hc => decode_nbytes hi hr ?_⟩
  rw [allowsCount_iff hop', ← allowsCount_iff hop.symm, hc]
  decide

/-- Settles O35: no check of AES_ENC fails, and its effect is the write of DOUT. -/
theorem aesEncResult : Obligations.AesEncResult :=
  ⟨by decide, rejectsBadFields _, fun _ => exec_of_accepted rfl rfl rfl, by decide +kernel, by decide +kernel⟩

end Sys2Proof.Proofs
end

section
/-! The field GF(2^128): the product is linear over XOR in each factor and commutes with the shift of its second factor, so
that its laws need only the powers of x; and the command GF_MUL (41_gf_ghash.md rules R100-R102, R105). -/
namespace Sys2Proof.Proofs

open Sys2Proof.Machine Sys2Proof.Safety Sys2Proof.Laws

theorem xor_left_comm {w : Nat} (a b c : BitVec w) : a ^^^ (b ^^^ c) = b ^^^ (a ^^^ c) := by
  rw [← BitVec.xor_assoc, BitVec.xor_comm a, BitVec.xor_assoc]

/-! ### The shift: multiplication by x -/

theorem gfShift_eq (v : Block) : gfShift v = (v >>> 1) ^^^ (if v.getLsbD 0 then gfR else 0#128) := by
  unfold gfShift
  split <;> simp

theorem gfShift_zero : gfShift 0#128 = 0#128 := by decide

theorem gfShift_xor (u v : Block) : gfShift (u ^^^ v) = gfShift u ^^^ gfShift v := by
  simp only [gfShift_eq, BitVec.ushiftRight_xor_distrib, BitVec.getLsbD_xor]
  cases u.getLsbD 0 <;> cases v.getLsbD 0 <;> simp [BitVec.xor_assoc, BitVec.xor_comm, xor_left_comm]

/-- The power `x^(127-n)` is the bit `n` alone, and the shift moves it one place down (rule R100). -/
theorem gfShift_twoPow_succ {n : Nat} (hn : n + 1 < 128) :
    gfShift (BitVec.twoPow 128 (n + 1)) = BitVec.twoPow 128 n := by
  rw [gfShift_eq]
  ext i hi
  have hbit : (n + 1 = 1 + i) = (i = n) := propext ⟨by omega, by omega⟩
  simp [BitVec.getLsbD_twoPow, hn, hbit]

/-! ### The loop, by what it is linear in -/

theorem gfLoop_xor_left (x x' : Block) (n : Nat) (z z' v : Block) :
    gfLoop (x ^^^ x') n (z ^^^ z') v = gfLoop x n z v ^^^ gfLoop x' n z' v := by
  induction n generalizing z z' v with
  | zero => rfl
  | succ n ih =>
    simp only [gfLoop, ← ih, BitVec.getLsbD_xor]
    congr 1
    cases x.getLsbD n <;> cases x'.getLsbD n <;> simp [BitVec.xor_assoc, BitVec.xor_comm, xor_left_comm]

theorem gfLoop_xor_right (x : Block) (n : Nat) (z z' v v' : Block) :
    gfLoop x n (z ^^^ z') (v ^^^ v') = gfLoop x n z v ^^^ gfLoop x n z' v' := by
  induction n generalizing z z' v v' with
  | zero => rfl
  | succ n ih =>
    simp only [gfLoop, ← ih, gfShift_xor]
    congr 1
    split
    · ac_rfl
    · rfl

theorem gfLoop_gfShift (x : Block) (n : Nat) (z v : Block) :
    gfLoop x n (gfShift z) (gfShift v) = gfShift (gfLoop x n z v) := by
  induction n generalizing z v with
  | zero => rfl
  | succ n ih =>
    rw [gfLoop, gfLoop, ← ih, apply_ite gfShift, gfShift_xor]

/-- What holds of the sum so far, of `v` times each power of x, and of an XOR where it holds of both parts, holds of the
loop's result. -/
theorem gfLoop_induction {P : Block → Prop} (xor : ∀ a b, P a → P b → P (a ^^^ b)) (x : Block) (n : Nat) {z v : Block}
    (acc : P z) (pow : ∀ i, P ((gfShift^[i]) v)) : P (gfLoop x n z v) := by
  induction n generalizing z v with
  | zero => exact acc
  | succ n ih =>
    refine ih ?_ fun i => pow (i + 1)
    split
    · exact xor _ _ acc (pow 0)
    · exact acc

/-- The low `n + 1` bits of a block are its bit `n` and its low `n` bits. -/
theorem setWidth_setWidth_succ_eq_xor (x : Block) (n : Nat) :
    (x.setWidth (n + 1)).setWidth 128 =
      (if x.getLsbD n then BitVec.twoPow 128 n else 0#128) ^^^ (x.setWidth n).setWidth 128 := by
  ext i hi
  rcases lt_trichotomy i n with h | rfl | h
  · split <;> simp [h, h.ne, Nat.lt_succ_of_lt h]
  · simp only [BitVec.getLsbD_eq_getElem hi]
    split <;> simp_all
  · split <;> simp [h.ne', h.not_gt, Nat.not_lt.mpr h]

/-- From the power at bit `n` on, the loop adds the low `n + 1` bits of `x` to the sum. -/
theorem gfLoop_twoPow (x : Block) {n : Nat} (hn : n < 128) (z : Block) :
    gfLoop x (n + 1) z (BitVec.twoPow 128 n) = z ^^^ (x.setWidth (n + 1)).setWidth 128 := by
  induction n generalizing z with
  | zero =>
    rw [gfLoop, gfLoop, setWidth_setWidth_succ_eq_xor]
    rw [BitVec.eq_nil (x.setWidth 0)]
    split <;> simp
  | succ n ih =>
    rw [gfLoop, gfShift_twoPow_succ hn, ih (by omega), setWidth_setWidth_succ_eq_xor x (n + 1)]
    split <;> simp [BitVec.xor_assoc]

/-! ### The laws of the product -/

/-- The polynomial 1 (rule R102). -/
def gfOne : Block := 0x80000000000000000000000000000000#128

theorem xor_gfMul (x x' y : Block) : gfMul (x ^^^ x') y = gfMul x y ^^^ gfMul x' y := gfLoop_xor_left x x' 128 0#128 0#128 y

theorem gfMul_xor (x y y' : Block) : gfMul x (y ^^^ y') = gfMul x y ^^^ gfMul x y' := gfLoop_xor_right x 128 0#128 0#128 y y'

theorem zero_gfMul (y : Block) : gfMul 0#128 y = 0#128 := by simpa using xor_gfMul 0#128 0#128 y

theorem gfMul_zero (x : Block) : gfMul x 0#128 = 0#128 := by simpa using gfMul_xor x 0#128 0#128

/-- Every block is the sum of the powers of x at its bits. -/
theorem gfMul_one (x : Block) : gfMul x gfOne = x := by
  have hone : gfOne = BitVec.twoPow 128 127 := by decide
  rw [gfMul, hone, gfLoop_twoPow x (by decide)]
  simp

theorem gfMul_gfShift (x y : Block) : gfMul x (gfShift y) = gfShift (gfMul x y) := by
  rw [gfMul, gfMul, ← gfLoop_gfShift, gfShift_zero]

/-- The powers of x can be taken out of the second factor. -/
theorem gfMul_gfShift_iterate (x y : Block) (i : Nat) : gfMul x ((gfShift^[i]) y) = (gfShift^[i]) (gfMul x y) := by
  induction i with
  | zero => simp only [Function.iterate_zero_apply]
  | succ i ih => rw [Function.iterate_succ_apply', Function.iterate_succ_apply', gfMul_gfShift, ih]

/-- Induction on a block as a sum of powers of x. -/
theorem block_induction {P : Block → Prop} (b : Block) (zero : P 0#128) (pow : ∀ i, P ((gfShift^[i]) gfOne))
    (xor : ∀ a b, P a → P b → P (a ^^^ b)) : P b :=
  gfMul_one b ▸ gfLoop_induction xor b 128 zero pow

/-- The product is linear in both factors, and of two powers of x it is the power at the sum of their exponents. -/
theorem gfMul_comm (x y : Block) : gfMul x y = gfMul y x := by
  induction x using block_induction with
  | zero => rw [zero_gfMul, gfMul_zero]
  | xor x x' hx hx' => rw [xor_gfMul, gfMul_xor, hx, hx']
  | pow i =>
    induction y using block_induction with
    | zero => rw [zero_gfMul, gfMul_zero]
    | xor y y' hy hy' => rw [xor_gfMul, gfMul_xor, hy, hy']
    | pow j =>
      simp only [gfMul_gfShift_iterate, gfMul_one, ← Function.iterate_add_apply, Nat.add_comm]

theorem gfMul_assoc (x y z : Block) : gfMul (gfMul x y) z = gfMul x (gfMul y z) := by
  induction z using block_induction with
  | zero => simp only [gfMul_zero]
  | xor z z' hz hz' => simp only [gfMul_xor, hz, hz']
  | pow i => simp only [gfMul_gfShift_iterate, gfMul_one]

theorem one_gfMul (x : Block) : gfMul gfOne x = x := (gfMul_comm _ _).trans (gfMul_one x)

/-- Settles O33: the laws follow from linearity in each factor and the products of the powers of x. -/
theorem gfLaws : Obligations.GfLaws :=
  ⟨gfMul_comm, gfMul_assoc, xor_gfMul, gfMul_xor, one_gfMul, zero_gfMul,
    by decide +kernel, by decide +kernel, by decide +kernel⟩

/-! ### The command GF_MUL -/

/-- Settles O36: no check of GF_MUL fails, and its effect is the write of DOUT. -/
theorem gfMulResult : Obligations.GfMulResult :=
  ⟨by decide, rejectsBadFields _, fun _ => exec_of_accepted rfl rfl rfl,
    fun x => ⟨gfMul_zero x, zero_gfMul x, gfMul_one x⟩, by decide +kernel⟩

end Sys2Proof.Proofs
end

section
/-! The building blocks of a GCM session: the pre-counter block, inc32, the mask, the length block and the comparator by
their fields and bytes (42_gcm.md rules R110-R115). -/
namespace Sys2Proof.Proofs

open Sys2Proof.Machine Sys2Proof.Safety Sys2Proof.Laws

/-! ### The counter blocks and the length block -/

/-- The fields of the pre-counter block (rule R110). -/
theorem preCounter_fields (n : Nonce) :
    (preCounter n).extractLsb' 32 96 = n ∧ (preCounter n).extractLsb' 0 32 = 0x00000001#32 :=
  ⟨BitVec.extractLsb'_append_eq_left, BitVec.extractLsb'_append_eq_right⟩

/-- inc32 keeps the nonce and steps the low word (rule R111). -/
theorem inc32_fields (c : Block) :
    (inc32 c).extractLsb' 32 96 = c.extractLsb' 32 96 ∧ (inc32 c).extractLsb' 0 32 = c.extractLsb' 0 32 + 1#32 :=
  ⟨BitVec.extractLsb'_append_eq_left, BitVec.extractLsb'_append_eq_right⟩

/-- The fields of the length block (rule R113). -/
theorem lenBlock_fields (a c : BitCount) : (lenBlock a c).extractLsb' 64 64 = a ∧ (lenBlock a c).extractLsb' 0 64 = c :=
  ⟨BitVec.extractLsb'_append_eq_left, BitVec.extractLsb'_append_eq_right⟩

/-! ### The mask -/

theorem mask_xor (u v : Block) (n : BitVec 5) : mask (u ^^^ v) n = mask u n ^^^ mask v n := by
  ext k hk
  simp only [mask, BitVec.getElem_and, BitVec.getElem_xor, Bool.and_xor_distrib_right]

theorem mask_mask (v : Block) (n : BitVec 5) : mask (mask v n) n = mask v n := by
  rw [mask, mask, BitVec.and_assoc, BitVec.and_self]

theorem mask_sixteen (v : Block) : mask v 16#5 = v := BitVec.and_allOnes

/-- The mask keeps the bytes below the count and clears the others (rule R112). -/
theorem byteOf_mask (v : Block) (n : BitVec 5) {i : Nat} (hi : i < 16) :
    byteOf (mask v n) i = if i < n.toNat then byteOf v i else 0#8 := by
  ext k hk
  simp only [byteOf, mask, BitVec.getElem_extractLsb', BitVec.getLsbD_and, BitVec.getLsbD_shiftLeft,
    BitVec.getLsbD_allOnes]
  by_cases h : i < n.toNat
  · have hkept : ¬ 120 - 8 * i + k < 128 - 8 * n.toNat := by omega
    have hbit : 120 - 8 * i + k < 128 ∧ 120 - 8 * i + k - (128 - 8 * n.toNat) < 128 := by omega
    simp [h, hkept, hbit]
  · have hcut : 120 - 8 * i + k < 128 - 8 * n.toNat := by omega
    simp [h, hcut]

/-! ### The comparator -/

/-- The comparator is equality (rule R114). -/
theorem ctEq_iff (a b : Block) : ctEq a b = true ↔ a = b := by
  rw [ctEq, decide_eq_true_iff, byteDiffs_eq_zero]
  exact ⟨block_ext, fun h _ _ => congrArg (byteOf · _) h⟩

/-- Settles O34: each building block by its fields or bytes. -/
theorem buildingBlocks : Obligations.BuildingBlocks :=
  ⟨preCounter_fields, by decide, inc32_fields, by decide, by decide, fun v n i _ _ => byteOf_mask v n i.isLt,
    mask_sixteen, by decide, lenBlock_fields, by decide, ctEq_iff, fun _ => rfl⟩

end Sys2Proof.Proofs
end

section
/-! The invariant of the core: what it says of the session in each state of SESS, and that every command's effect and every
step keep it. -/
namespace Sys2Proof.Proofs

open Sys2Proof.Machine Sys2Proof.Safety Sys2Proof.Laws

/-! ### The invariant, by SESS -/

/-- J0 is a pre-counter block, and CTR differs from it in the low word only (rules R110, R111). -/
def CounterOk (s : State) : Prop :=
  s.j0.extractLsb' 0 32 = 1#32 ∧ s.ctr.extractLsb' 32 96 = s.j0.extractLsb' 32 96

/-- What the invariant says of the session registers, for each value of SESS. -/
def SessionOk (s : State) : Prop :=
  match s.sess with
  | .idle => Scrubbed s
  | .encAad => s.h = aes s.skey 0#128 ∧ CounterOk s ∧ s.ctr = s.j0 ∧ s.lenC = 0#64 ∧ s.rem = 0#64
  | .encText => s.h = aes s.skey 0#128 ∧ CounterOk s ∧ s.rem = 0#64
  | .decAad => s.h = aes s.skey 0#128 ∧ CounterOk s ∧ s.ctr = s.j0 ∧ s.lenC = 0#64 ∧ s.rem = 0#64
  | .decAuth => s.h = aes s.skey 0#128 ∧ CounterOk s ∧ s.ctr = s.j0 ∧ s.rem = 0#64
  | .decRelease => CounterOk s ∧
    s.rem ≠ 0#64 ∧ s.h = 0#128 ∧ s.x = 0#128 ∧ s.lenA = 0#64 ∧ s.lenC = 0#64 ∧ s.partialBlk = false
  | .done => Scrubbed s
  | .rejected => Scrubbed s

/-- The lengths count whole bytes (rule R71). -/
def WholeBytes (s : State) : Prop :=
  s.lenA.extractLsb' 0 3 = 0#3 ∧ s.lenC.extractLsb' 0 3 = 0#3 ∧ s.rem.extractLsb' 0 3 = 0#3

/-- The invariant in four parts: the session by SESS, whole bytes, exhaustion, and the pending command. -/
theorem inv_iff (s : State) : Inv s ↔
    SessionOk s ∧ WholeBytes s ∧ (s.nexh = true → s.txc = 0#32) ∧ ∀ p, s.pend = some p → 1 ≤ p.left := by
  constructor
  · rintro ⟨hended, hsubkey, hcounter, hunused, hnoText, hrelease, hnoRem, hwhole, hexhausted, hcycles⟩
    refine ⟨?_, hwhole, hexhausted, hcycles⟩
    unfold SessionOk CounterOk
    cases hs : s.sess <;> simp_all [Ended, Absorbing]
  · rintro ⟨hsession, hwhole, hexhausted, hcycles⟩
    unfold SessionOk CounterOk at hsession
    constructor <;> cases hs : s.sess <;> simp_all [Ended, Absorbing, Scrubbed, WholeBytes]

theorem SessionOk.congr {s t : State} (h : sessionOf t = sessionOf s) (hs : SessionOk s) : SessionOk t := by
  simp only [sessionOf, Prod.mk.injEq] at h
  simp_all [SessionOk, CounterOk, Scrubbed]

/-! ### Acceptance by SESS and PARTIAL (rule R116) -/

section
variable (n : BitVec 5) (q : Sess) (b : Bool)

theorem accepted_gcmAad : accepted (.gcmAad n) q b = true ↔ (q = .encAad ∨ q = .decAad) ∧ b = false := by
  simp [accepted]

theorem accepted_gcmEnc : accepted (.gcmEnc n) q b = true ↔ q = .encAad ∨ q = .encText ∧ b = false := by
  simp [accepted]

theorem accepted_gcmDecAuth : accepted (.gcmDecAuth n) q b = true ↔ q = .decAad ∨ q = .decAuth ∧ b = false := by
  simp [accepted]

theorem accepted_gcmFinal :
    accepted .gcmFinal q b = true ↔ q = .encAad ∨ q = .encText ∨ q = .decAad ∨ q = .decAuth := by
  simp [accepted, or_assoc]

theorem accepted_gcmDec : accepted (.gcmDec n) q b = true ↔ q = .decRelease := by
  simp [accepted]

end

/-! ### What the effect of a command keeps -/

section
variable {s : State}

/-- Associated data keeps what the invariant says of the session (rule R119). -/
theorem sessionOk_gcmAad (n : BitVec 5) (h : SessionOk s) (hs : s.sess = .encAad ∨ s.sess = .decAad) :
    SessionOk (effect (.gcmAad n) s) := by
  rcases hs with hs | hs <;> simp_all [effect, SessionOk, CounterOk]

/-- A text block steps the low word of CTR, and after it nothing is said of CTR but its nonce (rule R120). -/
theorem sessionOk_gcmEnc (n : BitVec 5) (h : SessionOk s) (hs : s.sess = .encAad ∨ s.sess = .encText) :
    SessionOk (effect (.gcmEnc n) s) := by
  rcases hs with hs | hs <;> simp_all [effect, SessionOk, CounterOk, inc32_fields]

/-- Pass 1 leaves CTR at J0 (rule R121). -/
theorem sessionOk_gcmDecAuth (n : BitVec 5) (h : SessionOk s) (hs : s.sess = .decAad ∨ s.sess = .decAuth) :
    SessionOk (effect (.gcmDecAuth n) s) := by
  rcases hs with hs | hs <;> simp_all [effect, SessionOk, CounterOk]

/-- The decision on a tag scrubs the session, or opens pass 2 with what pass 1 counted, which is not nothing (rule R122). -/
theorem sessionOk_finalDec (h : SessionOk s) (hs : s.sess = .decAad ∨ s.sess = .decAuth) : SessionOk (finalDec s) := by
  unfold finalDec
  split
  · split
    · simp [SessionOk, Scrubbed]
    · rcases hs with hs | hs <;> simp_all [SessionOk, CounterOk]
  · simp [SessionOk, Scrubbed]

/-- A released block leaves something to release, or ends the session scrubbed (rule R123). -/
theorem sessionOk_gcmDec (n : BitVec 5) (h : SessionOk s) (hs : s.sess = .decRelease) :
    SessionOk (effect (.gcmDec n) s) := by
  simp only [effect]
  split
  · simp [SessionOk, Scrubbed]
  · simp_all [SessionOk, CounterOk, inc32_fields]

/-- An accepted command keeps what the invariant says of the session. -/
theorem effect_sessionOk {i : Instr} (h : SessionOk s) (ha : accepted i s.sess s.partialBlk = true) :
    SessionOk (effect i s) := by
  cases i
  case aesEnc | gfMul | tagCmp | nonceInit | nonceGen => exact h
  case nonceValidate =>
    simp only [effect]
    split <;> exact h
  case zeroize | gcmAbort => simp [effect, SessionOk, Scrubbed]
  case gcmInitEnc | gcmInitDec => simp [effect, SessionOk, CounterOk, startSession, preCounter_fields]
  case gcmAad n =>
    obtain ⟨hs, _⟩ := (accepted_gcmAad ..).mp ha
    exact sessionOk_gcmAad n h hs
  case gcmEnc n => exact sessionOk_gcmEnc n h (((accepted_gcmEnc ..).mp ha).imp_right And.left)
  case gcmDecAuth n => exact sessionOk_gcmDecAuth n h (((accepted_gcmDecAuth ..).mp ha).imp_right And.left)
  case gcmFinal =>
    have hs := (accepted_gcmFinal ..).mp ha
    simp only [effect]
    split
    · simp [finalEnc, SessionOk, Scrubbed]
    · exact sessionOk_finalDec h (by tauto)
  case gcmDec n => exact sessionOk_gcmDec n h ((accepted_gcmDec ..).mp ha)

end

/-! ### Whole bytes -/

theorem wholeBytes_iff (a : BitCount) : a.extractLsb' 0 3 = 0#3 ↔ a.toNat % 8 = 0 := by
  simp [← BitVec.toNat_inj]

theorem wholeBytes_add {a : BitCount} (h : a.extractLsb' 0 3 = 0#3) (n : BitVec 5) :
    (a + bitsOf n).extractLsb' 0 3 = 0#3 := by
  rw [wholeBytes_iff] at *
  rw [BitVec.toNat_add, bitsOf_toNat]
  omega

theorem wholeBytes_sub {a : BitCount} (h : a.extractLsb' 0 3 = 0#3) (n : BitVec 5) :
    (a - bitsOf n).extractLsb' 0 3 = 0#3 := by
  rw [wholeBytes_iff] at *
  rw [BitVec.toNat_sub, bitsOf_toNat]
  omega

/-- A command clears a length, moves it, or counts whole bytes. -/
theorem effect_wholeBytes (i : Instr) {s : State} (h : WholeBytes s) : WholeBytes (effect i s) := by
  obtain ⟨hA, hC, hR⟩ := h
  unfold WholeBytes
  cases i <;> simp only [effect, finalEnc, finalDec] <;> repeat' split
  all_goals simp [hA, hC, hR, wholeBytes_add, wholeBytes_sub]

/-! ### Exhaustion -/

/-- NEXH is set only with TXC wrapped to 0, and then NONCE_GEN is not performed (rules R142, R146). -/
theorem effect_exhausted {i : Instr} {s : State} (h : s.nexh = true → s.txc = 0#32) (ho : ownCheck i s = none) :
    (effect i s).nexh = true → (effect i s).txc = 0#32 := by
  rcases effect_txCounter i s with (rfl | rfl) | ⟨htxc, _, hnexh⟩
  · simp [effect]
  · have hn : s.nexh = false := by simpa [ownCheck, exhaustedError] using ho
    by_cases hx : s.txc = 0xFFFFFFFF#32
    · simp [effect, hx]
    · simp [effect, hx, hn]
  · rwa [htxc, hnexh]

/-! ### The step -/

/-- A completion keeps the invariant. -/
theorem runWord_inv {w : Word} {s t : State} (h : Inv s) (hx : runWord w s = .next t) : Inv t := by
  obtain ⟨hsession, hwhole, hexhausted, _⟩ := (inv_iff s).mp h
  rw [inv_iff]
  rcases runWord_effect hx with ⟨i, _, ha, ho, rfl⟩ | ⟨v, e, _, rfl⟩
  · exact ⟨effect_sessionOk hsession ha, effect_wholeBytes i hwhole, effect_exhausted hexhausted ho, by simp⟩
  · exact ⟨hsession, hwhole, hexhausted, by simp⟩

/-- The host's part touches nothing the invariant speaks of, but for the issue of a command, whose latency is at least 1. -/
theorem hostPart_inv {s u : State} (h : Inv s) (hu : HostPart s u) : Inv u := by
  obtain ⟨hsession, hwhole, hexhausted, hcycles⟩ := (inv_iff s).mp h
  obtain ⟨htxc, hnexh, _, _, _, _, _, hsess, hskey, hh, hj0, hctr, hx, hlenA, hlenC, hrem, hpartial, _⟩ :=
    hostPart_engine_state hu
  obtain ⟨_, _, _, hpend⟩ := hostPart_flags hu
  refine (inv_iff u).mpr ⟨hsession.congr ?_, ?_, ?_, fun p hp => ?_⟩
  · simp only [sessionOf, hsess, hskey, hh, hj0, hctr, hx, hlenA, hlenC, hrem, hpartial]
  · simpa only [WholeBytes, hlenA, hlenC, hrem] using hwhole
  · simpa only [htxc, hnexh] using hexhausted
  · rcases hpend with hsame | ⟨_, v, _, _, hissued⟩
    · exact hcycles p (hsame ▸ hp)
    · obtain rfl : _ = p := Option.some.inj (hissued.symm.trans hp)
      exact one_le_latency _

/-- Reset meets the invariant, whatever the host's side. -/
theorem reset_inv (hs : List HostEvent) (l : List Reply) : Inv { State.reset with host := hs, replies := l } := by
  rw [inv_iff]
  simp [State.reset, SessionOk, Scrubbed, WholeBytes]

/-- Settles O51: a reset, the host's part, the countdown and a completion each keep the invariant. -/
theorem invKept : Obligations.InvKept := by
  intro s t h hstep
  rcases step_next hstep with ⟨_, _, _, _, rfl⟩ | ⟨u, hu, ⟨_, _, rfl⟩ | ⟨p, _, _, hl, rfl⟩ | ⟨p, _, _, hx⟩⟩
  · exact reset_inv _ _
  · exact hostPart_inv h hu
  · obtain ⟨hsession, hwhole, hexhausted, _⟩ := (inv_iff u).mp (hostPart_inv h hu)
    refine (inv_iff _).mpr ⟨hsession, hwhole, hexhausted, ?_⟩
    rintro _ ⟨⟩
    exact Nat.le_sub_one_of_lt hl
  · exact runWord_inv (hostPart_inv h hu) hx

end Sys2Proof.Proofs
end

section
/-! The outcomes of the session commands: which states accept them, with what they fail elsewhere, and their results
(42_gcm.md rules R116-R126). -/
namespace Sys2Proof.Proofs

open Sys2Proof.Machine Sys2Proof.Safety Sys2Proof.Laws

/-! ### The errors -/

section
variable {i : Instr} {s : State}

/-- A command whose outcome is an error fails with it. -/
theorem failsWith_outcomeOf {e : ErrCode} (h : outcomeOf i (ownCheck i s) s = e) (he : e ≠ .ok) : FailsWith i e s := by
  rw [FailsWith, exec_eq_perform, perform_error (h ▸ he), h]
  rfl

/-- A state that does not accept the command is ERR_SEQUENCE. -/
theorem failsWith_sequence (hw : i.wellFormed = true) (ha : ¬ accepted i s.sess s.partialBlk = true) :
    FailsWith i .sequence s :=
  failsWith_outcomeOf (by simp [outcomeOf, hw, ha]) (by decide)

/-- The command's own check decides where the state accepts it. -/
theorem failsWith_ownCheck {e : ErrCode} (hw : i.wellFormed = true) (ha : accepted i s.sess s.partialBlk = true)
    (ho : ownCheck i s = some e) : FailsWith i e s :=
  failsWith_outcomeOf (by simp [outcomeOf, hw, ha, ho]) (fun he => ownCheck_ne_ok i s (he ▸ ho))

end

/-! ### The block commands -/

/-- A block command `mk`: a legal count makes it well formed, its word is `op` and the count, and a state of the session
accepts it by `acc` (rules R70-R72, R116). -/
structure BlockCommand (mk : BitVec 5 → Instr) (op : Word) (acc : Sess → Bool → Prop) : Prop where
  wellFormed : ∀ n, (mk n).wellFormed = legalCount n
  encode : ∀ n, encode (mk n) = op ||| (n.setWidth 32 <<< 8)
  accepted : ∀ n q b, accepted (mk n) q b = true ↔ acc q b

theorem blockCommand_gcmAad :
    BlockCommand .gcmAad 0x12#32 fun q b => (q = .encAad ∨ q = .decAad) ∧ b = false :=
  ⟨fun _ => rfl, by decide, accepted_gcmAad⟩

theorem blockCommand_gcmEnc : BlockCommand .gcmEnc 0x13#32 fun q b => q = .encAad ∨ q = .encText ∧ b = false :=
  ⟨fun _ => rfl, by decide, accepted_gcmEnc⟩

theorem blockCommand_gcmDecAuth : BlockCommand .gcmDecAuth 0x14#32 fun q b => q = .decAad ∨ q = .decAuth ∧ b = false :=
  ⟨fun _ => rfl, by decide, accepted_gcmDecAuth⟩

theorem blockCommand_gcmDec : BlockCommand .gcmDec 0x16#32 fun q _ => q = .decRelease :=
  ⟨fun _ => rfl, by decide, accepted_gcmDec⟩

section
variable {mk : BitVec 5 → Instr} {op : Word} {acc : Sess → Bool → Prop} (hmk : BlockCommand mk op acc)
  {n : BitVec 5} {s : State}
include hmk

theorem BlockCommand.failsWith_nbytes (hn : n.toNat = 0 ∨ 16 < n.toNat) : FailsWith (mk n) .nbytes s := by
  have hc : ¬ legalCount n = true := by
    rw [legalCount_iff]
    omega
  exact failsWith_outcomeOf (by simp [outcomeOf, hmk.wellFormed, hc]) (by decide)

theorem BlockCommand.decode (hn : legalCount n = true) : decode (op ||| (n.setWidth 32 <<< 8)) = .ok (mk n) :=
  hmk.encode n ▸ decodeOfEncode (mk n) ((hmk.wellFormed n).trans hn)

theorem BlockCommand.exec (hn : legalCount n = true) (ha : acc s.sess s.partialBlk) (ho : ownCheck (mk n) s = none) :
    exec (mk n) s = .next (finish (op ||| (n.setWidth 32 <<< 8)) .ok (effect (mk n) s)) :=
  hmk.encode n ▸ exec_of_accepted ((hmk.wellFormed n).trans hn) ((hmk.accepted ..).mpr ha) ho

theorem BlockCommand.failsWith_ownCheck {e : ErrCode} (hn : legalCount n = true) (ha : acc s.sess s.partialBlk)
    (ho : ownCheck (mk n) s = some e) : FailsWith (mk n) e s :=
  Proofs.failsWith_ownCheck ((hmk.wellFormed n).trans hn) ((hmk.accepted ..).mpr ha) ho

theorem BlockCommand.failsWith_sequence (hn : legalCount n = true) (ha : ¬ acc s.sess s.partialBlk) :
    FailsWith (mk n) .sequence s :=
  Proofs.failsWith_sequence ((hmk.wellFormed n).trans hn) (mt (hmk.accepted ..).mp ha)

end

/-- Settles O40: by the count, and by SESS and PARTIAL. -/
theorem gcmAadResult : Obligations.GcmAadResult := by
  refine ⟨rejectsBadFields _, fun n s => ⟨blockCommand_gcmAad.failsWith_nbytes, fun h1 h16 => ?_⟩, by decide +kernel⟩
  have hn := (legalCount_iff n).mpr ⟨h1, h16⟩
  exact ⟨blockCommand_gcmAad.decode hn, fun hs hp => blockCommand_gcmAad.exec hn ⟨hs, hp⟩ rfl,
    blockCommand_gcmAad.failsWith_sequence hn⟩

/-- Settles O41: by the count, and by SESS and PARTIAL. -/
theorem gcmEncResult : Obligations.GcmEncResult := by
  refine ⟨rejectsBadFields _, fun n s => ⟨blockCommand_gcmEnc.failsWith_nbytes, fun h1 h16 => ?_⟩, by decide +kernel⟩
  have hn := (legalCount_iff n).mpr ⟨h1, h16⟩
  refine ⟨blockCommand_gcmEnc.decode hn, fun hs => ?_, blockCommand_gcmEnc.failsWith_sequence hn⟩
  rw [blockCommand_gcmEnc.exec hn hs rfl, effect, cryptBlock]
  rfl

/-- Settles O42: by the count, and by SESS and PARTIAL. -/
theorem gcmDecAuthResult : Obligations.GcmDecAuthResult := by
  refine ⟨rejectsBadFields _, fun n s => ⟨blockCommand_gcmDecAuth.failsWith_nbytes, fun h1 h16 => ?_⟩, by decide +kernel⟩
  have hn := (legalCount_iff n).mpr ⟨h1, h16⟩
  exact ⟨blockCommand_gcmDecAuth.decode hn, fun hs => blockCommand_gcmDecAuth.exec hn hs rfl,
    blockCommand_gcmDecAuth.failsWith_sequence hn⟩

/-! ### GCM_DEC and its length check -/

/-- The length check in numbers: the block is longer than what is left, or short of it and no whole block (rule R123). -/
theorem releaseError_eq (n : BitVec 5) (s : State) : releaseError n s =
    if s.rem.toNat < 8 * n.toNat ∨ n.toNat < 16 ∧ 8 * n.toNat ≠ s.rem.toNat then some .length else none := by
  simp only [releaseError, BitVec.lt_def, ne_eq, ← BitVec.toNat_inj, bitsOf_toNat]

/-- A block leaves nothing exactly when it is as long as what is left. -/
theorem releaseBlock_rem_eq_zero (n : BitVec 5) (s : State) :
    (releaseBlock n s).rem = 0#64 ↔ s.rem.toNat = 8 * n.toNat := by
  rw [releaseBlock_rem, BitVec.sub_eq_iff_eq_add, BitVec.zero_add, ← BitVec.toNat_inj, bitsOf_toNat]

/-- The last block ends the session; one before it only releases (rule R123). -/
theorem effect_gcmDec_last {n : BitVec 5} {s : State} (h : s.rem.toNat = 8 * n.toNat) :
    effect (.gcmDec n) s = { scrub (releaseBlock n s) with sess := .done } :=
  if_pos ((releaseBlock_rem_eq_zero n s).mpr h)

theorem effect_gcmDec_before {n : BitVec 5} {s : State} (h : s.rem.toNat ≠ 8 * n.toNat) :
    effect (.gcmDec n) s = releaseBlock n s :=
  if_neg (mt (releaseBlock_rem_eq_zero n s).mp h)

/-- Settles O44: by the count, by SESS, and by the length check. -/
theorem gcmDecResult : Obligations.GcmDecResult := by
  refine ⟨rejectsBadFields _, fun n s => ⟨blockCommand_gcmDec.failsWith_nbytes, fun h1 h16 => ?_⟩⟩
  have hn := (legalCount_iff n).mpr ⟨h1, h16⟩
  refine ⟨blockCommand_gcmDec.decode hn, fun hs hlong => ?_, fun hs hfit hrem => ?_, fun hs hfit hrem => ?_,
    blockCommand_gcmDec.failsWith_sequence hn⟩
  · exact blockCommand_gcmDec.failsWith_ownCheck hn hs ((releaseError_eq n s).trans (if_pos hlong))
  · rw [blockCommand_gcmDec.exec hn hs ((releaseError_eq n s).trans (if_neg hfit)), effect_gcmDec_before hrem]
    rfl
  · rw [blockCommand_gcmDec.exec hn hs ((releaseError_eq n s).trans (if_neg hfit)), effect_gcmDec_last hrem]
    rfl

/-! ### GCM_FINAL -/

/-- GCM_FINAL completes with its effect in every session that absorbs (rule R122). -/
theorem exec_gcmFinal {s : State} (h : s.sess = .encAad ∨ s.sess = .encText ∨ s.sess = .decAad ∨ s.sess = .decAuth) :
    exec .gcmFinal s = .next (finish 0x00000015#32 .ok (effect .gcmFinal s)) :=
  exec_of_accepted (i := .gcmFinal) rfl (accepted_gcmFinal _ _ |>.mpr h) rfl

theorem effect_gcmFinal_enc {s : State} (h : s.sess = .encAad ∨ s.sess = .encText) :
    effect .gcmFinal s = finalEnc s := if_pos h

theorem effect_gcmFinal_dec {s : State} (h : s.sess = .decAad ∨ s.sess = .decAuth) :
    effect .gcmFinal s = finalDec s := if_neg (by rcases h with h | h <;> simp [h])

/-- The decision of a decryption session, by the comparison and by whether there is ciphertext (rule R122). -/
theorem finalDec_mismatch {s : State} (h : sessionTag s ≠ s.tagin) :
    finalDec s = { scrub s with tagOk := false, dout := 0#128, sess := .rejected } :=
  if_neg (mt (ctEq_iff _ _).mp h)

theorem finalDec_empty {s : State} (h : sessionTag s = s.tagin) (hc : s.lenC = 0#64) :
    finalDec s = { scrub s with tagOk := true, dout := 0#128, sess := .done } :=
  (if_pos ((ctEq_iff _ _).mpr h)).trans (if_pos hc)

theorem finalDec_release {s : State} (h : sessionTag s = s.tagin) (hc : s.lenC ≠ 0#64) :
    finalDec s = { s with
      tagOk := true, dout := 0#128, rem := s.lenC, ctr := s.j0, h := 0#128, x := 0#128, lenA := 0#64, lenC := 0#64
      partialBlk := false, sess := .decRelease } :=
  (if_pos ((ctEq_iff _ _).mpr h)).trans (if_neg hc)

/-- Settles O43: by the kind of the session, the comparison, and whether there is ciphertext. -/
theorem gcmFinalResult : Obligations.GcmFinalResult := by
  refine ⟨by decide, rejectsBadFields _, fun s => ⟨fun hs => ?_, fun hs => ⟨fun ht => ?_, fun ht hc => ?_, fun ht hc => ?_⟩,
    fun hs => ?_⟩, by decide +kernel⟩
  · rw [exec_gcmFinal (by tauto), effect_gcmFinal_enc hs]
    rfl
  · rw [exec_gcmFinal (by tauto), effect_gcmFinal_dec hs, finalDec_mismatch ht]
    rfl
  · rw [exec_gcmFinal (by tauto), effect_gcmFinal_dec hs, finalDec_empty ht hc]
    rfl
  · rw [exec_gcmFinal (by tauto), effect_gcmFinal_dec hs, finalDec_release ht hc]
    rfl
  · refine failsWith_sequence rfl (mt (accepted_gcmFinal ..).mp ?_)
    rcases hs with hs | hs | hs | hs <;> simp [hs]

/-! ### The commands accepted in every state -/

/-- Settles O37: no check of TAG_CMP fails, and its comparator is equality. -/
theorem tagCmpResult : Obligations.TagCmpResult := by
  refine ⟨by decide, rejectsBadFields _, fun s => ?_, by decide⟩
  have hcmp : ctEq s.din s.tagin = decide (s.din = s.tagin) := by
    rw [Bool.eq_iff_iff, ctEq_iff, decide_eq_true_iff]
  rw [← hcmp]
  exact exec_of_accepted rfl rfl rfl

/-- After ZEROIZE, AES_ENC enciphers the zero block under the zero key (rule R126). -/
theorem exec_aesEnc_zeroed (s : State) : ∃ u,
    exec .aesEnc (finish (encode .zeroize) .ok (effect .zeroize s)) = .next u ∧ u.dout = aes 0#128 0#128 :=
  ⟨_, exec_of_accepted rfl rfl rfl, rfl⟩

/-- Settles O38: no check of ZEROIZE fails, and its writes are its effect. -/
theorem zeroizeResult : Obligations.ZeroizeResult := by
  have hx (s : State) : exec .zeroize s = .next (finish (encode .zeroize) .ok (effect .zeroize s)) :=
    exec_of_accepted rfl rfl rfl
  refine ⟨by decide, rejectsBadFields _, hx, fun s => ⟨hx s, rfl, rfl, rfl, rfl, rfl, rfl, rfl, rfl, rfl⟩, fun s => ?_⟩
  obtain ⟨u, hu, hdout⟩ := exec_aesEnc_zeroed s
  exact ⟨_, u, hx s, hu, hdout.trans (by decide +kernel)⟩

/-- Settles O39: no check of the INIT commands fails, and their effect is the start of a session. -/
theorem gcmInitResults : Obligations.GcmInitResults :=
  ⟨by decide, rejectsBadFields _, by decide, rejectsBadFields _,
    fun _ => ⟨exec_of_accepted rfl rfl rfl, exec_of_accepted rfl rfl rfl⟩, by decide +kernel, by decide⟩

/-- Settles O45: no check of GCM_ABORT fails. -/
theorem gcmAbortResult : Obligations.GcmAbortResult :=
  ⟨by decide, rejectsBadFields _, fun _ => exec_of_accepted rfl rfl rfl⟩

/-! ### The table of acceptance -/

/-- An accepted command completes with OK and leaves the SESS of its effect. -/
theorem leaves_of_accepted {i : Instr} {s : State} {q : Sess} (hw : i.wellFormed = true)
    (ha : accepted i s.sess s.partialBlk = true) (ho : ownCheck i s = none) (hq : (effect i s).sess = q) :
    ∃ t, exec i s = .next t ∧ t.errcode = .ok ∧ t.sess = q :=
  ⟨_, exec_of_accepted hw ha ho, rfl, hq⟩

/-- A row of the table for a block command with a legal count. -/
theorem BlockCommand.row {mk : BitVec 5 → Instr} {op : Word} {acc : Sess → Bool → Prop} (hmk : BlockCommand mk op acc)
    {n : BitVec 5} (hn : legalCount n = true) {s : State} {q : Sess} (ho : ownCheck (mk n) s = none)
    (hq : (effect (mk n) s).sess = q) :
    (acc s.sess s.partialBlk → ∃ t, Machine.exec (mk n) s = .next t ∧ t.errcode = .ok ∧ t.sess = q) ∧
      (¬ acc s.sess s.partialBlk → FailsWith (mk n) .sequence s) :=
  ⟨fun ha => ⟨_, hmk.exec hn ha ho, rfl, hq⟩, hmk.failsWith_sequence hn⟩

/-- GCM_FINAL ends an encryption session, and leaves a decryption session in one of three states (rule R122). -/
theorem effect_gcmFinal_sess (s : State) :
    if s.sess = .encAad ∨ s.sess = .encText then (effect .gcmFinal s).sess = .done
    else (effect .gcmFinal s).sess = .decRelease ∨ (effect .gcmFinal s).sess = .done ∨
      (effect .gcmFinal s).sess = .rejected := by
  simp only [effect]
  split
  · rfl
  · unfold finalDec
    split
    · split <;> simp
    · simp

/-- GCM_DEC in pass 2 completes with OK or ERR_LENGTH, and with OK leaves pass 2 or the end (rule R123). -/
theorem exec_gcmDec_release {n : BitVec 5} (hn : legalCount n = true) {s : State} (hs : s.sess = .decRelease) :
    ∃ t, exec (.gcmDec n) s = .next t ∧ t.errcode ≠ .sequence ∧
      (t.errcode = .ok → t.sess = .decRelease ∨ t.sess = .done) := by
  cases ho : releaseError n s with
  | none =>
    refine ⟨_, blockCommand_gcmDec.exec hn hs ho, by simp, fun _ => ?_⟩
    simp only [effect]
    split
    · exact .inr rfl
    · exact .inl hs
  | some e =>
    have he : e = .length := by
      rw [releaseError_eq] at ho
      simpa using (Option.ite_none_right_eq_some.mp ho).2.symm
    exact ⟨_, blockCommand_gcmDec.failsWith_ownCheck hn hs (he ▸ ho), by simp, by simp⟩

/-- NONCE_GEN completes with OK or ERR_EXHAUSTED and leaves the session (rule R142). -/
theorem exec_nonceGen_sess (s : State) :
    ∃ t, exec .nonceGen s = .next t ∧ t.errcode ≠ .sequence ∧ t.sess = s.sess := by
  cases h : s.nexh with
  | false => exact ⟨_, exec_nonceGen h, by simp, rfl⟩
  | true => exact ⟨_, exec_nonceGen_exhausted h, by simp, rfl⟩

theorem effect_nonceValidate_sess (s : State) : (effect .nonceValidate s).sess = s.sess := by
  simp only [effect]
  split <;> rfl

/-- Settles O46: row by row. -/
theorem acceptanceTable : Obligations.AcceptanceTable := by
  intro s n h1 h16 leaves row
  have hn := (legalCount_iff n).mpr ⟨h1, h16⟩
  exact ⟨leaves_of_accepted rfl rfl rfl rfl, leaves_of_accepted rfl rfl rfl rfl, leaves_of_accepted rfl rfl rfl rfl,
    blockCommand_gcmAad.row hn rfl rfl, blockCommand_gcmEnc.row hn rfl rfl, blockCommand_gcmDecAuth.row hn rfl rfl,
    ⟨fun ha => ⟨_, exec_gcmFinal ha, rfl, effect_gcmFinal_sess s⟩,
      fun ha => failsWith_sequence rfl (mt (accepted_gcmFinal ..).mp ha)⟩,
    exec_gcmDec_release hn, blockCommand_gcmDec.failsWith_sequence hn,
    leaves_of_accepted rfl rfl rfl rfl, leaves_of_accepted rfl rfl rfl rfl, leaves_of_accepted rfl rfl rfl rfl,
    leaves_of_accepted rfl rfl rfl rfl, leaves_of_accepted rfl rfl rfl rfl,
    leaves_of_accepted rfl rfl rfl (effect_nonceValidate_sess s), exec_nonceGen_sess s⟩

end Sys2Proof.Proofs
end

section
/-! The sessions as a whole: pass 2 opens only for a matching tag, the counter blocks, and what the block commands make of a
message in chunks, so that a session computes GCM (42_gcm.md rules R127-R129). -/
namespace Sys2Proof.Proofs

open Sys2Proof.Machine Sys2Proof.Safety Sys2Proof.Laws

/-! ### Verify before release -/

/-- Only GCM_FINAL of a decryption session whose tag matches leads to pass 2 (rules R116, R122). -/
theorem effect_opens_release {i : Instr} {s : State} (ha : accepted i s.sess s.partialBlk = true)
    (hs : s.sess ≠ .decRelease) (ht : (effect i s).sess = .decRelease) :
    i = .gcmFinal ∧ (s.sess = .decAad ∨ s.sess = .decAuth) ∧ sessionTag s = s.tagin ∧ (effect i s).tagOk = true := by
  cases i
  case aesEnc | gfMul | tagCmp | nonceInit | nonceGen | gcmAad => exact absurd ht hs
  case nonceValidate => exact absurd ((effect_nonceValidate_sess s).symm.trans ht) hs
  case gcmDec n => exact absurd ((accepted_gcmDec ..).mp ha) hs
  case zeroize | gcmInitEnc | gcmInitDec | gcmEnc | gcmDecAuth | gcmAbort => cases ht
  case gcmFinal =>
    by_cases henc : s.sess = .encAad ∨ s.sess = .encText
    · rw [effect_gcmFinal_enc henc] at ht
      cases ht
    · have hdec : s.sess = .decAad ∨ s.sess = .decAuth := by
        have := (accepted_gcmFinal ..).mp ha
        tauto
      rw [effect_gcmFinal_dec hdec] at ht ⊢
      by_cases htag : sessionTag s = s.tagin
      · refine ⟨rfl, hdec, htag, ?_⟩
        by_cases hc : s.lenC = 0#64
        · rw [finalDec_empty htag hc]
        · rw [finalDec_release htag hc]
      · rw [finalDec_mismatch htag] at ht
        cases ht

/-- The host's part touches neither the session's tag nor, while busy, TAGIN. -/
theorem hostPart_sessionTag {s u : State} (h : HostPart s u) (hb : s.busy = true) :
    sessionTag u = sessionTag s ∧ u.tagin = s.tagin := by
  obtain ⟨_, _, _, _, _, _, _, _, hskey, hh, hj0, _, hx, hlenA, hlenC, _⟩ := hostPart_engine_state h
  obtain ⟨_, _, _, _, htagin, _⟩ := hostPart_busy h hb
  exact ⟨by simp only [sessionTag, hskey, hh, hj0, hx, hlenA, hlenC], htagin⟩

theorem hostPart_sess {s u : State} (h : HostPart s u) : u.sess = s.sess := by
  obtain ⟨_, _, _, _, _, _, _, hsess, _⟩ := hostPart_engine_state h
  exact hsess

/-- Settles O57: a step to pass 2 is neither a reset nor a quiet cycle, so it completes the command that opens it. -/
theorem verifyBeforeRelease : Obligations.VerifyBeforeRelease := by
  refine ⟨fun s t h hs ht => ?_, fun n s t h hok => ?_, fun n s h0 h16 hs => ?_⟩
  · rcases step_kinds s with hr | ⟨w, hw⟩ | ⟨hr, hc⟩
    · rw [step_reset h hr] at ht
      cases ht
    · obtain ⟨u, hu, hb, hx⟩ := step_completing h hw
      obtain ⟨htag, htagin⟩ := hostPart_sessionTag hu hb
      rw [← hostPart_sess hu, ← htag, ← htagin] at *
      rcases runWord_effect hx with ⟨i, hi, ha, _, rfl⟩ | ⟨v, e, _, rfl⟩
      · obtain ⟨rfl, hdec, hmatch, hok⟩ := effect_opens_release ha hs ht
        exact ⟨⟨w, hw, hi⟩, hdec, hmatch, hok⟩
      · exact absurd ht hs
    · obtain ⟨u, q, hu, rfl, _⟩ := step_quiet h hr hc
      exact absurd ((hostPart_sess hu).symm.trans ht) hs
  · rcases exec_next h with ⟨_, ha, _⟩ | ⟨e, he, _, rfl⟩
    · exact (accepted_gcmDec ..).mp ha
    · exact absurd hok he
  · have hn : legalCount n = true := (legalCount_iff n).mpr ⟨Nat.one_le_iff_ne_zero.mpr h0, h16⟩
    exact blockCommand_gcmDec.failsWith_sequence hn (by simp [hs])

/-! ### The counter blocks -/

theorem inc32_iterate_fields (c : Block) (j : Nat) :
    ((inc32^[j]) c).extractLsb' 32 96 = c.extractLsb' 32 96 ∧
      ((inc32^[j]) c).extractLsb' 0 32 = c.extractLsb' 0 32 + BitVec.ofNat 32 j := by
  induction j with
  | zero => simp
  | succ j ih =>
    obtain ⟨hhi, hlo⟩ := ih
    obtain ⟨hstepHi, hstepLo⟩ := inc32_fields ((inc32^[j]) c)
    rw [Function.iterate_succ_apply', hstepHi, hstepLo, hhi, hlo, BitVec.add_assoc, BitVec.ofNat_add]
    exact ⟨rfl, rfl⟩

/-- After 2^32 steps the counter is back where it began (rule R111). -/
theorem inc32_iterate_wrap (c : Block) : (inc32^[2 ^ 32]) c = c := by
  obtain ⟨hhi, hlo⟩ := inc32_iterate_fields c (2 ^ 32)
  refine block_ext_low hhi (hlo.trans ?_)
  have hwrap : BitVec.ofNat 32 (2 ^ 32) = 0#32 := by decide
  rw [hwrap, BitVec.add_zero]

/-- A run of chunks that answers performed the first of them, and then the rest. -/
theorem runChunks_cons_eq_some {mk : BitVec 5 → Instr} {c : Chunk} {cs : List Chunk} {s t : State} {outs : List Block}
    (h : runChunks mk (c :: cs) s = some (t, outs)) :
    ∃ outs', runChunks mk cs (finish (encode (mk c.2)) .ok (effect (mk c.2) { s with din := c.1 })) = some (t, outs') := by
  obtain ⟨u, hu⟩ := exec_total (mk c.2) { s with din := c.1 }
  rcases exec_next hu with ⟨_, _, _, rfl⟩ | ⟨e, he, _, rfl⟩
  · rw [runChunks_cons hu rfl] at h
    obtain ⟨⟨_, outs'⟩, hr, hp⟩ := Option.map_eq_some_iff.mp h
    cases hp
    exact ⟨outs', hr⟩
  · simp [runChunks, hu, he] at h

/-- Settles O58: by induction on the steps, and on the chunks. -/
theorem counterUse : Obligations.CounterUse := by
  refine ⟨inc32_iterate_fields, fun n => inc32_iterate_wrap _, fun ps => ?_⟩
  induction ps with
  | nil =>
    rintro s t outs h
    cases h
    rfl
  | cons p ps ih =>
    intro s t outs h
    obtain ⟨outs', hr⟩ := runChunks_cons_eq_some h
    exact ih _ _ _ hr

end Sys2Proof.Proofs
end

section
/-! The message commands over chunks: what the associated data, the text and pass 2 make of the session, and that a session
computes GCM (42_gcm.md rules R127, R128). -/
namespace Sys2Proof.Proofs

open Sys2Proof.Machine Sys2Proof.Safety Sys2Proof.Laws

/-! ### Chunks -/

/-- The blocks that chunks stand for, each cut to its count (rule R112). -/
def maskedBlocks (cs : List Chunk) : List Block := cs.map fun c => mask c.1 c.2

/-- GHASH going on from `x` over more blocks (rule R103). -/
def absorb (h x : Block) (bs : List Block) : Block := bs.foldl (fun x b => ghashStep x b h) x

/-- The bits of a message, not wrapped. -/
def messageBits (cs : List Chunk) : Nat := (cs.map fun c => 8 * c.2.toNat).sum

theorem chunkBits_cons (c : Chunk) (cs : List Chunk) : chunkBits (c :: cs) = bitsOf c.2 + chunkBits cs := by
  simp [chunkBits]

theorem messageBits_cons (c : Chunk) (cs : List Chunk) : messageBits (c :: cs) = 8 * c.2.toNat + messageBits cs := by
  simp [messageBits]

theorem absorb_cons (h x : Block) (c : Chunk) (cs : List Chunk) :
    absorb h x (maskedBlocks (c :: cs)) = absorb h (ghashStep x (mask c.1 c.2) h) (maskedBlocks cs) := rfl

/-- LENC counts a message shorter than 2^64 bits without wrapping (rule R180). -/
theorem chunkBits_toNat {cs : List Chunk} (h : messageBits cs < 2 ^ 64) : (chunkBits cs).toNat = messageBits cs := by
  induction cs with
  | nil => rfl
  | cons c cs ih =>
    rw [messageBits_cons] at h ⊢
    rw [chunkBits_cons, BitVec.toNat_add, bitsOf_toNat, ih (by omega), Nat.mod_eq_of_lt h]

/-- Chunks that are not none have at least one byte. -/
theorem messageBits_pos {cs : List Chunk} (hok : chunksOk cs = true) (hne : cs ≠ []) : 0 < messageBits cs := by
  obtain ⟨c, cs, rfl⟩ := List.exists_cons_of_ne_nil hne
  obtain ⟨hc, _⟩ := chunksOk_cons hok
  obtain ⟨hpos, _⟩ := (legalCount_iff _).mp hc
  rw [messageBits_cons]
  omega

/-! ### The ciphertext of chunks -/

theorem chunkBits_ctrChunks (k c : Block) (ps : List Chunk) : chunkBits (ctrChunks k c ps) = chunkBits ps := by
  induction ps generalizing c with
  | nil => rfl
  | cons p ps ih => rw [ctrChunks, chunkBits_cons, chunkBits_cons, ih]

/-- Ciphertext blocks are cut to their counts already. -/
theorem maskedBlocks_ctrChunks (k c : Block) (ps : List Chunk) :
    maskedBlocks (ctrChunks k c ps) = (ctrChunks k c ps).map (·.1) := by
  induction ps generalizing c with
  | nil => rfl
  | cons p ps ih => exact congrArg₂ List.cons (mask_mask _ _) (ih _)

/-- Encrypting twice gives the masked plaintext back. -/
theorem ctrChunks_ctrChunks (k c : Block) (ps : List Chunk) :
    ctrChunks k c (ctrChunks k c ps) = ps.map fun p => (mask p.1 p.2, p.2) := by
  induction ps generalizing c with
  | nil => rfl
  | cons p ps ih =>
    have hblock : mask (mask (p.1 ^^^ aes k (inc32 c)) p.2 ^^^ aes k (inc32 c)) p.2 = mask p.1 p.2 := by
      rw [mask_xor, mask_mask, ← mask_xor, BitVec.xor_assoc, BitVec.xor_self, BitVec.xor_zero]
    simp only [ctrChunks, List.map_cons, ih, hblock]

/-- The tag of rule R127, with GHASH taken over the associated data first, then the ciphertext, then the lengths. -/
theorem gcmTag_eq (k : Block) (n : Nonce) (as cs : List Chunk) : gcmTag k n as cs =
    ghashStep (absorb (aes k 0#128) (absorb (aes k 0#128) 0#128 (maskedBlocks as)) (maskedBlocks cs))
        (lenBlock (chunkBits as) (chunkBits cs)) (aes k 0#128) ^^^ aes k (preCounter n) := by
  simp only [gcmTag, ghash, absorb, maskedBlocks, List.foldl_append, List.foldl_cons, List.foldl_nil]

/-! ### Chunks through the block commands -/

/-- The state after one chunk of an accepted block command. -/
def chunkDone (mk : BitVec 5 → Instr) (c : Chunk) (s : State) : State :=
  finish (encode (mk c.2)) .ok (effect (mk c.2) { s with din := c.1 })

theorem BlockCommand.runChunks_cons {mk : BitVec 5 → Instr} {op : Word} {acc : Sess → Bool → Prop}
    (hmk : BlockCommand mk op acc) {c : Chunk} {s : State} (hn : legalCount c.2 = true) (ha : acc s.sess s.partialBlk)
    (ho : ownCheck (mk c.2) { s with din := c.1 } = none) (cs : List Chunk) :
    runChunks mk (c :: cs) s =
      (runChunks mk cs (chunkDone mk c s)).map fun r => (r.1, (chunkDone mk c s).dout :: r.2) :=
  Laws.runChunks_cons (exec_of_accepted ((hmk.wellFormed _).trans hn) ((hmk.accepted ..).mpr ha) ho) rfl

/-- A whole block leaves PARTIAL 0, so that the next chunk is accepted (rule R37). -/
theorem isShort_of_more {c : Chunk} {cs : List Chunk} (hok : chunksOk (c :: cs) = true) (hne : cs ≠ []) :
    isShort c.2 = false := by
  obtain ⟨_, _, hwhole⟩ := chunksOk_cons hok
  rw [hwhole hne]
  rfl

/-- The associated data goes through GHASH and into LENA; DOUT stays (rule R119). -/
theorem runChunks_gcmAad {as : List Chunk} (hok : chunksOk as = true) {s : State} (hs : s.sess = .encAad ∨ s.sess = .decAad)
    (hp : as ≠ [] → s.partialBlk = false) :
    ∃ t, runChunks .gcmAad as s = some (t, as.map fun _ => s.dout) ∧
      t = { s with
        x := absorb s.h s.x (maskedBlocks as), lenA := s.lenA + chunkBits as
        partialBlk := t.partialBlk, din := t.din, cmdLast := t.cmdLast, errcode := t.errcode, done := t.done
        pend := t.pend } := by
  induction as generalizing s with
  | nil => exact ⟨s, rfl, by simp [absorb, maskedBlocks, chunkBits]⟩
  | cons c cs ih =>
    obtain ⟨hc, hcs, _⟩ := chunksOk_cons hok
    obtain ⟨t, hrun, ht⟩ := ih hcs (s := chunkDone .gcmAad c s) hs (isShort_of_more hok)
    refine ⟨t, ?_, ht.trans ?_⟩
    · rw [blockCommand_gcmAad.runChunks_cons hc ⟨hs, hp (by simp)⟩ rfl, hrun]
      rfl
    · rw [absorb_cons, chunkBits_cons, ← BitVec.add_assoc]
      simp only [chunkDone, effect, finish]

/-- The plaintext is encrypted with the successive counter blocks, and its ciphertext goes through GHASH and into LENC
(rule R120). -/
theorem runChunks_gcmEnc {ps : List Chunk} (hok : chunksOk ps = true) {s : State}
    (hs : ps ≠ [] → s.sess = .encAad ∨ s.sess = .encText ∧ s.partialBlk = false) :
    ∃ t, runChunks .gcmEnc ps s = some (t, (ctrChunks s.skey s.ctr ps).map (·.1)) ∧
      (t.sess = s.sess ∨ t.sess = .encText) ∧
      t = { s with
        x := absorb s.h s.x (maskedBlocks (ctrChunks s.skey s.ctr ps)), lenC := s.lenC + chunkBits ps
        ctr := t.ctr, dout := t.dout, sess := t.sess
        partialBlk := t.partialBlk, din := t.din, cmdLast := t.cmdLast, errcode := t.errcode, done := t.done
        pend := t.pend } := by
  induction ps generalizing s with
  | nil => exact ⟨s, rfl, .inl rfl, by simp [absorb, maskedBlocks, chunkBits, ctrChunks]⟩
  | cons c cs ih =>
    obtain ⟨hc, hcs, _⟩ := chunksOk_cons hok
    obtain ⟨t, hrun, hsess, ht⟩ := ih hcs (s := chunkDone .gcmEnc c s) fun hne => .inr ⟨rfl, isShort_of_more hok hne⟩
    refine ⟨t, ?_, .inr (hsess.elim id id), ht.trans ?_⟩
    · rw [blockCommand_gcmEnc.runChunks_cons hc (hs (by simp)) rfl, hrun]
      rfl
    · rw [ctrChunks, absorb_cons, mask_mask, chunkBits_cons, ← BitVec.add_assoc]
      simp only [chunkDone, effect, finish, cryptBlock]

/-- Pass 1 puts the ciphertext through GHASH and into LENC; DOUT stays (rule R121). -/
theorem runChunks_gcmDecAuth {cs : List Chunk} (hok : chunksOk cs = true) {s : State}
    (hs : cs ≠ [] → s.sess = .decAad ∨ s.sess = .decAuth ∧ s.partialBlk = false) :
    ∃ t, runChunks .gcmDecAuth cs s = some (t, cs.map fun _ => s.dout) ∧
      (t.sess = s.sess ∨ t.sess = .decAuth) ∧
      t = { s with
        x := absorb s.h s.x (maskedBlocks cs), lenC := s.lenC + chunkBits cs, sess := t.sess
        partialBlk := t.partialBlk, din := t.din, cmdLast := t.cmdLast, errcode := t.errcode, done := t.done
        pend := t.pend } := by
  induction cs generalizing s with
  | nil => exact ⟨s, rfl, .inl rfl, by simp [absorb, maskedBlocks, chunkBits]⟩
  | cons c cs ih =>
    obtain ⟨hc, hcs, _⟩ := chunksOk_cons hok
    obtain ⟨t, hrun, hsess, ht⟩ := ih hcs (s := chunkDone .gcmDecAuth c s) fun hne => .inr ⟨rfl, isShort_of_more hok hne⟩
    refine ⟨t, ?_, .inr (hsess.elim id id), ht.trans ?_⟩
    · rw [blockCommand_gcmDecAuth.runChunks_cons hc (hs (by simp)) rfl, hrun]
      rfl
    · rw [absorb_cons, chunkBits_cons, ← BitVec.add_assoc]
      simp only [chunkDone, effect, finish]

/-- The length check passes on the first of the chunks that are left to release: a short one is the last (rule R123). -/
theorem ownCheck_gcmDec_chunk {c : Chunk} {cs : List Chunk} (hok : chunksOk (c :: cs) = true) {s : State}
    (hrem : s.rem.toNat = messageBits (c :: cs)) : ownCheck (.gcmDec c.2) s = none := by
  have hend : c.2.toNat < 16 → messageBits cs = 0 := fun hlt => by
    by_cases hlast : cs = []
    · rw [hlast]
      rfl
    · obtain ⟨_, _, hwhole⟩ := chunksOk_cons hok
      rw [hwhole hlast] at hlt
      exact absurd hlt (by decide)
  rw [messageBits_cons] at hrem
  exact (releaseError_eq _ _).trans (if_neg (by omega))

/-- Pass 2 over as much as pass 1 counted releases every block and ends the session (rule R123). -/
theorem runChunks_gcmDec {cs : List Chunk} (hok : chunksOk cs = true) (hne : cs ≠ []) {s : State}
    (hs : s.sess = .decRelease) (hrem : s.rem.toNat = messageBits cs) :
    ∃ u, runChunks .gcmDec cs s = some (u, (ctrChunks s.skey s.ctr cs).map (·.1)) ∧ u.sess = .done := by
  induction cs generalizing s with
  | nil => exact absurd rfl hne
  | cons c cs ih =>
    obtain ⟨hc, hcs, _⟩ := chunksOk_cons hok
    rw [blockCommand_gcmDec.runChunks_cons hc hs (ownCheck_gcmDec_chunk hok hrem)]
    rw [messageBits_cons] at hrem
    by_cases hlast : cs = []
    · subst hlast
      have hdone : chunkDone .gcmDec c s =
          finish (encode (.gcmDec c.2)) .ok { scrub (releaseBlock c.2 { s with din := c.1 }) with sess := .done } :=
        congrArg (finish _ _) (effect_gcmDec_last hrem)
      rw [hdone]
      exact ⟨_, rfl, rfl⟩
    · have hmore := messageBits_pos hcs hlast
      have hdone : chunkDone .gcmDec c s = finish (encode (.gcmDec c.2)) .ok (releaseBlock c.2 { s with din := c.1 }) :=
        congrArg (finish _ _) (effect_gcmDec_before (by dsimp only; omega))
      have hleft : (chunkDone .gcmDec c s).rem.toNat = messageBits cs := by
        rw [hdone, finish_rem, releaseBlock_rem, BitVec.toNat_sub, bitsOf_toNat]
        dsimp only
        omega
      obtain ⟨u, hrun, hu⟩ := ih hcs hlast (hdone ▸ hs) hleft
      rw [hrun, hdone]
      exact ⟨u, rfl, hu⟩

/-! ### The sessions -/

/-- Settles O59: the run of each part, and what it leaves for the tag. -/
theorem encryptionIsGcm : Obligations.EncryptionIsGcm := by
  intro s as ps has hps
  have hinit : runOne .gcmInitEnc s = some (finish (encode .gcmInitEnc) .ok (startSession .encAad s)) :=
    runOne_of (exec_of_accepted rfl rfl rfl) rfl
  obtain ⟨s2, haad, h2⟩ := runChunks_gcmAad has (s := finish (encode .gcmInitEnc) .ok (startSession .encAad s))
    (.inl rfl) fun _ => rfl
  have hsess2 : s2.sess = .encAad := by rw [h2]; rfl
  obtain ⟨s3, henc, hsess3, h3⟩ := runChunks_gcmEnc hps fun _ => .inl hsess2
  rw [hsess2] at hsess3
  have htag : sessionTag s3 = gcmTag s.key s.nonce as (ctrChunks s.key (preCounter s.nonce) ps) := by
    rw [gcmTag_eq, chunkBits_ctrChunks, h3, h2]
    simp [sessionTag]
  refine ⟨_, s2, s3, finish 0x00000015#32 .ok (finalEnc s3), _, hinit, haad, ?_, ?_, htag, rfl⟩
  · rw [henc, h2]
    rfl
  · exact runOne_of (effect_gcmFinal_enc hsess3 ▸ exec_gcmFinal (by tauto)) rfl

/-- Pass 1 of a decryption session: nothing writes DOUT, and what it leaves for GCM_FINAL and for pass 2. -/
theorem decryption_pass_one (s : State) {as cs : List Chunk} (has : chunksOk as = true) (hcs : chunksOk cs = true) :
    ∃ s1 s2 s3, runOne .gcmInitDec s = some s1 ∧ s1.dout = s.dout ∧
      runChunks .gcmAad as s1 = some (s2, as.map fun _ => s.dout) ∧
      runChunks .gcmDecAuth cs s2 = some (s3, cs.map fun _ => s.dout) ∧
      (s3.sess = .decAad ∨ s3.sess = .decAuth) ∧ sessionTag s3 = gcmTag s.key s.nonce as cs ∧ s3.tagin = s.tagin ∧
      s3.lenC = chunkBits cs ∧ s3.skey = s.key ∧ s3.j0 = preCounter s.nonce := by
  have hinit : runOne .gcmInitDec s = some (finish (encode .gcmInitDec) .ok (startSession .decAad s)) :=
    runOne_of (exec_of_accepted rfl rfl rfl) rfl
  obtain ⟨s2, haad, h2⟩ := runChunks_gcmAad has (s := finish (encode .gcmInitDec) .ok (startSession .decAad s))
    (.inr rfl) fun _ => rfl
  have hsess2 : s2.sess = .decAad := by rw [h2]; rfl
  have hdout2 : s2.dout = s.dout := by rw [h2]; rfl
  obtain ⟨s3, hauth, hsess3, h3⟩ := runChunks_gcmDecAuth hcs fun _ => .inl hsess2
  rw [hsess2] at hsess3
  rw [hdout2] at hauth
  refine ⟨_, s2, s3, hinit, rfl, haad, hauth, hsess3, ?_, ?_, ?_, ?_, ?_⟩
  · rw [gcmTag_eq, h3, h2]
    simp [sessionTag]
  all_goals
    rw [h3, h2]
    simp

/-- Settles O60: pass 1 leaves the tag of rule R127 to be compared; a match opens pass 2 over what pass 1 counted. -/
theorem decryptionVerifies : Obligations.DecryptionVerifies := by
  refine ⟨fun s as cs has hcs hlen => ?_, ctrChunks_ctrChunks⟩
  obtain ⟨s1, s2, s3, hinit, hdout, haad, hauth, hsess, htag, htagin, hlenC, hskey, hj0⟩ := decryption_pass_one s has hcs
  have hfinal : runOne .gcmFinal s3 = some (finish 0x00000015#32 .ok (finalDec s3)) :=
    runOne_of (effect_gcmFinal_dec hsess ▸ exec_gcmFinal (by tauto)) rfl
  refine ⟨s1, s2, s3, _, hinit, hdout, haad, hauth, hfinal, ?_⟩
  rw [← htag, ← htagin]
  by_cases hmatch : sessionTag s3 = s3.tagin
  · by_cases hempty : cs = []
    · rw [finalDec_empty hmatch (by rw [hlenC, hempty]; rfl)]
      exact ⟨iff_of_true rfl hmatch.symm, nofun, fun _ _ => rfl, fun _ h => absurd hempty h⟩
    · have hbits : s3.lenC.toNat = messageBits cs := hlenC ▸ chunkBits_toNat hlen
      have hpos := messageBits_pos hcs hempty
      have hne : s3.lenC ≠ 0#64 := by
        intro h0
        rw [h0] at hbits
        exact hpos.ne hbits
      rw [finalDec_release hmatch hne, ← hskey, ← hj0]
      exact ⟨iff_of_true rfl hmatch.symm, nofun, fun _ h => absurd h hempty,
        fun _ _ => ⟨rfl, runChunks_gcmDec hcs hempty rfl hbits⟩⟩
  · rw [finalDec_mismatch hmatch]
    exact ⟨iff_of_false (by simp) (Ne.symm hmatch),
      fun _ => ⟨rfl, rfl, fun n hn => blockCommand_gcmDec.failsWith_sequence hn (by simp)⟩, nofun,
      nofun⟩

end Sys2Proof.Proofs
end

section
/-! The nonce manager: the results of its three commands, and the sequences of values they give and accept (43_nonce.md
rules R141-R143, R145). -/
namespace Sys2Proof.Proofs

open Sys2Proof.Machine Sys2Proof.Safety Sys2Proof.Laws

/-! ### The effects -/

/-- NONCE with its last word replaced: bytes 0 to 7 are kept (rules R57, R142). -/
theorem setNonceWord_two (r : Nonce) (v : Word) : setNonceWord r 2 v = r.extractLsb' 32 64 ++ v := by
  have hkept : nonceWord r 0 ++ nonceWord r 1 = r.extractLsb' 32 64 :=
    BitVec.extractLsb'_append_extractLsb'_eq_extractLsb' rfl
  rw [← hkept]
  rfl

section
variable {s : State}

/-- NONCE_GEN's effect where it is performed: the value that sets NEXH is the last one (rules R142, R144). -/
theorem effect_nonceGen (h : s.nexh = false) : effect .nonceGen s = { s with
    nres := s.txc, nonce := s.nonce.extractLsb' 32 64 ++ s.txc
    nexh := decide (s.txc = 0xFFFFFFFF#32), txc := s.txc + 1#32 } := by
  simp only [effect, setNonceWord_two, h, Bool.if_true_left, Bool.or_false]

/-- NONCE_VALIDATE accepts a greater value, which becomes the high-water mark (rule R143). -/
theorem effect_nonceValidate_accept (h : s.rxhw.toNat < s.nval.toNat) :
    effect .nonceValidate s = { s with rxhw := s.nval, nvalid := true } :=
  if_pos (BitVec.lt_def.mpr h)

/-- NONCE_VALIDATE refuses a value up to the high-water mark, which stays (rule R143). -/
theorem effect_nonceValidate_refuse (h : s.nval.toNat ≤ s.rxhw.toNat) :
    effect .nonceValidate s = { s with nvalid := false } :=
  if_neg fun hlt => Nat.not_lt.mpr h (BitVec.lt_def.mp hlt)

end

/-- After NONCE_VALIDATE the high-water mark is no less than the value, accepted or not (rule R143). -/
theorem nval_le_rxhw_effect_nonceValidate (s : State) : s.nval.toNat ≤ (effect .nonceValidate s).rxhw.toNat := by
  rcases Nat.lt_or_ge s.rxhw.toNat s.nval.toNat with h | h
  · rw [effect_nonceValidate_accept h]
  · rwa [effect_nonceValidate_refuse h]

/-- NONCE_VALIDATE completes with its effect in every state (rule R143). -/
theorem exec_nonceValidate (s : State) :
    exec .nonceValidate s = .next (finish (encode .nonceValidate) .ok (effect .nonceValidate s)) :=
  exec_of_accepted rfl rfl rfl

/-- Settles O47: NONCE_INIT has one outcome, NONCE_GEN's is decided by NEXH, and NONCE_VALIDATE's by the comparison. -/
theorem nonceCommandResults : Obligations.NonceCommandResults := by
  refine ⟨by decide, rejectsBadFields _, by decide, rejectsBadFields _, by decide, rejectsBadFields _,
    exec_nonceInit, fun s => exec_nonceGen_exhausted, fun s h => ?_, fun s h => ?_, fun s h => ?_⟩
  · rw [exec_nonceGen h, effect_nonceGen h]
    rfl
  · rw [exec_nonceValidate, effect_nonceValidate_accept h]
    rfl
  · rw [exec_nonceValidate, effect_nonceValidate_refuse h]
    rfl

/-! ### The values emitted -/

/-- A performed NONCE_GEN emits TXC and steps it; the last value sets NEXH (rules R142, R144). -/
theorem runOne_nonceGen {s : State} (h : s.nexh = false) :
    ∃ t, runOne .nonceGen s = some t ∧ t.nres = s.txc ∧ t.txc = s.txc + 1#32 ∧
      t.nexh = decide (s.txc = 0xFFFFFFFF#32) := by
  refine ⟨_, runOne_of (exec_nonceGen h) rfl, ?_⟩
  rw [effect_nonceGen h]
  exact ⟨rfl, rfl, rfl⟩

/-- One NONCE_GEN more adds its value to those emitted. -/
theorem genTimes_succ {n : Nat} {s t u : State} {vs : List Word} (ht : genTimes n s = some (t, vs))
    (hu : runOne .nonceGen t = some u) : genTimes (n + 1) s = some (u, vs ++ [u.nres]) := by
  rw [genTimes, ht, Option.bind_some, hu, Option.map_some]

/-- `n` NONCE_GENs from TXC = 0 emit 0 to `n - 1`; TXC counts them, and NEXH says whether the nonce space is used up
(rules R142, R145). -/
theorem genTimes_from_zero {s : State} (htxc : s.txc = 0#32) (hnexh : s.nexh = false) {n : Nat} (hn : n ≤ 2 ^ 32) :
    ∃ t, genTimes n s = some (t, (List.range n).map (BitVec.ofNat 32)) ∧
      t.txc = BitVec.ofNat 32 n ∧ t.nexh = decide (n = 2 ^ 32) := by
  induction n with
  | zero => exact ⟨s, rfl, htxc, hnexh⟩
  | succ n ih =>
    obtain ⟨t, ht, hcount, hopen⟩ := ih (Nat.le_of_succ_le hn)
    obtain ⟨u, hu, hres, htxc', hnexh'⟩ := runOne_nonceGen (hopen.trans (decide_eq_false (Nat.ne_of_lt hn)))
    have hlast : BitVec.ofNat 32 n = 0xFFFFFFFF#32 ↔ n + 1 = 2 ^ 32 := by
      rw [← BitVec.toNat_inj, BitVec.toNat_ofNat, Nat.mod_eq_of_lt hn]
      exact Nat.succ_inj.symm
    refine ⟨u, ?_, by rw [htxc', hcount, BitVec.ofNat_add], by rw [hnexh', hcount, decide_eq_decide, hlast]⟩
    rw [genTimes_succ ht hu, hres, hcount, List.range_succ, List.map_append, List.map_singleton]

/-! ### The values accepted -/

theorem runOne_nonceValidate (s : State) :
    runOne .nonceValidate s = some (finish (encode .nonceValidate) .ok (effect .nonceValidate s)) :=
  runOne_of (exec_nonceValidate s) rfl

/-- A value up to the high-water mark is refused, and the mark stays (rules R143, R145). -/
theorem runOne_nonceValidate_refuse {s : State} (h : s.nval.toNat ≤ s.rxhw.toNat) :
    ∃ u, runOne .nonceValidate s = some u ∧ u.nvalid = false ∧ u.rxhw = s.rxhw :=
  ⟨_, runOne_nonceValidate s, by rw [effect_nonceValidate_refuse h]; exact ⟨rfl, rfl⟩⟩

/-- A value greater than the high-water mark is accepted and is the new mark (rules R143, R145). -/
theorem runOne_nonceValidate_accept {s : State} (h : s.rxhw.toNat < s.nval.toNat) :
    ∃ u, runOne .nonceValidate s = some u ∧ u.nvalid = true ∧ u.rxhw = s.nval :=
  ⟨_, runOne_nonceValidate s, by rw [effect_nonceValidate_accept h]; exact ⟨rfl, rfl⟩⟩

/-- A value once validated stays at or below the high-water mark (rule R145). -/
theorem nval_le_rxhw_of_validated {s t : State} (h : runOne .nonceValidate s = some t) :
    s.nval.toNat ≤ t.rxhw.toNat ∧ t.nval = s.nval := by
  obtain ⟨_, _, hnval, _⟩ := effect_frame .nonceValidate s
  rw [runOne_nonceValidate] at h
  cases h
  exact ⟨nval_le_rxhw_effect_nonceValidate s, hnval⟩

/-- Settles O48: the values emitted count up from 0, and a value is accepted exactly when the high-water mark is below it. -/
theorem nonceSequences : Obligations.NonceSequences := by
  refine ⟨fun s n hn => ?_, fun s t h => ?_, fun s t h => ?_, fun s hs => ?_, fun s => ?_⟩
  · obtain ⟨u, hu, _⟩ := genTimes_from_zero (s := finish (encode .nonceInit) .ok (effect .nonceInit s)) rfl rfl hn
    exact ⟨_, u, runOne_of (exec_nonceInit s) rfl, hu⟩
  · obtain ⟨hle, hnval⟩ := nval_le_rxhw_of_validated h
    exact runOne_nonceValidate_refuse (hnval ▸ hle)
  · obtain ⟨hle, _⟩ := nval_le_rxhw_of_validated h
    have hmark : (3#32).toNat ≤ t.rxhw.toNat := le_trans (show 3 ≤ 5 by decide) hle
    obtain ⟨u, hu, hnvalid, _⟩ := runOne_nonceValidate_refuse (s := { t with nval := 3#32 }) hmark
    exact ⟨u, hu, hnvalid⟩
  · have hnext : s.rxhw.toNat < (s.rxhw + 1#32).toNat := by bv_omega
    exact runOne_nonceValidate_accept (s := { s with nval := s.rxhw + 1#32 }) hnext
  · obtain ⟨u, hu, hnvalid, _⟩ := runOne_nonceValidate_refuse (s := { s with nval := 0#32 }) (Nat.zero_le _)
    exact ⟨u, hu, hnvalid⟩

end Sys2Proof.Proofs
end

section
/-! The outcomes of a completion: the order of the checks, the outcome codes with their causes, and the interrupt a completion
raises (60_exceptions.md rules R151-R154, R157-R159). -/
namespace Sys2Proof.Proofs

open Sys2Proof.Machine Sys2Proof.Safety Sys2Proof.Laws

/-! ### The outcome of a command, and of a word -/

/-- A command with an illegal count is ERR_NBYTES, whatever the state (rules R71, R152; log entry 11). -/
theorem failsWith_nbytes {i : Instr} (hw : i.wellFormed = false) (s : State) : FailsWith i .nbytes s :=
  failsWith_outcomeOf (by simp [outcomeOf, hw]) (by decide)

/-- The cause of an error, in the order of the checks (rule R152). -/
theorem outcomeOf_eq_iff {e : ErrCode} (he : e ≠ .ok) (i : Instr) (own : Option ErrCode) (s : State) :
    outcomeOf i own s = e ↔
      i.wellFormed = false ∧ e = .nbytes ∨
      i.wellFormed = true ∧ accepted i s.sess s.partialBlk = false ∧ e = .sequence ∨
      i.wellFormed = true ∧ accepted i s.sess s.partialBlk = true ∧ own = some e := by
  have hown : own.getD .ok = e ↔ own = some e := by
    cases own with
    | none => simp [he.symm]
    | some e' => simp
  unfold outcomeOf
  split
  · next hw =>
    split
    · next ha => simp [hw, ha, hown]
    · next ha => simp [hw, ha, eq_comm (b := e)]
  · next hw => simp [hw, eq_comm (b := e)]

/-- The commands with a check of their own, the cause it looks for and the code it reports (rules R123, R142, R152). -/
theorem ownCheck_eq_some_iff (i : Instr) (s : State) (e : ErrCode) :
    ownCheck i s = some e ↔
      i = .nonceGen ∧ s.nexh = true ∧ e = .exhausted ∨
      ∃ n, i = .gcmDec n ∧ (s.rem < bitsOf n ∨ n.toNat < 16 ∧ bitsOf n ≠ s.rem) ∧ e = .length := by
  cases i
  case nonceGen => simp [ownCheck, exhaustedError, eq_comm (b := e)]
  case gcmDec n => simp [ownCheck, releaseError, eq_comm (b := e)]
  all_goals simp [ownCheck]

/-- The completion of a command writes its outcome to ERRCODE (rule R151). -/
theorem exec_errcode {i : Instr} {s t : State} (h : exec i s = .next t) : t.errcode = outcomeOf i (ownCheck i s) s := by
  rw [exec_eq_perform] at h
  rcases perform_next h with ⟨ho, rfl⟩ | ⟨_, rfl⟩
  · exact ho.symm
  · rfl

/-- A word completes with an error that the decoder names, or that a check of its command finds in the state: the session
does not accept it, or its own check fails (rules R151, R152). -/
theorem runWord_errcode_iff {w : Word} {s t : State} (h : runWord w s = .next t) {e : ErrCode} (he : e ≠ .ok) :
    t.errcode = e ↔ decode w = .error e ∨
      ∃ i, decode w = .ok i ∧
        (accepted i s.sess s.partialBlk = false ∧ e = .sequence ∨
          accepted i s.sess s.partialBlk = true ∧ ownCheck i s = some e) := by
  rcases runWord_next h with ⟨i, hi, hx⟩ | ⟨e', hd, rfl⟩
  · obtain ⟨_, hw⟩ := encodeOfDecode w i hi
    simp [exec_errcode hx, outcomeOf_eq_iff he, hi, hw]
  · simp [hd]

/-- The commands that some state of the session refuses (rule R116). -/
theorem sessionCommand_of_not_accepted {i : Instr} {q : Sess} {b : Bool} (h : accepted i q b = false) :
    (∃ n, i = .gcmAad n ∨ i = .gcmEnc n ∨ i = .gcmDecAuth n ∨ i = .gcmDec n) ∨ i = .gcmFinal := by
  cases i
  case gcmAad n | gcmEnc n | gcmDecAuth n | gcmDec n => exact .inl ⟨n, by simp⟩
  case gcmFinal => exact .inr rfl
  all_goals cases h

/-- Settles O5: the outcome is that of the first check that fails, and the decoder's checks come before it. -/
theorem errorPriority : Obligations.ErrorPriority := by
  refine ⟨fun i s hw => failsWith_nbytes hw s, fun i s hw ha => failsWith_sequence hw (by simp [ha]), fun i s hw ha => ?_,
    fun w => decode_illegal, fun w hop hr => ?_, by decide, by decide, by decide, fun s hs => ?_⟩
  · obtain ⟨t, ht⟩ := exec_total i s
    refine ⟨t, ht, or_iff_not_imp_left.mpr fun he => ?_⟩
    have hown : ownCheck i s = some t.errcode := by
      simpa [hw, ha] using (outcomeOf_eq_iff he i _ s).mp (exec_errcode ht).symm
    rcases (ownCheck_eq_some_iff ..).mp hown with ⟨hi, _, he⟩ | ⟨n, hi, _, he⟩
    · exact .inl ⟨hi, he⟩
    · exact .inr ⟨⟨n, hi⟩, he⟩
  · obtain ⟨i, hi⟩ := Option.ne_none_iff_exists'.mp hop
    exact decode_reserved hi hr
  · exact blockCommand_gcmDec.failsWith_sequence (by decide) (by simp [hs])

/-- Settles O6: an error of the decoder and one of a command's checks both leave nothing but the completion. -/
theorem erroredCommandOnlyCompletes : Obligations.ErroredCommandOnlyCompletes := by
  intro w s t h he
  rcases runWord_next h with ⟨i, hi, hx⟩ | ⟨e, _, rfl⟩
  · rcases exec_next hx with ⟨_, _, _, rfl⟩ | ⟨e, _, _, rfl⟩
    · exact absurd rfl he
    · rw [encode_of_decode hi]
      rfl
  · rfl

/-- Settles O7: each code is traced to the check that reports it, and each check to the commands that have it. -/
theorem outcomeCodes : Obligations.OutcomeCodes := by
  refine ⟨by decide, fun w s t h => ?_⟩
  have hdecoder {e : ErrCode} (he : e ≠ .ok ∧ e ≠ .sequence ∧ e ≠ .exhausted ∧ e ≠ .length) :
      t.errcode = e ↔ decode w = .error e := by
    simp [runWord_errcode_iff h he.1, ownCheck_eq_some_iff, he]
  have hcommand {e : ErrCode} (he : e ≠ .illegal ∧ e ≠ .reserved ∧ e ≠ .nbytes) : decode w ≠ .error e := fun hd => by
    simpa [he] using decode_error hd
  have hseq : t.errcode = .sequence ↔ ∃ i, decode w = .ok i ∧ accepted i s.sess s.partialBlk = false := by
    simp [runWord_errcode_iff h, ownCheck_eq_some_iff, hcommand]
  obtain ⟨_, _, _, _, _, hdone, hpend⟩ := runWord_frame h
  refine ⟨hdecoder (by decide), hdecoder (by decide), hdecoder (by decide), hseq, fun he => ?_, ?_, ?_, runWord_cmdLast h,
    hdone, hpend⟩
  · obtain ⟨i, hi, ha⟩ := hseq.mp he
    simpa [hi] using sessionCommand_of_not_accepted ha
  · simp [runWord_errcode_iff h, ownCheck_eq_some_iff, hcommand, accepted]
  · simp [runWord_errcode_iff h, ownCheck_eq_some_iff, hcommand, accepted_gcmDec, bitsOf]

/-- Settles O8: the three commands are accepted in these states, and their effect is the negative result. -/
theorem negativeResultsAreOk : Obligations.NegativeResultsAreOk := by
  refine ⟨fun s hs ht => ⟨_, exec_gcmFinal (by tauto), rfl, ?_⟩, fun s hne => ⟨_, exec_of_accepted rfl rfl rfl, rfl, ?_⟩,
    fun s hle => ⟨_, exec_nonceValidate s, rfl, ?_⟩⟩
  · rw [effect_gcmFinal_dec hs, finalDec_mismatch ht]
    exact ⟨rfl, rfl⟩
  · exact Bool.eq_false_iff.mpr (mt (ctEq_iff _ _).mp hne)
  · rw [effect_nonceValidate_refuse hle]
    rfl

/-! ### The interrupt output -/

/-- A CMD write, issued or dropped, leaves DONE (rules R60, R158). -/
theorem busOp_write_cmd_done (v : Word) (s : State) : (busOp 0x00#8 (.write v) s).done = s.done := by
  cases hb : s.busy with
  | true => rw [busOp_write_dropped (r := .cmd) rfl rfl v hb, reply_done]
  | false => rw [busOp_write (r := .cmd) rfl v (.inr ⟨rfl, hb⟩), reply_done, writeReg, issue]

/-- Settles O25: a completion sets DONE and leaves DONE_IE; of the accesses named, IRQ_EN's write changes DONE_IE alone and
STATUS's may clear DONE. -/
theorem interruptOutput : Obligations.InterruptOutput := by
  refine ⟨fun _ => rfl, fun w s t h => ?_, fun s v => ?_⟩
  · obtain ⟨_, hie, _, _, _, hdone, _⟩ := runWord_frame h
    exact ⟨hdone, by rw [irq, hdone, hie, Bool.true_and]⟩
  · have hset : irq (busOp 0x08#8 (.write v) s) = (s.done && v.getLsbD 0) := rfl
    have hclear : (busOp 0x04#8 (.write v) s).done = (s.done && !v.getLsbD 1) := rfl
    refine ⟨rfl, fun h0 => ?_, fun h0 => ?_, fun h1 => ?_, rfl, rfl, busOp_write_cmd_done v s⟩
    · rw [hset, h0, Bool.and_false]
    · rw [hset, h0, Bool.and_true]
    · rw [h1, Bool.not_true, Bool.and_false] at hclear
      exact ⟨hclear, by rw [irq, hclear, Bool.false_and]⟩

/-! ### The completion, an access of its cycle, and reset -/

/-- A cycle of reset leaves the reset state, and answers each access made in it once (rules R170, R171; log entry 4). -/
theorem resetCycle_answers {a : Option Access} (ha : ∀ b, a = some b → b.width = .word) (s : State) :
    ∃ answers : List Reply, answers.length = (if a.isSome then 1 else 0) ∧
      resetCycle a s = .next { State.reset with host := s.host, replies := s.replies ++ answers } := by
  cases a with
  | none => exact ⟨[], rfl, by simp [resetCycle, applyReset]⟩
  | some b => exact ⟨[replyInReset b.op s.replies.length], rfl, by simp [resetCycle, ha b rfl, applyReset, reply]⟩

/-- The last cycle of the pending command completes it, after the access of that cycle (rule R182; log entry 3). -/
theorem engineCycle_completes {s : State} {p : Pending} (hp : s.pend = some p) (hl : p.left ≤ 1) (u : State) :
    engineCycle s.pend u = runWord p.word u := by
  rw [hp, engineCycle_last hl]

/-- Settles O26: the engine acts after the access of its cycle, and a reset takes the place of both. -/
theorem completionWins : Obligations.CompletionWins := by
  refine fun s p rest hp => ⟨fun v hl hh => ?_, fun a hh ha => ?_⟩
  · obtain ⟨t, ht⟩ := runWord_total p.word (busOp 0x04#8 (.write v) { s with host := rest })
    obtain ⟨_, _, _, _, _, hdone, hpend⟩ := runWord_frame ht
    exact ⟨t, (step_bus hh).trans ((engineCycle_completes hp hl _).trans ht), hdone, hpend, runWord_cmdLast ht⟩
  · rw [step_resetEvent hh]
    exact resetCycle_answers ha { s with host := rest }

end Sys2Proof.Proofs
end

section
/-! Reset, and the latency of a command: the state a reset leaves, and the cycles between the CMD write and the completion
(70_reset_and_hazards.md rules R170-R172, R182). -/
namespace Sys2Proof.Proofs

open Sys2Proof.Machine Sys2Proof.Safety Sys2Proof.Laws

/-! ### Reset -/

/-- Settles O23: the step is the reset alone, and the reset state is read off its definition. -/
theorem resetState : Obligations.ResetState :=
  ⟨fun _ _ hh => step_resetEvent hh, step_resetEvent (s := { State.reset with host := [.reset none] }) rfl,
    by decide, rfl, rfl⟩

/-- Settles O24: the step is the cycle of reset, which answers each access made in it once. -/
theorem resetWins : Obligations.ResetWins := by
  intro s a rest hh ha
  rw [step_resetEvent hh]
  exact resetCycle_answers ha { s with host := rest }

/-- Settles O50: the reset state meets the invariant whatever the host's side, and so with an empty one. -/
theorem invAtReset : Obligations.InvAtReset := reset_inv [] []

/-! ### The latency of a command -/

/-- All illegal OPs have the same latency, LAT_ERR (rule R182). -/
theorem latency_illegal {op : BitVec 8} (h : instrOf op 0#5 = none) : latency op = Config.errorLatencyBeyondOne + 1 := by
  simp [latency, h]

/-- A CMD write while nothing is pending is one step, which makes its word pending for LAT(op) cycles (rules R77, R182). -/
theorem step_write_cmd {s : State} {w : Word} {rest : List HostEvent} (hp : s.pend = none)
    (hh : s.host = .bus { width := .word, off := 0x00#8, op := .write w } :: rest) :
    step s = .next { s with
      pend := some { word := w, left := latency (opOf w) }
      host := rest
      replies := s.replies ++ [.writeDone .ok] } := by
  rw [step_access hp hh, busOp_write_cmd (s := { s with host := rest }) hp]
  rfl

/-- Idle cycles before the pending command's last change nothing but its countdown (rule R182). -/
theorem run_idle_counts {s : State} {p : Pending} {n : Nat} {rest : List HostEvent} (hp : s.pend = some p)
    (hh : s.host = List.replicate n .idle ++ rest) (hn : n < p.left) :
    Sys2Proof.core.run n s = .next { s with pend := some { word := p.word, left := p.left - n }, host := rest } := by
  induction n generalizing s p with
  | zero =>
    obtain rfl : s.host = rest := hh
    exact congrArg _ (by simp [← hp])
  | succ n ih =>
    have hstep := (step_idle hh).trans (engineCycle_counts hp (by omega) _)
    rw [run_succ_next hstep, ih rfl rfl (Nat.lt_sub_of_add_lt hn), Nat.sub_sub, Nat.add_comm 1 n]

/-- An idle cycle that is the pending command's last completes it (rule R182). -/
theorem step_idle_last {s : State} {p : Pending} {rest : List HostEvent} (hp : s.pend = some p) (hl : p.left ≤ 1)
    (hh : s.host = .idle :: rest) : step s = runWord p.word { s with host := rest } :=
  (step_idle hh).trans (engineCycle_completes hp hl _)

/-- As many idle cycles as the pending command has to go complete it, and change nothing else (rule R182). -/
theorem run_idle_completes {s : State} {p : Pending} {rest : List HostEvent} (hp : s.pend = some p)
    (hh : s.host = List.replicate p.left .idle ++ rest) (hl : 1 ≤ p.left) :
    Sys2Proof.core.run p.left s =
      runWord p.word { s with pend := some { word := p.word, left := 1 }, host := rest } := by
  obtain ⟨k, hk⟩ := Nat.exists_eq_add_of_le' hl
  have hlast : p.left - k = 1 := by omega
  have hsplit : s.host = List.replicate k .idle ++ .idle :: rest := by
    rw [hh, hk, List.replicate_succ', List.append_assoc, List.singleton_append]
  rw [hk, run_succ_end k (run_idle_counts hp hsplit (by omega)), hlast, step_idle_last rfl le_rfl rfl]

/-- Settles O12: the CMD write makes the word pending for LAT(op) cycles, and each idle cycle is one of them. -/
theorem latencyCountsDown : Obligations.LatencyCountsDown := by
  intro s w rest lat sent hp hh
  have hwrite : step s = .next (sent lat (List.replicate lat .idle ++ rest)) := step_write_cmd hp hh
  have hpend (left host) : (sent left host).pend = some { word := w, left := left } := rfl
  refine ⟨one_le_latency _, fun op op' h h' => (latency_illegal h).trans (latency_illegal h').symm, fun k hk => ?_, ?_⟩
  · have hsplit : List.replicate lat .idle ++ rest = List.replicate k .idle ++ (List.replicate (lat - k) .idle ++ rest) := by
      rw [← List.append_assoc, List.replicate_append_replicate, Nat.add_sub_of_le hk.le]
    rw [run_succ_next hwrite]
    exact run_idle_counts (hpend lat _) hsplit hk
  · rw [run_succ_next hwrite]
    exact run_idle_completes (hpend lat _) rfl (one_le_latency _)

end Sys2Proof.Proofs
end
